-- ==== Sys2Proof/Word.lean ====
section
/-! DEFINITION. The widths of R16 (00_scope.md): a bus word is 32 bits, a telegram or buffer byte 8 bits.
Bit 0 is the least significant bit everywhere (R15). -/

namespace Sys2Proof

/-- A `u8` of R16. -/
abbrev Byte := BitVec 8

/-- A 32-bit bus word, the one size the host may access (R100, R104). -/
abbrev Word := BitVec 32

end Sys2Proof
end

