-- ==== Sys2Proof/Config.lean ====
section
/-! DEFINITION. What is fixed when the block is built (00_scope.md R7 to R14) and the free values the spec leaves
open (93_implementation_defined.md U1 to U3, U13). The default contents of the field tables stand in
Machine/Tables.lean, with the build the machine is run at. -/

namespace Sys2Proof.Config

/-- `P_ID` (R2), the constant register ID reads as (R31). -/
def pId : Word := 0x574D4231#32

/-- `P_FRAME_MAX` (R7). -/
def pFrameMax : Nat := 256

/-- `P_PT_MAX` (R7). -/
def pPtMax : Nat := 256

/-- `P_MAX_RECORDS` (R7). -/
def pMaxRecords : Nat := 128

/-- `P_MAX_DIFE` (R7, D21). -/
def pMaxDife : Nat := 10

/-- `P_MAX_VIFE` (R7, D21). -/
def pMaxVife : Nat := 10

/-- `P_BCD_RADIX` (R8). -/
inductive BcdRadix where
  | r16
  | r10
deriving DecidableEq, Repr

/-- `P_DATE_LAYOUT` (R9). -/
inductive DateLayout where
  | doc
  | en13757
deriving DecidableEq, Repr

/-- `P_SPECIAL_DIF` (R10). -/
inductive SpecialDif where
  | en13757
  | uniform
deriving DecidableEq, Repr

/-- `P_IV_FIELDS` (R11). -/
inductive IvFields where
  | dll
  | tplIfLong
deriving DecidableEq, Repr

/-- The `dkind` column of `P_DIF_TABLE` (R285). -/
inductive DKind where
  | nodata
  | int
  | bcd
  | real
  | select
  | var
  | special
deriving DecidableEq, Repr

/-- The `len` column of `P_DIF_TABLE` (R285): a byte count, or VAR. -/
inductive DataLen where
  | fixed (n : Nat)
  | var
deriving DecidableEq, Repr

/-- The `vkind` column of `P_VIF_TABLE` (R286). -/
inductive VKind where
  | plain
  | date
  | datetime
deriving DecidableEq, Repr

/-- One row of `P_DIF_TABLE` (R285). -/
structure DifEntry where
  dkind : DKind
  len   : DataLen
deriving DecidableEq, Repr

/-- One row of `P_VIF_TABLE` (R286): a unit code of R287, the decimal exponent of the multiplier, the value kind. -/
structure VifEntry where
  unit  : Byte
  exp10 : Int
  vkind : VKind
deriving DecidableEq, Repr

/-- The build parameters of the sequencer (R8 to R12), not state (R412): every meaning takes them as an argument. -/
structure Params where
  bcdRadix   : BcdRadix
  dateLayout : DateLayout
  specialDif : SpecialDif
  ivFields   : IvFields
  difTable   : BitVec 4 → DifEntry
  vifTable   : BitVec 7 → VifEntry

/-- `P_BASE` (R13, D50), left OPEN: no value of it can be proved. The model's accesses carry offsets from it (R100). -/
opaque pBase : Nat

/-- FREE VALUE (U1, U2): what an unspecified byte of FRAME_BUF, PT_BUF or REC_TABLE reads as, by the draw it belongs
to and its window offset. It holds from the event that made the byte unspecified until the byte is written or made
unspecified again (R63, R106). -/
opaque freeByte : Nat → Nat → Byte

/-- FREE VALUE (U3): the unspecified bits of one host read made while BUSY = 1 (R421), by its draw. -/
opaque freeWord : Nat → Word

end Sys2Proof.Config
end

