-- ==== Sys2Proof/Syntax.lean ====
section
/-! DEFINITION. The commands of the block (30_encoding.md R132), one constructor per row of spec/opcode_table.json.
A command carries no operand bits (R133): its operands are registers. -/

namespace Sys2Proof

/-- The six commands of R132. -/
inductive Instr where
  | nop
  | decode
  | parseFrame
  | deriveIv
  | decrypt
  | iterate
deriving DecidableEq, Repr

end Sys2Proof
end

