-- ==== Sys2Proof/WellFormed.lean ====
section
/-! DEFINITION. What a term must satisfy beyond its type: a command word (30_encoding.md R130, R132), a command (R133:
it has no operand to be out of range) and a build (00_scope.md R12, 43_records.md R285). -/

namespace Sys2Proof

/-- A word selects a command exactly when MBZ = 0 and OP is not reserved (R130, R132, R134). -/
def commandWordWellFormed (w : Word) : Bool :=
  w.extractLsb' 4 28 == 0#28 && (w.extractLsb' 0 4).toNat ≤ 5

/-- Every command is well formed: it has no operand fields (R133). -/
def Instr.wellFormed : Instr → Bool
  | .nop => true
  | .decode => true
  | .parseFrame => true
  | .deriveIv => true
  | .decrypt => true
  | .iterate => true

/-- What R285 asks of a replacement row of `P_DIF_TABLE`: INT and BCD lengths in 1 to 8, REAL length 4; a fixed length
is one that DATA_LEN can hold (R52). -/
def DifEntryWellFormed (e : Config.DifEntry) : Bool :=
  match e.dkind, e.len with
  | .int, .fixed n => 1 ≤ n && n ≤ 8
  | .bcd, .fixed n => 1 ≤ n && n ≤ 8
  | .real, .fixed n => n == 4
  | .int, .var => false
  | .bcd, .var => false
  | .real, .var => false
  | .nodata, .fixed n => n ≤ 255
  | .select, .fixed n => n ≤ 255
  | .special, .fixed n => n ≤ 255
  | .var, .fixed n => n ≤ 255
  | .nodata, .var => true
  | .select, .var => true
  | .special, .var => true
  | .var, .var => true

/-- The exponent of a `P_VIF_TABLE` row fits the s8 field EXP10 (R52, R317). -/
def VifEntryWellFormed (e : Config.VifEntry) : Bool :=
  -128 ≤ e.exp10 && e.exp10 ≤ 127

/-- Every row of both field tables is well formed. -/
def ParamsWellFormed (P : Config.Params) : Bool :=
  (List.range 16).all (fun i => DifEntryWellFormed (P.difTable (BitVec.ofNat 4 i))) &&
    (List.range 128).all (fun i => VifEntryWellFormed (P.vifTable (BitVec.ofNat 7 i)))

end Sys2Proof
end

