-- ==== Sys2Proof/Decode.lean ====
section
/-! DEFINITION. The decoder of command words (30_encoding.md R130 to R135), total on every word and every byte list and
rejecting by name, then the encoder written from the same opcode map. -/

namespace Sys2Proof

/-- Why a word is no command (R134), or why bytes are no word. -/
inductive DecodeError where
  /-- MBZ (bits 31:4) is not zero (R134). -/
  | mbzNonzero
  /-- MBZ is zero and OP is 0x6 to 0xF (R132, R134). -/
  | reservedOp
  /-- Not exactly four bytes: a command is one 32-bit word (R130). -/
  | wrongLength
deriving DecidableEq, Repr

/-- OP, bits 3:0 of a command word (R130). -/
def wordOp (w : Word) : BitVec 4 := w.extractLsb' 0 4

/-- MBZ, bits 31:4 of a command word (R130). -/
def wordMbz (w : Word) : BitVec 28 := w.extractLsb' 4 28

/-- The opcode map of R132, by OP. -/
def decodeOp (op : BitVec 4) : Option Instr :=
  match op.toNat with
  | 0x0 => some .nop
  | 0x1 => some .decode
  | 0x2 => some .parseFrame
  | 0x3 => some .deriveIv
  | 0x4 => some .decrypt
  | 0x5 => some .iterate
  | _ => none

/-- R135: every word is exactly one command or illegal. -/
def decode (w : Word) : Except DecodeError Instr :=
  if wordMbz w = 0#28 then
    match decodeOp (wordOp w) with
    | some i => .ok i
    | none => .error .reservedOp
  else
    .error .mbzNonzero

/-- A command word as the bus lays it out: four bytes, the least significant first (R101). -/
def decodeBytes : List Byte → Except DecodeError Instr
  | [b0, b1, b2, b3] => decode (b3 ++ b2 ++ b1 ++ b0)
  | _ => .error .wrongLength

/-- OP of each command (R132). -/
def opOf : Instr → BitVec 4
  | .nop => 0x0#4
  | .decode => 0x1#4
  | .parseFrame => 0x2#4
  | .deriveIv => 0x3#4
  | .decrypt => 0x4#4
  | .iterate => 0x5#4

/-- The command word of R130: MBZ zero, OP of R132. -/
def encode (i : Instr) : Word := 0#28 ++ opOf i

/-- The four bytes of a command word, lane 0 first (R101). -/
def encodeBytes (i : Instr) : List Byte :=
  [(encode i).extractLsb' 0 8, (encode i).extractLsb' 8 8, (encode i).extractLsb' 16 8, (encode i).extractLsb' 24 8]

/-- The 32-bit command word whose bits, below `nbits`, are those of `w`. -/
def tableWord (nbits w : Nat) : Word := BitVec.ofNat 32 (w % 2 ^ nbits)

/-- The command the decoder reads from the word whose bits are `w`, numbered as spec/opcode_table.json numbers them. -/
def decodeTableWord (nbits w : Nat) : Option Instr :=
  let word := tableWord nbits w
  match decodeBytes [word.extractLsb' 0 8, word.extractLsb' 8 8, word.extractLsb' 16 8, word.extractLsb' 24 8] with
  | .ok i => some i
  | .error _ => none

end Sys2Proof
end

