-- ==== Sys2Proof/Machine/State.lean ====
section
/-! DEFINITION. The architectural state of 10_state.md as plain data, the host's pending accesses, and the state after
reset (R63, R410). -/

namespace Sys2Proof.Machine

/-- STATUS.OUTCOME (R371); code 3 is never produced. -/
inductive OutcomeClass where
  | ok
  | degraded
  | fatal
deriving DecidableEq, Repr

/-- STATUS.ERRCODE (R370); codes 10 to 15 are never produced. -/
inductive ErrCode where
  | none
  | malformedFrame
  | payloadTruncated
  | invalidKeyLength
  | decryptionIntegrity
  | cipherLength
  | noKey
  | recordDecode
  | illegalCommand
  | frameLenRange
deriving DecidableEq, Repr

/-- STATUS.SEC_STATUS (R36); codes 5 to 7 are never produced. -/
inductive SecStatus where
  | none
  | unencrypted
  | encrypted
  | decrypted
  | undecryptable
deriving DecidableEq, Repr

/-- STATUS.REC_STOP (R282); codes 9 to 15 are never produced. -/
inductive RecStop where
  | notRun
  | exhausted
  | specialStop
  | difeUnterminated
  | vifeUnterminated
  | difeOverflow
  | vifeOverflow
  | vifMissing
  | dataTruncated
deriving DecidableEq, Repr

/-- INFO_DLL1.TPL_KIND (R46); code 3 is never produced. -/
inductive TplKind where
  | none
  | long
  | short
deriving DecidableEq, Repr

/-- KIND of a record slot (R58); code 7 is never produced. -/
inductive ValueKind where
  | none
  | int
  | bcd
  | real
  | date
  | datetime
  | raw
deriving DecidableEq, Repr

/-- The scope of a command's Prologue (R342). -/
inductive Scope where
  | none
  | frame
  | cipher
  | records
deriving DecidableEq, Repr

/-- What FrameStage returns (R160). -/
inductive FrameVerdict where
  | ok
  | malformed
  | truncated
deriving DecidableEq, Repr

/-- The sequencer phase (R59): IDLE, or BUSY with the command word being run and the bus slots left before it
completes (R14, R340, R430). STATUS.BUSY is this phase. -/
inductive Phase where
  | idle
  | busy (word : Word) (left : Nat)
deriving DecidableEq, Repr

/-- The size of a host access (R104). -/
inductive AccessSize where
  | byte
  | half
  | word
deriving DecidableEq, Repr

/-- One entry of the host's queue: the statements of R136 that are not expansions of others, at any access size
(R104), and a pulse of the platform's hardware reset (R410). -/
inductive HostOp where
  | read (size : AccessSize) (off : BitVec 14)
  | write (size : AccessSize) (off : BitVec 14) (v : Word)
  /-- `POLL` of R136: read STATUS until BUSY = 0 and DONE = 1. -/
  | poll
  | hardReset
deriving DecidableEq, Repr

/-- What the bus answered the last host access (R104): the data of a read, and whether it was refused. -/
structure BusResp where
  data : Word
  err  : Bool
deriving DecidableEq, Repr

/-- The names of the register map (R31). -/
inductive Reg where
  | id | ctrl | cmd | status | frameLen | keyLen | ptLen | recCount
  | key0 | key1 | key2 | key3
  | iv0 | iv1 | iv2 | iv3
  | ivinM | ivinA | ivinAcc | ivinFc
  | infoDll0 | infoA | infoDll1 | tplId | tplHdr | tplSec | payload | sec
  | frameBuf | ptBuf | recTable
  | reserved
deriving DecidableEq, Repr

/-- The fields of STATUS (R35), all but BUSY. -/
structure Status where
  done       : Bool
  outcome    : OutcomeClass
  errCode    : ErrCode
  secStatus  : SecStatus
  marker     : Bool
  recStop    : RecStop
  cmdOverrun : Bool
  wrIgnored  : Bool
  busErr     : Bool
  lastOp     : BitVec 4
deriving DecidableEq, Repr

/-- The frame result registers, offsets 0x050 to 0x06C (R44 to R51), by field. -/
structure FrameInfo where
  l          : Byte
  c          : Byte
  m          : BitVec 16
  a          : Word
  v          : Byte
  t          : Byte
  ci         : Byte
  infoValid  : Bool
  ciPresent  : Bool
  tplKind    : TplKind
  tplValid   : Bool
  encrypted  : Bool
  tplId      : Word
  tplM       : BitVec 16
  tplV       : Byte
  tplT       : Byte
  acc        : Byte
  sts        : Byte
  cfg        : BitVec 16
  payloadOff : BitVec 9
  payloadLen : BitVec 9
  secMode    : BitVec 5
deriving DecidableEq, Repr

/-- The fields of a record slot (R52). STOR_HI:STOR_LO is one 41-bit number and VAL_HI:VAL_LO one 64-bit number. -/
structure RecordSlot where
  dif     : Byte
  vif     : Byte
  difes   : List Byte
  vifes   : List Byte
  kind    : ValueKind
  lvar    : Bool
  recOff  : BitVec 9
  dataOff : BitVec 9
  val     : BitVec 64
  dataLen : Byte
  unit    : Byte
  exp10   : Byte
  vexp10  : Byte
  day     : BitVec 5
  month   : BitVec 4
  year    : BitVec 12
  minute  : BitVec 6
  hour    : BitVec 5
  storage : BitVec 41
  tariff  : BitVec 20
  subunit : BitVec 10
deriving DecidableEq, Repr

/-- Everything the spec gives the block (10_state.md), the host's side of the bus, and the model's counters for the
values the spec leaves open. -/
structure State where
  /-- CTRL.IRQ_EN (R33). -/
  irqEn      : Bool
  /-- STATUS (R35) but BUSY. -/
  status     : Status
  /-- PHASE (R59); BUSY of STATUS. -/
  phase      : Phase
  /-- FRAME_LEN (R37). -/
  frameLen   : BitVec 9
  /-- KEY_LEN (R38). -/
  keyLen     : BitVec 8
  /-- PT_LEN (R39). -/
  ptLen      : BitVec 9
  /-- REC_COUNT (R40). -/
  recCount   : BitVec 8
  /-- KEY0 to KEY3 (R41). -/
  key0       : Word
  key1       : Word
  key2       : Word
  key3       : Word
  /-- IV0 to IV3 (R42). -/
  iv0        : Word
  iv1        : Word
  iv2        : Word
  iv3        : Word
  /-- IVIN_M, IVIN_A, IVIN_ACC, IVIN_FC (R43). -/
  ivinM      : BitVec 16
  ivinA      : Word
  ivinAcc    : Byte
  ivinFc     : BitVec 16
  /-- The frame result registers (R44 to R51). -/
  info       : FrameInfo
  /-- The specified bytes of FRAME_BUF, PT_BUF and REC_TABLE (R53 to R55) by window offset, strictly rising. An offset
  that is not listed is unspecified. -/
  mem        : List Host.Cell
  /-- The host accesses to come, oldest first (R109). -/
  hostQueue  : List HostOp
  /-- The bus answer to the last host access (R104). -/
  resp       : BusResp
  /-- The model's own: the bus slots the commands to come take (R14, R430), oldest first; none listed is none taken. -/
  latencies  : List Nat
  /-- The model's own: the next unused draw of a free value. -/
  draw       : Nat
  /-- The model's own: the draw of FRAME_BUF's unspecified bytes (U1). -/
  frameDraw  : Nat
  /-- The model's own: the draw of the unspecified bytes of PT_BUF and REC_TABLE (U1, U2). -/
  resultDraw : Nat
deriving DecidableEq, Repr

/-- Why the machine stops with a fault. The block has none: every access is answered and every command completes with
a typed outcome (R344, R378), so this type has no constructor. -/
inductive Fault where
deriving DecidableEq, Repr

/-- Why a step is refused. -/
inductive Refusal where
  /-- Raised by an arm of `exec` whose command has no meaning yet; safe. No arm raises it. -/
  | notModelled (mnemonic : String)
deriving DecidableEq, Repr

/-- STATUS after reset (R35, R63): 0. -/
def Status.reset : Status where
  done := false
  outcome := .ok
  errCode := .none
  secStatus := .none
  marker := false
  recStop := .notRun
  cmdOverrun := false
  wrIgnored := false
  busErr := false
  lastOp := 0#4

/-- The frame result registers cleared (R343) and after reset (R63): 0. -/
def FrameInfo.cleared : FrameInfo where
  l := 0#8
  c := 0#8
  m := 0#16
  a := 0#32
  v := 0#8
  t := 0#8
  ci := 0#8
  infoValid := false
  ciPresent := false
  tplKind := .none
  tplValid := false
  encrypted := false
  tplId := 0#32
  tplM := 0#16
  tplV := 0#8
  tplT := 0#8
  acc := 0#8
  sts := 0#8
  cfg := 0#16
  payloadOff := 0#9
  payloadLen := 0#9
  secMode := 0#5

/-- The machine right after hardware reset (R63, R410). The buffers are unspecified: nothing listed. The host's side
and the model's counters are DESIGN CHOICEs (entries 1, 3, 4, 9). -/
def State.reset : State where
  irqEn := false
  status := Status.reset
  phase := .idle
  frameLen := 0#9
  keyLen := 0#8
  ptLen := 0#9
  recCount := 0#8
  key0 := 0#32
  key1 := 0#32
  key2 := 0#32
  key3 := 0#32
  iv0 := 0#32
  iv1 := 0#32
  iv2 := 0#32
  iv3 := 0#32
  ivinM := 0#16
  ivinA := 0#32
  ivinAcc := 0#8
  ivinFc := 0#16
  info := FrameInfo.cleared
  mem := []
  hostQueue := []
  resp := ⟨0#32, false⟩
  latencies := []
  draw := 1
  frameDraw := 0
  resultDraw := 0

end Sys2Proof.Machine
end

