-- ==== Sys2Proof/Machine/Operands.lean ====
section
/-! DEFINITION. Byte order and bit fields: little-endian byte sequences (00_scope.md R17), the byte lanes of a bus word
(20_memory.md R101), and the fields of DIF, DIFE, VIF and VIFE bytes (30_encoding.md R148 to R151). -/

namespace Sys2Proof.Machine

/-- `le(s)` of R17. -/
def leNat : List Byte → Nat
  | [] => 0
  | b :: bs => b.toNat + 256 * leNat bs

/-- `le16(a, b)` of R17, as a 16-bit field. -/
def le16 (a b : Byte) : BitVec 16 := b ++ a

/-- The word whose lanes 0 to 3 hold the four bytes (R101). -/
def wordOfBytes (b0 b1 b2 b3 : Byte) : Word := b3 ++ b2 ++ b1 ++ b0

/-- The byte in lane `m` of a word (R101). -/
def lane (w : Word) (m : Nat) : Byte := w.extractLsb' (8 * m) 8

/-- The four bytes of a word, lane 0 first (R101). -/
def wordBytes (w : Word) : List Byte := [lane w 0, lane w 1, lane w 2, lane w 3]

/-- Byte `i` of a sequence. Every use is at an index below the length (R161, R281). -/
def byteAt (p : List Byte) (i : Nat) : Byte := p.getD i 0#8

/-- DIF data field, bits 3:0 (R148). -/
def difDataField (dif : Byte) : BitVec 4 := dif.extractLsb' 0 4

/-- DIF function field, bits 5:4 (R148). -/
def difFunc (dif : Byte) : BitVec 2 := dif.extractLsb' 4 2

/-- DIF storage-number bit, bit 6 (R148). -/
def difStorage (dif : Byte) : BitVec 1 := dif.extractLsb' 6 1

/-- The extension bit, bit 7 of a DIF, DIFE, VIF or VIFE (R148 to R151). -/
def extBit (b : Byte) : Bool := b.getLsbD 7

/-- DIFE storage-number bits, bits 3:0 (R149). -/
def difeStorage (d : Byte) : BitVec 4 := d.extractLsb' 0 4

/-- DIFE tariff bits, bits 5:4 (R149). -/
def difeTariff (d : Byte) : BitVec 2 := d.extractLsb' 4 2

/-- DIFE device-unit bit, bit 6 (R149). -/
def difeSubunit (d : Byte) : BitVec 1 := d.extractLsb' 6 1

/-- VIF index into `P_VIF_TABLE`, bits 6:0 (R150). -/
def vifIndex (vif : Byte) : BitVec 7 := vif.extractLsb' 0 7

/-- `Σ_{j<m} d_j[3:0] · 2^(4j)` over the DIFEs, first lowest (R288). -/
def difesStorage : List Byte → Nat
  | [] => 0
  | d :: ds => (difeStorage d).toNat + 16 * difesStorage ds

/-- storage of R288: the DIF bit is bit 0 and each DIFE adds four bits above. -/
def storageNumber (dif : Byte) (difes : List Byte) : Nat :=
  (difStorage dif).toNat + 2 * difesStorage difes

/-- tariff of R288: each DIFE adds two bits, first lowest. -/
def tariffNumber : List Byte → Nat
  | [] => 0
  | d :: ds => (difeTariff d).toNat + 4 * tariffNumber ds

/-- subunit of R288: each DIFE adds one bit, first lowest. -/
def subunitNumber : List Byte → Nat
  | [] => 0
  | d :: ds => (difeSubunit d).toNat + 2 * subunitNumber ds

end Sys2Proof.Machine
end

