-- ==== Sys2Proof/Machine/Aes.lean ====
section
/-! DEFINITION. The AES-128 block cipher of 42_aes128.md (FIPS-197). A column is four bytes and a block four columns, so
that `s[r][c] = in[r + 4c]` (R241) reads: row r of column c. A key-expansion word of R245 is a column too. -/

namespace Sys2Proof.Machine

/-- A column of the state, rows 0 to 3 (R241); also a word of the key expansion (R245). -/
structure Col where
  b0 : Byte
  b1 : Byte
  b2 : Byte
  b3 : Byte
deriving DecidableEq, Repr

/-- The 4×4 state by columns (R241); also a 16-byte key, round key, IV or ciphertext block. -/
structure Block where
  c0 : Col
  c1 : Col
  c2 : Col
  c3 : Col
deriving DecidableEq, Repr

/-- The column of bytes 4j to 4j+3 of a KEY or IV register word: lane m is byte 4j+m (R41, R42). -/
def colOfWord (w : Word) : Col := ⟨lane w 0, lane w 1, lane w 2, lane w 3⟩

/-- The bytes of a column in row order. -/
def colBytes (c : Col) : List Byte := [c.b0, c.b1, c.b2, c.b3]

/-- The bytes of a block, `out[r + 4c] = s[r][c]` (R241). -/
def blockBytes (b : Block) : List Byte := colBytes b.c0 ++ colBytes b.c1 ++ colBytes b.c2 ++ colBytes b.c3

/-- The whole 16-byte blocks of a byte sequence in order (R205); bytes after the last whole block belong to none. -/
def blocksOf : List Byte → List Block
  | a0 :: a1 :: a2 :: a3 :: a4 :: a5 :: a6 :: a7 :: a8 :: a9 :: a10 :: a11 :: a12 :: a13 :: a14 :: a15 :: rest =>
    ⟨⟨a0, a1, a2, a3⟩, ⟨a4, a5, a6, a7⟩, ⟨a8, a9, a10, a11⟩, ⟨a12, a13, a14, a15⟩⟩ :: blocksOf rest
  | _ => []

/-! ### Field arithmetic (R242) -/

/-- `xtime(a)` (R242). -/
def xtime (a : Byte) : Byte := (a <<< 1) ^^^ (if a.getLsbD 7 then 0x1B#8 else 0x00#8)

/-- The XOR of `xtime^j(a)` over the bits j of `b` from `8 - k` up (R242), `a` being `xtime^(8-k)` of the factor. -/
def gmulFrom (b : Byte) : Nat → Byte → Byte
  | 0, _ => 0x00#8
  | k + 1, a => (if b.getLsbD (7 - k) then a else 0x00#8) ^^^ gmulFrom b k (xtime a)

/-- `b • a` (R242). -/
def gmul (b a : Byte) : Byte := gmulFrom b 8 a

/-! ### S-boxes: each row is the sixteen bytes of the spec's table row, column x0 first -/

/-- The S-box table (R243), rows 0x to Fx. -/
def sboxRows : List Nat :=
  [0x637c777bf26b6fc53001672bfed7ab76, 0xca82c97dfa5947f0add4a2af9ca472c0,
   0xb7fd9326363ff7cc34a5e5f171d83115, 0x04c723c31896059a071280e2eb27b275] ++
  [0x09832c1a1b6e5aa0523bd6b329e32f84, 0x53d100ed20fcb15b6acbbe394a4c58cf,
   0xd0efaafb434d338545f9027f503c9fa8, 0x51a3408f929d38f5bcb6da2110fff3d2] ++
  [0xcd0c13ec5f974417c4a77e3d645d1973, 0x60814fdc222a908846eeb814de5e0bdb,
   0xe0323a0a4906245cc2d3ac629195e479, 0xe7c8376d8dd54ea96c56f4ea657aae08] ++
  [0xba78252e1ca6b4c6e8dd741f4bbd8b8a, 0x703eb5664803f60e613557b986c11d9e,
   0xe1f8981169d98e949b1e87e9ce5528df, 0x8ca1890dbfe6426841992d0fb054bb16]

/-- The inverse S-box table (R244), rows 0x to Fx. -/
def invSboxRows : List Nat :=
  [0x52096ad53036a538bf40a39e81f3d7fb, 0x7ce339829b2fff87348e4344c4dee9cb,
   0x547b9432a6c2233dee4c950b42fac34e, 0x082ea16628d924b2765ba2496d8bd125] ++
  [0x72f8f66486689816d4a45ccc5d65b692, 0x6c704850fdedb9da5e154657a78d9d84,
   0x90d8ab008cbcd30af7e45805b8b34506, 0xd02c1e8fca3f0f02c1afbd0301138a6b] ++
  [0x3a9111414f67dcea97f2cfcef0b4e673, 0x96ac7422e7ad3585e2f937e81c75df6e,
   0x47f11a711d29c5896fb7620eaa18be1b, 0xfc563e4bc6d279209adbc0fe78cd5af4] ++
  [0x1fdda8338807c731b11210592780ec5f, 0x60517fa919b54a0d2de57a9f93c99cef,
   0xa0e03b4dae2af5b0c8ebbb3c83539961, 0x172b047eba77d626e169146355210c7d]

/-- The table entry of a byte: row by its high nibble, column by its low nibble (R243, R244). -/
def tableLookup (rows : List Nat) (x : Byte) : Byte :=
  BitVec.ofNat 8 (rows.getD (x.toNat / 16) 0 >>> (8 * (15 - x.toNat % 16)))

/-- `S(x)` (R243). -/
def sbox (x : Byte) : Byte := tableLookup sboxRows x

/-- `InvS(x)` (R244). -/
def invSbox (x : Byte) : Byte := tableLookup invSboxRows x

/-! ### Columns and blocks -/

def colXor (x y : Col) : Col := ⟨x.b0 ^^^ y.b0, x.b1 ^^^ y.b1, x.b2 ^^^ y.b2, x.b3 ^^^ y.b3⟩

/-- AddRoundKey (R246), and the XOR of CBC (R205). -/
def blockXor (x y : Block) : Block := ⟨colXor x.c0 y.c0, colXor x.c1 y.c1, colXor x.c2 y.c2, colXor x.c3 y.c3⟩

def mapCol (f : Byte → Byte) (x : Col) : Col := ⟨f x.b0, f x.b1, f x.b2, f x.b3⟩

def mapBlock (f : Byte → Byte) (x : Block) : Block := ⟨mapCol f x.c0, mapCol f x.c1, mapCol f x.c2, mapCol f x.c3⟩

/-- SubBytes (R246). -/
def subBytes (x : Block) : Block := mapBlock sbox x

/-- InvSubBytes (R246). -/
def invSubBytes (x : Block) : Block := mapBlock invSbox x

/-- ShiftRows (R246): `s'[r][c] = s[r][(c + r) mod 4]`. -/
def shiftRows (x : Block) : Block :=
  ⟨⟨x.c0.b0, x.c1.b1, x.c2.b2, x.c3.b3⟩, ⟨x.c1.b0, x.c2.b1, x.c3.b2, x.c0.b3⟩,
   ⟨x.c2.b0, x.c3.b1, x.c0.b2, x.c1.b3⟩, ⟨x.c3.b0, x.c0.b1, x.c1.b2, x.c2.b3⟩⟩

/-- InvShiftRows (R246): `s'[r][c] = s[r][(c - r) mod 4]`. -/
def invShiftRows (x : Block) : Block :=
  ⟨⟨x.c0.b0, x.c3.b1, x.c2.b2, x.c1.b3⟩, ⟨x.c1.b0, x.c0.b1, x.c3.b2, x.c2.b3⟩,
   ⟨x.c2.b0, x.c1.b1, x.c0.b2, x.c3.b3⟩, ⟨x.c3.b0, x.c2.b1, x.c1.b2, x.c0.b3⟩⟩

/-- A column times the matrix whose first row is `(m0 m1 m2 m3)` and whose other rows rotate it right (R246). -/
def mixCol (m0 m1 m2 m3 : Byte) (a : Col) : Col :=
  ⟨gmul m0 a.b0 ^^^ gmul m1 a.b1 ^^^ gmul m2 a.b2 ^^^ gmul m3 a.b3,
   gmul m3 a.b0 ^^^ gmul m0 a.b1 ^^^ gmul m1 a.b2 ^^^ gmul m2 a.b3,
   gmul m2 a.b0 ^^^ gmul m3 a.b1 ^^^ gmul m0 a.b2 ^^^ gmul m1 a.b3,
   gmul m1 a.b0 ^^^ gmul m2 a.b1 ^^^ gmul m3 a.b2 ^^^ gmul m0 a.b3⟩

/-- MixColumns on one column (R246). -/
def mixColumn (a : Col) : Col := mixCol 0x02#8 0x03#8 0x01#8 0x01#8 a

/-- InvMixColumns on one column (R246). -/
def invMixColumn (a : Col) : Col := mixCol 0x0e#8 0x0b#8 0x0d#8 0x09#8 a

/-- MixColumns (R246). -/
def mixColumns (x : Block) : Block := ⟨mixColumn x.c0, mixColumn x.c1, mixColumn x.c2, mixColumn x.c3⟩

/-- InvMixColumns (R246). -/
def invMixColumns (x : Block) : Block := ⟨invMixColumn x.c0, invMixColumn x.c1, invMixColumn x.c2, invMixColumn x.c3⟩

/-! ### Key expansion (R245) -/

/-- `Rcon[1..10]` (R245). -/
def rcon : Nat → Byte
  | 1 => 0x01#8
  | 2 => 0x02#8
  | 3 => 0x04#8
  | 4 => 0x08#8
  | 5 => 0x10#8
  | 6 => 0x20#8
  | 7 => 0x40#8
  | 8 => 0x80#8
  | 9 => 0x1B#8
  | 10 => 0x36#8
  | _ => 0x00#8

/-- RotWord, then SubWord, then the round constant on byte 0 (R245). -/
def keyCore (r : Nat) (t : Col) : Col := ⟨sbox t.b1 ^^^ rcon r, sbox t.b2, sbox t.b3, sbox t.b0⟩

/-- Words `w[4r] .. w[4r+3]` from `w[4r-4] .. w[4r-1]` (R245). -/
def nextRoundKey (r : Nat) (k : Block) : Block :=
  let w0 := colXor k.c0 (keyCore r k.c3)
  let w1 := colXor k.c1 w0
  let w2 := colXor k.c2 w1
  let w3 := colXor k.c3 w2
  ⟨w0, w1, w2, w3⟩

/-- Round key r (R245): round key 0 is the key. -/
def roundKey (key : Block) : Nat → Block
  | 0 => key
  | r + 1 => nextRoundKey (r + 1) (roundKey key r)

/-! ### The ciphers -/

/-- Rounds r down to 1 of the inverse cipher (R250). -/
def invRounds (key : Block) : Nat → Block → Block
  | 0, s => s
  | r + 1, s => invRounds key r (invMixColumns (blockXor (invSubBytes (invShiftRows s)) (roundKey key (r + 1))))

/-- `AES128_InvCipher(K, in)` (R250). -/
def aesInvCipher (key s : Block) : Block :=
  blockXor (invSubBytes (invShiftRows (invRounds key 9 (blockXor s (roundKey key 10))))) (roundKey key 0)

/-- Rounds 1 to r of the forward cipher (R249). -/
def fwdRounds (key : Block) : Nat → Block → Block
  | 0, s => s
  | r + 1, s => blockXor (mixColumns (shiftRows (subBytes (fwdRounds key r s)))) (roundKey key (r + 1))

/-- `AES128_Cipher(K, in)` (R249): no command runs it; the reference encrypt of R222 does. -/
def aesCipher (key s : Block) : Block :=
  blockXor (shiftRows (subBytes (fwdRounds key 9 (blockXor s (roundKey key 0))))) (roundKey key 10)

end Sys2Proof.Machine
end

