-- ==== Sys2Proof/Machine/Ops.lean ====
section
/-! DEFINITION. The operations the meanings share: the byte memory of the buffers (10_state.md R53 to R55), the
registers that hold byte sequences (R41, R42), the command lifecycle (44_control.md R340 to R344) and reset
(70_reset_and_hazards.md R410, R411). The block has no trap entry or return (60_exceptions.md R375, R376): `finish` is
what ends a command, in error or not. -/

namespace Sys2Proof.Machine

/-! ### Memory: cells (window offset, byte) at strictly rising offsets -/

/-- The canonical form of a memory. An offset that is not listed reads as no byte at all, so no cell can repeat that. -/
abbrev Memory.wf (m : List Host.Cell) : Prop := m.Pairwise (fun x y => x.1 < y.1)

/-- The specified byte at an offset, if it has one. -/
def Memory.read : List Host.Cell → Nat → Option Byte
  | [], _ => none
  | (a', b) :: m, a => if a = a' then some b else Memory.read m a

/-- Store one byte. -/
def Memory.write : List Host.Cell → Nat → Byte → List Host.Cell
  | [], a, b => [(a, b)]
  | (a', b') :: m, a, b =>
    if a < a' then (a, b) :: (a', b') :: m
    else if a = a' then (a, b) :: m
    else (a', b') :: Memory.write m a b

/-- Store bytes at consecutive offsets. -/
def Memory.writeBytes : List Host.Cell → Nat → List Byte → List Host.Cell
  | m, _, [] => m
  | m, a, b :: bs => Memory.writeBytes (Memory.write m a b) (a + 1) bs

/-- Make the bytes at offsets `lo` to `hi - 1` unspecified. -/
def Memory.forget (m : List Host.Cell) (lo hi : Nat) : List Host.Cell :=
  m.filter (fun c => !(decide (lo ≤ c.1) && decide (c.1 < hi)))

/-! ### The buffers (R31, R53 to R55) -/

/-- Offset of FB[0] (R53). -/
def frameBase : Nat := 0x100

/-- Offset of PT[0] (R54). -/
def ptBase : Nat := 0x200

/-- Offset of slot 0 (R52, R55). -/
def recBase : Nat := 0x400

/-- First offset after the record table (R55). -/
def recEnd : Nat := 0x2400

/-- Bytes of a record slot (R52). -/
def slotSize : Nat := 64

/-- A byte of FRAME_BUF, PT_BUF or REC_TABLE by its offset: the specified byte, or the free value of the draw it
belongs to (U1, U2). -/
def bufByte (s : State) (a : Nat) : Byte :=
  match Memory.read s.mem a with
  | some b => b
  | none => Config.freeByte (if a < ptBase then s.frameDraw else s.resultDraw) a

/-- FB[i] (R53). -/
def frameByte (s : State) (i : Nat) : Byte := bufByte s (frameBase + i)

/-- PT[i] (R54). -/
def ptByte (s : State) (i : Nat) : Byte := bufByte s (ptBase + i)

/-- `FB[0..FRAME_LEN)`, the operand of a command (R133). -/
def frameBytes (s : State) : List Byte := (List.range s.frameLen.toNat).map (frameByte s)

/-- `PT[0..PT_LEN)`, what the iterator walks (R270). -/
def ptBytes (s : State) : List Byte := (List.range s.ptLen.toNat).map (ptByte s)

/-- `PT[0..len(p)) <- p; PT_LEN <- len(p)`; the bytes of PT_BUF above are unspecified (R39, U2). -/
def writePt (p : List Byte) (s : State) : State :=
  { s with
    mem := Memory.writeBytes (Memory.forget s.mem ptBase (ptBase + Config.pPtMax)) ptBase p
    ptLen := BitVec.ofNat 9 p.length }

/-! ### Registers that hold byte sequences -/

/-- The 16 key bytes K[0..15] (R41). -/
def keyBytes (s : State) : List Byte :=
  wordBytes s.key0 ++ wordBytes s.key1 ++ wordBytes s.key2 ++ wordBytes s.key3

/-- The 16 IV bytes IV[0..15] (R42). -/
def ivBytes (s : State) : List Byte :=
  wordBytes s.iv0 ++ wordBytes s.iv1 ++ wordBytes s.iv2 ++ wordBytes s.iv3

/-- `IV[0..16) <- v` with the packing of R42. -/
def writeIv (v : List Byte) (s : State) : State :=
  { s with
    iv0 := wordOfBytes (byteAt v 0) (byteAt v 1) (byteAt v 2) (byteAt v 3)
    iv1 := wordOfBytes (byteAt v 4) (byteAt v 5) (byteAt v 6) (byteAt v 7)
    iv2 := wordOfBytes (byteAt v 8) (byteAt v 9) (byteAt v 10) (byteAt v 11)
    iv3 := wordOfBytes (byteAt v 12) (byteAt v 13) (byteAt v 14) (byteAt v 15) }

/-! ### Single STATUS fields a command's rule writes -/

/-- `STATUS.SEC_STATUS <- v` (R36). -/
def setSecStatus (v : SecStatus) (s : State) : State := { s with status := { s.status with secStatus := v } }

/-- `STATUS.MARKER <- v` (R35). -/
def setMarker (v : Bool) (s : State) : State := { s with status := { s.status with marker := v } }

/-- `STATUS.REC_STOP <- v` (R282). -/
def setRecStop (v : RecStop) (s : State) : State := { s with status := { s.status with recStop := v } }

/-! ### The command lifecycle (44_control.md) -/

/-- Issue of a command word that then takes `left` bus slots (R340, R131). -/
def issueFor (w : Word) (left : Nat) (s : State) : State :=
  { s with
    phase := .busy w left
    status := { s.status with done := false, lastOp := wordOp w } }

/-- Issue of a command word; the slots it takes are the next of the open latencies (R14, R430; entry 3). -/
def issue (w : Word) (s : State) : State :=
  { issueFor w (s.latencies.headD 0) s with latencies := s.latencies.tail }

/-- What every scope but NONE clears (R343): PT_LEN, REC_COUNT, SEC_STATUS, MARKER and REC_STOP. With both lengths 0
every byte of PT_BUF and REC_TABLE is unspecified (R39, R40, U2). -/
def clearWork (s : State) : State :=
  { s with
    ptLen := 0#9
    recCount := 0#8
    mem := Memory.forget s.mem ptBase recEnd
    status := { s.status with secStatus := .none, marker := false, recStop := .notRun } }

/-- `ClearResults(scope)` (R343). -/
def clearResults (scope : Scope) (s : State) : State :=
  match scope with
  | .none => s
  | .frame => { clearWork s with info := FrameInfo.cleared }
  | .cipher => clearWork s
  | .records => clearWork s

/-- `finish(o, e)` (R344). The bytes that are unspecified after the command read as a fresh draw (U2; entry 5). -/
def finish (o : OutcomeClass) (e : ErrCode) (s : State) : State :=
  { s with
    phase := .idle
    status := { s.status with outcome := o, errCode := e, done := true }
    resultDraw := s.draw
    draw := s.draw + 1 }

/-- `Prologue(scope)` (R342) followed by the rest of the command. -/
def prologue (scope : Scope) (rest : State → State) (s : State) : State :=
  let s := clearResults scope s
  if scope ≠ .none ∧ s.frameLen.toNat > Config.pFrameMax then
    finish .fatal .frameLenRange s
  else
    rest s

/-! ### Reset (R410, R411) -/

/-- Hardware and soft reset of a running block: the reset state, with fresh draws for the unspecified buffers (U1). The
host's own side of the bus is no part of the block and stays (entry 10). -/
def blockReset (s : State) : State :=
  { State.reset with
    hostQueue := s.hostQueue
    resp := s.resp
    latencies := s.latencies
    draw := s.draw + 1
    frameDraw := s.draw
    resultDraw := s.draw }

end Sys2Proof.Machine
end

