-- ==== Sys2Proof/Machine/Flags.lean ====
section
/-! DEFINITION. The numeric codes and words of the flags: STATUS (10_state.md R35), INFO_DLL1 (R46) and the other
register words, the IRQ output (60_exceptions.md R380), and the outcome of a stop reason (43_records.md R294). -/

namespace Sys2Proof.Machine

/-- OUTCOME codes (R371). -/
def outcomeCode : OutcomeClass → BitVec 2
  | .ok => 0#2
  | .degraded => 1#2
  | .fatal => 2#2

/-- ERRCODE codes (R370). -/
def errCodeCode : ErrCode → BitVec 4
  | .none => 0#4
  | .malformedFrame => 1#4
  | .payloadTruncated => 2#4
  | .invalidKeyLength => 3#4
  | .decryptionIntegrity => 4#4
  | .cipherLength => 5#4
  | .noKey => 6#4
  | .recordDecode => 7#4
  | .illegalCommand => 8#4
  | .frameLenRange => 9#4

/-- SEC_STATUS codes (R36). -/
def secStatusCode : SecStatus → BitVec 3
  | .none => 0#3
  | .unencrypted => 1#3
  | .encrypted => 2#3
  | .decrypted => 3#3
  | .undecryptable => 4#3

/-- REC_STOP codes (R282). -/
def recStopCode : RecStop → BitVec 4
  | .notRun => 0#4
  | .exhausted => 1#4
  | .specialStop => 2#4
  | .difeUnterminated => 3#4
  | .vifeUnterminated => 4#4
  | .difeOverflow => 5#4
  | .vifeOverflow => 6#4
  | .vifMissing => 7#4
  | .dataTruncated => 8#4

/-- TPL_KIND codes (R46). -/
def tplKindCode : TplKind → BitVec 2
  | .none => 0#2
  | .long => 1#2
  | .short => 2#2

/-- KIND codes (R58). -/
def kindCode : ValueKind → BitVec 3
  | .none => 0#3
  | .int => 1#3
  | .bcd => 2#3
  | .real => 3#3
  | .date => 4#3
  | .datetime => 5#3
  | .raw => 6#3

/-- STATUS.BUSY (R35, R59). -/
def busy (s : State) : Bool :=
  match s.phase with
  | .idle => false
  | .busy _ _ => true

/-- The STATUS word (R35): bits 31:24 and 19 are reserved. -/
def statusWord (s : State) : Word :=
  let st := s.status
  0#8 ++ st.lastOp ++ 0#1 ++ BitVec.ofBool st.busErr ++ BitVec.ofBool st.wrIgnored ++ BitVec.ofBool st.cmdOverrun
    ++ recStopCode st.recStop ++ BitVec.ofBool st.marker ++ secStatusCode st.secStatus ++ errCodeCode st.errCode
    ++ outcomeCode st.outcome ++ BitVec.ofBool st.done ++ BitVec.ofBool (busy s)

/-- INFO_DLL0 (R44). -/
def infoDll0Word (f : FrameInfo) : Word := f.m ++ f.c ++ f.l

/-- INFO_DLL1 (R46): bits 31:30 are reserved. -/
def infoDll1Word (f : FrameInfo) : Word :=
  0#2 ++ BitVec.ofBool f.encrypted ++ BitVec.ofBool f.tplValid ++ tplKindCode f.tplKind ++ BitVec.ofBool f.ciPresent
    ++ BitVec.ofBool f.infoValid ++ f.ci ++ f.t ++ f.v

/-- TPL_HDR (R48). -/
def tplHdrWord (f : FrameInfo) : Word := f.tplT ++ f.tplV ++ f.tplM

/-- TPL_SEC (R49). -/
def tplSecWord (f : FrameInfo) : Word := f.cfg ++ f.sts ++ f.acc

/-- PAYLOAD (R50). -/
def payloadWord (f : FrameInfo) : Word := 0#7 ++ f.payloadLen ++ 0#7 ++ f.payloadOff

/-- SEC (R51). -/
def secWord (f : FrameInfo) : Word := 0#27 ++ f.secMode

/-- The IRQ output (R380). -/
def irq (s : State) : Bool := s.status.done && s.irqEn

/-- A security mode that means encrypted (R145, R168). -/
def encryptedMode (mode : BitVec 5) : Bool := mode == 5#5 || mode == 7#5

/-- Security mode of a configuration word, bits 12:8 (R145). -/
def cfgSecMode (cfg : BitVec 16) : BitVec 5 := cfg.extractLsb' 8 5

/-- SEC_STATUS after the frame stage (R168). -/
def frameSecStatus (f : FrameInfo) : SecStatus :=
  if f.tplValid then (if f.encrypted then .encrypted else .unencrypted) else .none

/-- The marker test of R210 and R211. -/
def markerOf (p : List Byte) : Bool :=
  decide (2 ≤ p.length) && byteAt p 0 == 0x2F#8 && byteAt p 1 == 0x2F#8

/-- The outcome of a stop reason (R294). NOT_RUN is no stop reason of the iterator; R282 gives it no error. -/
def stopOutcome : RecStop → OutcomeClass × ErrCode
  | .notRun => (.ok, .none)
  | .exhausted => (.ok, .none)
  | .specialStop => (.ok, .none)
  | .difeUnterminated => (.degraded, .recordDecode)
  | .vifeUnterminated => (.degraded, .recordDecode)
  | .difeOverflow => (.degraded, .recordDecode)
  | .vifeOverflow => (.degraded, .recordDecode)
  | .vifMissing => (.degraded, .payloadTruncated)
  | .dataTruncated => (.degraded, .payloadTruncated)

end Sys2Proof.Machine
end

