-- ==== Sys2Proof/Machine/Cipher.lean ====
section
/-! DEFINITION. The cipher layer (41_cipher.md): deriveIV and DERIVE_IV (R200, R201), CBC decryption and pad stripping
(R205, R209), DECRYPT (R210), the cipher stage of DECODE (R216), and the reference encrypt (R222). -/

namespace Sys2Proof.Machine

/-- `deriveIV(m, a, acc, fc)` (R201, R146); the four address bytes are the lanes of the address word (R43, R45). -/
def deriveIv (m : BitVec 16) (a : Word) (acc : Byte) (fc : BitVec 16) : List Byte :=
  [m.extractLsb' 0 8, m.extractLsb' 8 8] ++ wordBytes a ++ [acc, fc.extractLsb' 0 8, fc.extractLsb' 8 8]
    ++ List.replicate 7 0x00#8

/-- DERIVE_IV (R200). -/
def deriveIvCommand (s : State) : State :=
  prologue .none (fun s =>
    finish .ok .none (writeIv (deriveIv s.ivinM s.ivinA s.ivinAcc s.ivinFc) s)) s

/-- DERIVE_IV (R200). -/
def execDeriveIv (s : State) : Host.Outcome State Fault Refusal := .next (deriveIvCommand s)

/-- The AES key K of KEY0 to KEY3 (R41, R241). -/
def keyBlock (s : State) : Block := ⟨colOfWord s.key0, colOfWord s.key1, colOfWord s.key2, colOfWord s.key3⟩

/-- The IV of IV0 to IV3 (R42). -/
def ivBlock (s : State) : Block := ⟨colOfWord s.iv0, colOfWord s.iv1, colOfWord s.iv2, colOfWord s.iv3⟩

/-- The blocks of CBC decryption (R205). -/
def cbcBlocks (key : Block) : Block → List Block → List Block
  | _, [] => []
  | prev, c :: cs => blockXor (aesInvCipher key c) prev :: cbcBlocks key c cs

/-- `CBC_Decrypt(K, IV, C)` (R205), for a length that is a multiple of 16 (R208). -/
def cbcDecrypt (key iv : Block) (c : List Byte) : List Byte := (cbcBlocks key iv (blocksOf c)).flatMap blockBytes

/-- `StripPad(P)` (R209). -/
def stripPad (p : List Byte) : List Byte :=
  match p.getLast? with
  | none => p
  | some k => if k.toNat ≤ 16 then p.take (p.length - k.toNat) else p

/-- `StripPad(CBC_Decrypt(K, IV, C))` under the KEY and IV registers (R210, R216). -/
def decryptBytes (s : State) (c : List Byte) : List Byte := stripPad (cbcDecrypt (keyBlock s) (ivBlock s) c)

/-- DECRYPT (R210). -/
def decryptCommand (s : State) : State :=
  prologue .cipher (fun s =>
    if s.keyLen ≠ 16#8 then finish .fatal .invalidKeyLength s
    else if s.frameLen.toNat % 16 ≠ 0 then finish .fatal .cipherLength s
    else
      let p := decryptBytes s (frameBytes s)
      finish .ok .none (setMarker (markerOf p) (writePt p s))) s

/-- DECRYPT (R210). -/
def execDecrypt (s : State) : Host.Outcome State Fault Refusal := .next (decryptCommand s)

/-- `IvForDecode()` (R206). -/
def ivForDecode (P : Config.Params) (f : FrameInfo) : List Byte :=
  match P.ivFields, f.tplKind with
  | .tplIfLong, .long => deriveIv f.tplM f.tplId f.acc 0#16
  | .tplIfLong, .short => deriveIv f.m f.a f.acc 0#16
  | .tplIfLong, .none => deriveIv f.m f.a f.acc 0#16
  | .dll, _ => deriveIv f.m f.a f.acc 0#16

/-- `CipherStage(C)` (R216): outcome, error code, and the state it leaves. -/
def cipherStage (P : Config.Params) (c : List Byte) (s : State) : OutcomeClass × ErrCode × State :=
  if s.keyLen = 0#8 then
    (.degraded, .noKey, setSecStatus .encrypted s)
  else if s.keyLen ≠ 16#8 then
    (.fatal, .invalidKeyLength, s)
  else
    let s := writeIv (ivForDecode P s.info) s
    if c.length % 16 ≠ 0 then
      (.degraded, .cipherLength, setSecStatus .undecryptable s)
    else
      let p := decryptBytes s c
      let s := setMarker (markerOf p) s
      if markerOf p then
        (.ok, .none, writePt (p.drop 2) (setSecStatus .decrypted s))
      else
        (.degraded, .decryptionIntegrity, setSecStatus .undecryptable s)

/-! ### The reference encrypt, no command of the block (R222, R6) -/

/-- PKCS#7 padding of the reference encrypt (R222): k copies of k, k in 1 to 16. -/
def refPad (x : List Byte) : List Byte :=
  let k := 16 - x.length % 16
  x ++ List.replicate k (BitVec.ofNat 8 k)

/-- The blocks of CBC encryption (R222). -/
def cbcEncryptBlocks (key : Block) : Block → List Block → List Block
  | _, [] => []
  | prev, y :: ys =>
    let c := aesCipher key (blockXor y prev)
    c :: cbcEncryptBlocks key c ys

/-- `RefEncrypt(K, IV, X)` (R222). -/
def refEncrypt (key iv : Block) (x : List Byte) : List Byte :=
  (cbcEncryptBlocks key iv (blocksOf (refPad x))).flatMap blockBytes

end Sys2Proof.Machine
end

