-- ==== Sys2Proof/Machine/Frame.lean ====
section
/-! DEFINITION. The frame decoder (40_frame.md): FrameStage (R160 to R169) and PARSE_FRAME (R170). -/

namespace Sys2Proof.Machine

/-- The DLL header fields of a telegram of at least 10 bytes (R140, R163), over cleared frame results. -/
def dllHeader (F : List Byte) : FrameInfo :=
  { FrameInfo.cleared with
    l := byteAt F 0
    c := byteAt F 1
    m := le16 (byteAt F 2) (byteAt F 3)
    a := wordOfBytes (byteAt F 4) (byteAt F 5) (byteAt F 6) (byteAt F 7)
    v := byteAt F 8
    t := byteAt F 9
    infoValid := true }

/-- TPL_KIND by the CI byte (R165). -/
def tplKindOfCi (ci : Byte) : TplKind :=
  if ci = 0x72#8 then .long else if ci = 0x7A#8 then .short else .none

/-- `need` and `off` of R165, one number: where the payload begins. -/
def payloadOffset : TplKind → Nat
  | .long => 23
  | .short => 15
  | .none => 11

/-- TPL extraction (R142, R143, R167), without the security-mode test. -/
def extractTpl (F : List Byte) (f : FrameInfo) : FrameInfo :=
  match f.tplKind with
  | .long =>
    { f with
      tplId := wordOfBytes (byteAt F 11) (byteAt F 12) (byteAt F 13) (byteAt F 14)
      tplM := le16 (byteAt F 15) (byteAt F 16)
      tplV := byteAt F 17
      tplT := byteAt F 18
      acc := byteAt F 19
      sts := byteAt F 20
      cfg := le16 (byteAt F 21) (byteAt F 22)
      tplValid := true }
  | .short =>
    { f with
      acc := byteAt F 11
      sts := byteAt F 12
      cfg := le16 (byteAt F 13) (byteAt F 14)
      tplValid := true }
  | .none => f

/-- The security-mode test on the frame result registers (R168); SEC_STATUS is `frameSecStatus`. -/
def securityTest (f : FrameInfo) : FrameInfo :=
  if f.tplValid then
    { f with secMode := cfgSecMode f.cfg, encrypted := encryptedMode (cfgSecMode f.cfg) }
  else
    f

/-- FrameStage (R160 to R169) over the telegram F: what it returns, and the frame result registers it leaves when they
were cleared before it (R342). -/
def frameStage (F : List Byte) : FrameVerdict × FrameInfo :=
  let n := F.length
  if n < 10 then
    (.malformed, FrameInfo.cleared)
  else if n = 10 then
    (.ok, { dllHeader F with payloadOff := 10#9, payloadLen := 0#9 })
  else
    let kind := tplKindOfCi (byteAt F 10)
    let off := payloadOffset kind
    let header := { dllHeader F with ci := byteAt F 10, ciPresent := true, tplKind := kind }
    if n < off then
      (.truncated, header)
    else
      (.ok, { securityTest (extractTpl F header) with
                payloadOff := BitVec.ofNat 9 off
                payloadLen := BitVec.ofNat 9 (n - off) })

/-- The frame stage's writes: the frame result registers and SEC_STATUS (R163 to R168). -/
def setInfo (f : FrameInfo) (s : State) : State :=
  setSecStatus (frameSecStatus f) { s with info := f }

/-- `FB[PAYLOAD_OFF..FRAME_LEN)`, the payload (R169). -/
def payloadBytes (s : State) : List Byte := (frameBytes s).drop s.info.payloadOff.toNat

/-- PARSE_FRAME (R170). -/
def parseFrame (s : State) : State :=
  prologue .frame (fun s =>
    match frameStage (frameBytes s) with
    | (.malformed, _) => finish .fatal .malformedFrame s
    | (.truncated, f) => finish .degraded .payloadTruncated (setInfo f s)
    | (.ok, f) =>
      let s := setInfo f s
      finish .ok .none (writePt (payloadBytes s) s)) s

/-- PARSE_FRAME (R170). -/
def execParseFrame (s : State) : Host.Outcome State Fault Refusal := .next (parseFrame s)

end Sys2Proof.Machine
end

