-- ==== Sys2Proof/Machine/Tables.lean ====
section
/-! DEFINITION. The default contents of the field tables (43_records.md R285 to R287) and the build the machine is run
at: every parameter at the spec's default (00_scope.md R8 to R12; entry 7). -/

namespace Sys2Proof.Machine

/-- The default `P_DIF_TABLE` (R285). -/
def defaultDifTable (field : BitVec 4) : Config.DifEntry :=
  match field.toNat with
  | 0x0 => ⟨.nodata, .fixed 0⟩
  | 0x1 => ⟨.int, .fixed 1⟩
  | 0x2 => ⟨.int, .fixed 2⟩
  | 0x3 => ⟨.int, .fixed 3⟩
  | 0x4 => ⟨.int, .fixed 4⟩
  | 0x5 => ⟨.real, .fixed 4⟩
  | 0x6 => ⟨.int, .fixed 6⟩
  | 0x7 => ⟨.int, .fixed 8⟩
  | 0x8 => ⟨.select, .fixed 0⟩
  | 0x9 => ⟨.bcd, .fixed 1⟩
  | 0xA => ⟨.bcd, .fixed 2⟩
  | 0xB => ⟨.bcd, .fixed 3⟩
  | 0xC => ⟨.bcd, .fixed 4⟩
  | 0xD => ⟨.var, .var⟩
  | 0xE => ⟨.bcd, .fixed 6⟩
  | _ => ⟨.special, .fixed 0⟩

/-- The unit codes 5 to 8 of the duration rows (R286, R287): seconds, minutes, hours, days by `nn`. -/
def durationUnit (nn : Nat) : Byte := BitVec.ofNat 8 (5 + nn)

/-- The default `P_VIF_TABLE` (R286) with the unit codes of R287, by `vif[6:0]`; `n` is `vif[2:0]`, `nn` is `vif[1:0]`. -/
def defaultVifTable (index : BitVec 7) : Config.VifEntry :=
  let x := index.toNat
  let n : Int := ((x % 8 : Nat) : Int)
  let nn : Int := ((x % 4 : Nat) : Int)
  if x ≤ 0x07 then ⟨1#8, n - 3, .plain⟩
  else if x ≤ 0x0F then ⟨2#8, n, .plain⟩
  else if x ≤ 0x17 then ⟨3#8, n - 6, .plain⟩
  else if x ≤ 0x1F then ⟨4#8, n - 3, .plain⟩
  else if x ≤ 0x27 then ⟨durationUnit (x % 4), 0, .plain⟩
  else if x ≤ 0x2F then ⟨9#8, n - 3, .plain⟩
  else if x ≤ 0x37 then ⟨10#8, n, .plain⟩
  else if x ≤ 0x3F then ⟨11#8, n - 6, .plain⟩
  else if x ≤ 0x47 then ⟨12#8, n - 7, .plain⟩
  else if x ≤ 0x4F then ⟨13#8, n - 9, .plain⟩
  else if x ≤ 0x57 then ⟨14#8, n - 3, .plain⟩
  else if x ≤ 0x5F then ⟨15#8, nn - 3, .plain⟩
  else if x ≤ 0x63 then ⟨16#8, nn - 3, .plain⟩
  else if x ≤ 0x67 then ⟨15#8, nn - 3, .plain⟩
  else if x ≤ 0x6B then ⟨17#8, nn - 3, .plain⟩
  else if x = 0x6C then ⟨18#8, 0, .date⟩
  else if x = 0x6D then ⟨19#8, 0, .datetime⟩
  else if x = 0x6E then ⟨20#8, 0, .plain⟩
  else if x = 0x6F then ⟨29#8, 0, .plain⟩
  else if x ≤ 0x77 then ⟨durationUnit (x % 4), 0, .plain⟩
  else if x = 0x78 then ⟨21#8, 0, .plain⟩
  else if x = 0x79 then ⟨22#8, 0, .plain⟩
  else if x = 0x7A then ⟨23#8, 0, .plain⟩
  else if x = 0x7B then ⟨24#8, 0, .plain⟩
  else if x = 0x7C then ⟨25#8, 0, .plain⟩
  else if x = 0x7D then ⟨26#8, 0, .plain⟩
  else if x = 0x7E then ⟨27#8, 0, .plain⟩
  else ⟨28#8, 0, .plain⟩

/-- The build `exec` runs at: the default of each parameter (R8 to R12). -/
def defaultParams : Config.Params where
  bcdRadix := .r16
  dateLayout := .doc
  specialDif := .en13757
  ivFields := .dll
  difTable := defaultDifTable
  vifTable := defaultVifTable

end Sys2Proof.Machine
end

