-- ==== Sys2Proof/Machine/Records.lean ====
section
/-! DEFINITION. The record iterator and the value decoders (43_records.md): the DIF/DIFE/VIF/VIFE walk (R271), slot
filling (R288, R289), the record stage (R296) and ITERATE (R295). The read index `i` of R271 is `n` less the bytes not
yet read. -/

namespace Sys2Proof.Machine

/-! ### Value decoding (R300 to R307) -/

/-- The value a record decodes to, and the slot fields that depend on its KIND (R289). -/
structure DecodedValue where
  kind   : ValueKind
  val    : BitVec 64
  vexp10 : Byte
  day    : BitVec 5
  month  : BitVec 4
  year   : BitVec 12
  minute : BitVec 6
  hour   : BitVec 5
deriving DecidableEq, Repr

/-- A value of a kind with every other field 0 (R289, R307). -/
def plainValue (kind : ValueKind) (val : Nat) : DecodedValue where
  kind := kind
  val := BitVec.ofNat 64 val
  vexp10 := 0#8
  day := 0#5
  month := 0#4
  year := 0#12
  minute := 0#6
  hour := 0#5

/-- The lengths an integer may have (R300 line 8, R301). -/
def intLength (len : Nat) : Bool := [1, 2, 3, 4, 6, 8].contains len

/-- KIND by the first matching line of R300. -/
def valueKind (dkind : Config.DKind) (vkind : Config.VKind) (len : Nat) : ValueKind :=
  if len = 0 then .none
  else if dkind = .bcd then .bcd
  else if dkind = .real then (if len = 4 then .real else .raw)
  else if vkind = .date then (if 2 ≤ len then .date else .raw)
  else if vkind = .datetime then (if 4 ≤ len then .datetime else .raw)
  else if intLength len then .int
  else .raw

/-- `P_BCD_RADIX` as a number (R8). -/
def radix : Config.BcdRadix → Nat
  | .r16 => 16
  | .r10 => 10

/-- `Σ_{j<2L} nib_j · radix^j` (R302): the low nibble of a byte comes before its high nibble. -/
def bcdNat (R : Nat) : List Byte → Nat
  | [] => 0
  | b :: bs => b.toNat % 16 + R * (b.toNat / 16) + R * R * bcdNat R bs

/-- `DateG(b0, b1)` (R304): day, month, year. -/
def dateG (layout : Config.DateLayout) (b0 b1 : Byte) : BitVec 5 × BitVec 4 × BitVec 12 :=
  match layout with
  | .doc =>
    (b0.extractLsb' 0 5, b1.extractLsb' 0 4 ||| (b0.extractLsb' 5 3).setWidth 4,
      BitVec.ofNat 12 (2000 + (b1.extractLsb' 4 4).toNat))
  | .en13757 =>
    (b0.extractLsb' 0 5, b1.extractLsb' 0 4,
      BitVec.ofNat 12 (2000 + ((b1.extractLsb' 4 4).toNat * 8 + (b0.extractLsb' 5 3).toNat)))

/-- The decoded value of data bytes (R301 to R307). -/
def decodeValue (P : Config.Params) (dkind : Config.DKind) (vkind : Config.VKind) (data : List Byte) : DecodedValue :=
  match valueKind dkind vkind data.length with
  | .none => plainValue .none 0
  | .int => plainValue .int (leNat data)
  | .bcd => { plainValue .bcd (bcdNat (radix P.bcdRadix) data) with vexp10 := 0xFD#8 }
  | .real => plainValue .real (leNat data)
  | .date =>
    let (d, m, y) := dateG P.dateLayout (byteAt data 0) (byteAt data 1)
    { plainValue .date 0 with day := d, month := m, year := y }
  | .datetime =>
    let (d, m, y) := dateG P.dateLayout (byteAt data 2) (byteAt data 3)
    { plainValue .datetime 0 with
      day := d
      month := m
      year := y
      minute := (byteAt data 0).extractLsb' 0 6
      hour := (byteAt data 1).extractLsb' 0 5 }
  | .raw => plainValue .raw 0

/-- `FillSlot` (R289), the fields of the slot. -/
def fillSlot (P : Config.Params) (start : Nat) (dif : Byte) (difes : List Byte) (vif : Byte) (vifes : List Byte)
    (lvar : Bool) (dataOff : Nat) (data : List Byte) : RecordSlot :=
  let dt := P.difTable (difDataField dif)
  let vt := P.vifTable (vifIndex vif)
  let v := decodeValue P dt.dkind vt.vkind data
  { dif := dif
    vif := vif
    difes := difes
    vifes := vifes
    kind := v.kind
    lvar := lvar
    recOff := BitVec.ofNat 9 start
    dataOff := BitVec.ofNat 9 dataOff
    val := v.val
    dataLen := BitVec.ofNat 8 data.length
    unit := vt.unit
    exp10 := BitVec.ofInt 8 vt.exp10
    vexp10 := v.vexp10
    day := v.day
    month := v.month
    year := v.year
    minute := v.minute
    hour := v.hour
    storage := BitVec.ofNat 41 (storageNumber dif difes)
    tariff := BitVec.ofNat 20 (tariffNumber difes)
    subunit := BitVec.ofNat 10 (subunitNumber difes) }

/-! ### The layout of a slot (R52) -/

/-- The first eleven words of a slot (R52), offsets 0x00 to 0x28. -/
def slotWords (r : RecordSlot) : List Word :=
  [0#1 ++ BitVec.ofBool r.lvar ++ difFunc r.dif ++ 0#1 ++ kindCode r.kind ++ BitVec.ofNat 4 r.vifes.length
      ++ BitVec.ofNat 4 r.difes.length ++ r.vif ++ r.dif,
   0#7 ++ r.dataOff ++ 0#7 ++ r.recOff,
   r.val.extractLsb' 0 32,
   r.val.extractLsb' 32 32,
   r.vexp10 ++ r.exp10 ++ r.unit ++ r.dataLen,
   0#4 ++ r.year ++ 0#4 ++ r.month ++ 0#3 ++ r.day,
   0#19 ++ r.hour ++ 0#2 ++ r.minute,
   r.storage.extractLsb' 0 32,
   0#23 ++ r.storage.extractLsb' 32 9,
   0#12 ++ r.tariff,
   0#22 ++ r.subunit]

/-- The ten DIFE or VIFE bytes of a slot, 0 above the chain (R52). -/
def chainBytes (bs : List Byte) : List Byte := (bs ++ List.replicate 10 0#8).take 10

/-- The 64 bytes of a slot (R52). -/
def slotBytes (r : RecordSlot) : List Byte :=
  (slotWords r).flatMap wordBytes ++ chainBytes r.difes ++ chainBytes r.vifes

/-! ### The walk (R271) -/

/-- A DIFE or VIFE chain (R271 steps 2 and 4, R284): while the extension bit is set, the payload must not end and the
chain must not be at its limit. Answers the chain and the bytes after it, or the stop reason. -/
def readChain (limit : Nat) (unterminated overflow : RecStop) :
    Bool → List Byte → List Byte → Except RecStop (List Byte × List Byte)
  | false, chain, rest => .ok (chain, rest)
  | true, _, [] => .error unterminated
  | true, chain, d :: rest =>
    if chain.length = limit then .error overflow
    else readChain limit unterminated overflow (extBit d) (chain ++ [d]) rest

/-- Step 5 of R271 (R285, R290): the data length, LVAR, and the bytes after a length-prefix byte. -/
def readLength : Config.DataLen → List Byte → Option (Nat × Bool × List Byte)
  | .fixed n, rest => some (n, false, rest)
  | .var, [] => none
  | .var, b :: rest => some (b.toNat, true, rest)

/-- One trip round the loop of R271. -/
inductive RecordRead where
  | stop (r : RecStop)
  | filler (rest : List Byte)
  | record (slot : RecordSlot) (rest : List Byte)
deriving DecidableEq, Repr

/-- Steps 5 to 7 of R271, after the VIF chain: the data and the finished slot. -/
def readData (P : Config.Params) (n start : Nat) (dif : Byte) (difes : List Byte) (vif : Byte) (vifes : List Byte)
    (rest : List Byte) : RecordRead :=
  match readLength (P.difTable (difDataField dif)).len rest with
  | none => .stop .dataTruncated
  | some (len, lvar, rest) =>
    if rest.length < len then .stop .dataTruncated
    else
      .record (fillSlot P start dif difes vif vifes lvar (n - rest.length) (rest.take len)) (rest.drop len)

/-- Steps 3 to 7 of R271, after the DIF chain. -/
def readVif (P : Config.Params) (n start : Nat) (dif : Byte) (difes : List Byte) : List Byte → RecordRead
  | [] => .stop .vifMissing
  | vif :: rest =>
    match readChain Config.pMaxVife .vifeUnterminated .vifeOverflow (extBit vif) [] rest with
    | .error r => .stop r
    | .ok (vifes, rest) => readData P n start dif difes vif vifes rest

/-- One trip of R271 at read index `n - rest.length`, `rest` being the bytes not yet read. -/
def readRecord (P : Config.Params) (n : Nat) : List Byte → RecordRead
  | [] => .stop .exhausted
  | [_] => .stop .exhausted
  | dif :: next :: rest =>
    if P.specialDif = .en13757 ∧ dif = 0x2F#8 then .filler (next :: rest)
    else if P.specialDif = .en13757 ∧ (dif = 0x0F#8 ∨ dif = 0x1F#8) then .stop .specialStop
    else
      match readChain Config.pMaxDife .difeUnterminated .difeOverflow (extBit dif) [] (next :: rest) with
      | .error r => .stop r
      | .ok (difes, after) => readVif P n (n - (rest.length + 2)) dif difes after

/-- The loop of R271 on the bytes not yet read: the slots in order and the stop reason. Every trip reads at least one
byte, so `fuel = rest.length` trips always suffice (R281) and fuel 0 is met with nothing left. -/
def iterateFrom (P : Config.Params) (n : Nat) : Nat → List Byte → List RecordSlot × RecStop
  | 0, _ => ([], .exhausted)
  | fuel + 1, rest =>
    match readRecord P n rest with
    | .stop r => ([], r)
    | .filler rest => iterateFrom P n fuel rest
    | .record slot rest =>
      let (slots, r) := iterateFrom P n fuel rest
      (slot :: slots, r)

/-- `Iterate(p, n)` (R271). -/
def iterate (P : Config.Params) (p : List Byte) : List RecordSlot × RecStop :=
  iterateFrom P p.length p.length p

/-! ### The record stage -/

/-- The iterator's writes: the slots from slot 0, REC_COUNT and REC_STOP (R55, R271). The slots above are unspecified
(R40, U2). -/
def writeRecords (slots : List RecordSlot) (r : RecStop) (s : State) : State :=
  setRecStop r
    { s with
      mem := Memory.writeBytes (Memory.forget s.mem recBase recEnd) recBase (slots.flatMap slotBytes)
      recCount := BitVec.ofNat 8 slots.length }

/-- `IterateStage()` (R296) and the `finish` that follows it in DECODE and ITERATE (R295, R346). -/
def iterateAndFinish (P : Config.Params) (s : State) : State :=
  let (slots, r) := iterate P (ptBytes s)
  let (o, e) := stopOutcome r
  finish o e (writeRecords slots r s)

/-- ITERATE (R295). -/
def iterateCommand (P : Config.Params) (s : State) : State :=
  prologue .records (fun s => iterateAndFinish P (writePt (frameBytes s) s)) s

/-- ITERATE (R295) at the default build. -/
def execIterate (s : State) : Host.Outcome State Fault Refusal := .next (iterateCommand defaultParams s)

end Sys2Proof.Machine
end

