-- ==== Sys2Proof/Machine/Control.lean ====
section
/-! DEFINITION. NOP, DECODE and illegal words (44_control.md R345 to R347). -/

namespace Sys2Proof.Machine

/-- NOP (R345). -/
def execNop (s : State) : Host.Outcome State Fault Refusal := .next (finish .ok .none s)

/-- An illegal command word (R134, R347). -/
def illegalCommand (s : State) : State := finish .fatal .illegalCommand s

/-- DECODE after the cipher stage (R346): the two ways it ends there, or the record stage. -/
def afterCipher (P : Config.Params) : OutcomeClass × ErrCode × State → State
  | (.fatal, e, s) => finish .fatal e (clearResults .frame s)
  | (.degraded, e, s) => finish .degraded e s
  | (.ok, _, s) => iterateAndFinish P s

/-- DECODE after a frame stage that returned OK (R346): the cipher stage when encrypted, then the record stage. -/
def decodePayload (P : Config.Params) (s : State) : State :=
  if s.info.encrypted then
    afterCipher P (cipherStage P (payloadBytes s) s)
  else
    iterateAndFinish P (writePt (payloadBytes s) s)

/-- DECODE (R346). -/
def decodeCommand (P : Config.Params) (s : State) : State :=
  prologue .frame (fun s =>
    match frameStage (frameBytes s) with
    | (.malformed, _) => finish .fatal .malformedFrame s
    | (.truncated, f) => finish .degraded .payloadTruncated (setInfo f s)
    | (.ok, f) => decodePayload P (setInfo f s)) s

/-- DECODE (R346) at the default build. -/
def execDecode (s : State) : Host.Outcome State Fault Refusal := .next (decodeCommand defaultParams s)

end Sys2Proof.Machine
end

