-- ==== Sys2Proof/Machine/Bus.lean ====
section
/-! DEFINITION. The host's accesses (20_memory.md R100 to R106; 70_reset_and_hazards.md R420, R421) and the host statements
of 30_encoding.md R136. -/

namespace Sys2Proof.Machine

/-- The register map (R31) at a word offset. -/
def regAt (off : Nat) : Reg :=
  match off with
  | 0x000 => .id
  | 0x004 => .ctrl
  | 0x008 => .cmd
  | 0x00C => .status
  | 0x010 => .frameLen
  | 0x014 => .keyLen
  | 0x018 => .ptLen
  | 0x01C => .recCount
  | 0x020 => .key0
  | 0x024 => .key1
  | 0x028 => .key2
  | 0x02C => .key3
  | 0x030 => .iv0
  | 0x034 => .iv1
  | 0x038 => .iv2
  | 0x03C => .iv3
  | 0x040 => .ivinM
  | 0x044 => .ivinA
  | 0x048 => .ivinAcc
  | 0x04C => .ivinFc
  | 0x050 => .infoDll0
  | 0x054 => .infoA
  | 0x058 => .infoDll1
  | 0x05C => .tplId
  | 0x060 => .tplHdr
  | 0x064 => .tplSec
  | 0x068 => .payload
  | 0x06C => .sec
  | off =>
    if 0x100 ≤ off ∧ off < 0x200 then .frameBuf
    else if 0x200 ≤ off ∧ off < 0x300 then .ptBuf
    else if 0x400 ≤ off ∧ off < 0x2400 then .recTable
    else .reserved

/-- Four bytes of a buffer as the word at their offset (R101). -/
def bufWord (s : State) (off : Nat) : Word :=
  wordOfBytes (bufByte s off) (bufByte s (off + 1)) (bufByte s (off + 2)) (bufByte s (off + 3))

/-- What a word offset holds (R31 to R55): reserved bits and write-only registers read 0 (R32). -/
def regWord (s : State) (off : Nat) : Word :=
  match regAt off with
  | .id => Config.pId
  | .ctrl => (BitVec.ofBool s.irqEn).setWidth 32
  | .cmd => 0#32
  | .status => statusWord s
  | .frameLen => s.frameLen.setWidth 32
  | .keyLen => s.keyLen.setWidth 32
  | .ptLen => s.ptLen.setWidth 32
  | .recCount => s.recCount.setWidth 32
  | .key0 => 0#32
  | .key1 => 0#32
  | .key2 => 0#32
  | .key3 => 0#32
  | .iv0 => s.iv0
  | .iv1 => s.iv1
  | .iv2 => s.iv2
  | .iv3 => s.iv3
  | .ivinM => s.ivinM.setWidth 32
  | .ivinA => s.ivinA
  | .ivinAcc => s.ivinAcc.setWidth 32
  | .ivinFc => s.ivinFc.setWidth 32
  | .infoDll0 => infoDll0Word s.info
  | .infoA => s.info.a
  | .infoDll1 => infoDll1Word s.info
  | .tplId => s.info.tplId
  | .tplHdr => tplHdrWord s.info
  | .tplSec => tplSecWord s.info
  | .payload => payloadWord s.info
  | .sec => secWord s.info
  | .frameBuf => bufWord s off
  | .ptBuf => bufWord s off
  | .recTable => bufWord s off
  | .reserved => 0#32

/-- The bits of a register that read unspecified while BUSY = 1 (R421, U3). Its reserved bits still read 0 (R32; entry
6). -/
def busyMask : Reg → Word
  | .id => 0#32
  | .ctrl => 0#32
  | .cmd => 0#32
  | .status => 0x0000FFFC#32
  | .frameLen => 0#32
  | .keyLen => 0#32
  | .ptLen => 0x000001FF#32
  | .recCount => 0x000000FF#32
  | .key0 => 0#32
  | .key1 => 0#32
  | .key2 => 0#32
  | .key3 => 0#32
  | .iv0 => 0xFFFFFFFF#32
  | .iv1 => 0xFFFFFFFF#32
  | .iv2 => 0xFFFFFFFF#32
  | .iv3 => 0xFFFFFFFF#32
  | .ivinM => 0#32
  | .ivinA => 0#32
  | .ivinAcc => 0#32
  | .ivinFc => 0#32
  | .infoDll0 => 0xFFFFFFFF#32
  | .infoA => 0xFFFFFFFF#32
  | .infoDll1 => 0x3FFFFFFF#32
  | .tplId => 0xFFFFFFFF#32
  | .tplHdr => 0xFFFFFFFF#32
  | .tplSec => 0xFFFFFFFF#32
  | .payload => 0x01FF01FF#32
  | .sec => 0x0000001F#32
  | .frameBuf => 0#32
  | .ptBuf => 0xFFFFFFFF#32
  | .recTable => 0xFFFFFFFF#32
  | .reserved => 0#32

/-- The inputs a command may read, which ignore writes while BUSY = 1 (R420). CTRL is treated apart, for SRST. -/
def isInput : Reg → Bool
  | .id => false
  | .ctrl => false
  | .cmd => false
  | .status => false
  | .frameLen => true
  | .keyLen => true
  | .ptLen => false
  | .recCount => false
  | .key0 => true
  | .key1 => true
  | .key2 => true
  | .key3 => true
  | .iv0 => true
  | .iv1 => true
  | .iv2 => true
  | .iv3 => true
  | .ivinM => true
  | .ivinA => true
  | .ivinAcc => true
  | .ivinFc => true
  | .infoDll0 => false
  | .infoA => false
  | .infoDll1 => false
  | .tplId => false
  | .tplHdr => false
  | .tplSec => false
  | .payload => false
  | .sec => false
  | .frameBuf => true
  | .ptBuf => false
  | .recTable => false
  | .reserved => false

/-- An access the block takes: 32 bits at a multiple of 4 (R104). -/
def acceptable (size : AccessSize) (off : BitVec 14) : Bool :=
  size == .word && off.toNat % 4 == 0

/-- A refused access (R104): error response, data 0, BUS_ERR set, nothing else changed. -/
def refuseAccess (s : State) : State :=
  { s with
    resp := ⟨0#32, true⟩
    status := { s.status with busErr := true } }

/-- An aligned read (R105, R106, R421): in IDLE the word as it stands, while BUSY with its unspecified bits a fresh free
value (U3). -/
def readWord (off : Nat) (s : State) : State :=
  match s.phase with
  | .idle => { s with resp := ⟨regWord s off, false⟩ }
  | .busy _ _ =>
    let mask := busyMask (regAt off)
    { s with
      resp := ⟨(regWord s off &&& ~~~mask) ||| (Config.freeWord s.draw &&& mask), false⟩
      draw := s.draw + 1 }

/-- A write of STATUS (R35): bits 1, 16, 17 and 18 clear when written with 1, nothing else changes. -/
def writeStatus (v : Word) (s : State) : State :=
  { s with
    status :=
      { s.status with
        done := s.status.done && !v.getLsbD 1
        cmdOverrun := s.status.cmdOverrun && !v.getLsbD 16
        wrIgnored := s.status.wrIgnored && !v.getLsbD 17
        busErr := s.status.busErr && !v.getLsbD 18 } }

/-- A write of an input register or FRAME_BUF word in IDLE (R37, R38, R41 to R43, R53): reserved bits are dropped
(R32). -/
def writeInput (off : Nat) (v : Word) (s : State) : State :=
  match regAt off with
  | .frameLen => { s with frameLen := v.setWidth 9 }
  | .keyLen => { s with keyLen := v.setWidth 8 }
  | .key0 => { s with key0 := v }
  | .key1 => { s with key1 := v }
  | .key2 => { s with key2 := v }
  | .key3 => { s with key3 := v }
  | .iv0 => { s with iv0 := v }
  | .iv1 => { s with iv1 := v }
  | .iv2 => { s with iv2 := v }
  | .iv3 => { s with iv3 := v }
  | .ivinM => { s with ivinM := v.setWidth 16 }
  | .ivinA => { s with ivinA := v }
  | .ivinAcc => { s with ivinAcc := v.setWidth 8 }
  | .ivinFc => { s with ivinFc := v.setWidth 16 }
  | .frameBuf => { s with mem := Memory.writeBytes s.mem off (wordBytes v) }
  | _ => s

/-- `STATUS.WR_IGNORED <- 1` (R420). -/
def setWrIgnored (s : State) : State := { s with status := { s.status with wrIgnored := true } }

/-- `STATUS.CMD_OVERRUN <- 1` (R34). -/
def setCmdOverrun (s : State) : State := { s with status := { s.status with cmdOverrun := true } }

/-- A write of CTRL (R33, R411, R420). -/
def writeCtrl (v : Word) (s : State) : State :=
  if v.getLsbD 1 then blockReset s
  else if busy s then setWrIgnored s
  else { s with irqEn := v.getLsbD 0 }

/-- An aligned write (R32 to R34, R420), without the bus answer. -/
def writeEffect (off : Nat) (v : Word) (s : State) : State :=
  match regAt off with
  | .ctrl => writeCtrl v s
  | .cmd => if busy s then setCmdOverrun s else issue v s
  | .status => writeStatus v s
  | r =>
    if isInput r then
      if busy s then setWrIgnored s else writeInput off v s
    else s

/-- An aligned write with its bus answer. -/
def writeWord (off : Nat) (v : Word) (s : State) : State :=
  { writeEffect off v s with resp := ⟨0#32, false⟩ }

/-- A host read of any size (R104). -/
def hostRead (size : AccessSize) (off : BitVec 14) (s : State) : State :=
  if acceptable size off then readWord off.toNat s else refuseAccess s

/-- A host write of any size (R104). -/
def hostWrite (size : AccessSize) (off : BitVec 14) (v : Word) (s : State) : State :=
  if acceptable size off then writeWord off.toNat v s else refuseAccess s

/-- POLL is over when the STATUS it reads has BUSY = 0 and DONE = 1 (R136, R110). -/
def pollDone (s : State) : Bool := !busy s && s.status.done

/-- The next entry of the host's queue (R109, R136, R410). POLL reads STATUS and stays in the queue until it is over. -/
def hostStep (s : State) : State :=
  match s.hostQueue with
  | [] => s
  | .read size off :: rest => hostRead size off { s with hostQueue := rest }
  | .write size off v :: rest => hostWrite size off v { s with hostQueue := rest }
  | .poll :: rest => hostRead .word 0x00C#14 { s with hostQueue := if pollDone s then rest else s.hostQueue }
  | .hardReset :: rest => blockReset { s with hostQueue := rest }

/-! ### Host statements (R136) -/

/-- `W off, v`. -/
def hostW (off : BitVec 14) (v : Word) : List HostOp := [.write .word off v]

/-- `R off`. -/
def hostR (off : BitVec 14) : List HostOp := [.read .word off]

/-- `CMD m`. -/
def hostCmd (i : Instr) : List HostOp := hostW 0x008#14 (encode i)

/-- `POLL`. -/
def hostPoll : List HostOp := [.poll]

/-- `ACK`. -/
def hostAck : List HostOp := hostW 0x00C#14 0x00000002#32

/-- `FILL off, b0 b1 ...`: one word for each four bytes, missing bytes of the last word 0. DESIGN CHOICE (entry 18): a
FILL that runs past the window ends with the word at 0x3FFC. -/
def hostFill : BitVec 14 → List Byte → List HostOp
  | _, [] => []
  | off, [b0] => hostW off (wordOfBytes b0 0#8 0#8 0#8)
  | off, [b0, b1] => hostW off (wordOfBytes b0 b1 0#8 0#8)
  | off, [b0, b1, b2] => hostW off (wordOfBytes b0 b1 b2 0#8)
  | off, b0 :: b1 :: b2 :: b3 :: bs =>
    hostW off (wordOfBytes b0 b1 b2 b3) ++ if off.toNat + 4 < 0x4000 then hostFill (off + 4#14) bs else []

/-- `KEY k0 ... k15`, for 16 bytes. -/
def hostKey (k : List Byte) : List HostOp := hostFill 0x020#14 k ++ hostW 0x014#14 16#32

/-- `FRAME b0 ... bn-1`. A frame that runs past the window is loaded as `hostFill` says (entry 18). -/
def hostFrame (f : List Byte) : List HostOp := hostFill 0x100#14 f ++ hostW 0x010#14 (BitVec.ofNat 32 f.length)

/-- The offset a platform address selects in the window placed at `base` (R13, R100), if it lies in the window. -/
def windowOffset (base a : Nat) : Option (BitVec 14) :=
  if base ≤ a ∧ a < base + 0x4000 then some (BitVec.ofNat 14 (a - base)) else none

end Sys2Proof.Machine
end

