-- ==== Sys2Proof/Machine/Dispatch.lean ====
section
/-! DEFINITION. The one dispatch of commands to their meanings (30_encoding.md R132). -/

namespace Sys2Proof.Machine

/-- A command's pseudocode on the state its issue left (R340, R341): the completed state. -/
def exec (i : Instr) (s : State) : Host.Outcome State Fault Refusal :=
  match i with
  | .nop => Sys2Proof.Machine.execNop s
  | .decode => Sys2Proof.Machine.execDecode s
  | .parseFrame => Sys2Proof.Machine.execParseFrame s
  | .deriveIv => Sys2Proof.Machine.execDeriveIv s
  | .decrypt => Sys2Proof.Machine.execDecrypt s
  | .iterate => Sys2Proof.Machine.execIterate s

end Sys2Proof.Machine
end

