-- ==== Sys2Proof/Machine/Step.lean ====
section
/-! DEFINITION. One step: a bus slot with the host's next access, or the completion of the running command (44_control.md
R340, R341; entries 1 to 3). -/

namespace Sys2Proof.Machine

/-- Completion of the running command word (R135, R341). -/
def complete (w : Word) (s : State) : Host.Outcome State Fault Refusal :=
  match decode w with
  | .ok i => exec i s
  | .error _ => .next (illegalCommand s)

/-- While BUSY with bus slots left, and in IDLE, the host's next access takes the slot; with none left the command
completes (R341, R430). -/
def step (s : State) : Host.Outcome State Fault Refusal :=
  match s.phase with
  | .idle => .next (hostStep s)
  | .busy w 0 => complete w s
  | .busy w (left + 1) => .next (hostStep { s with phase := .busy w left })

/-- `s` with the word's command issued (R340) and no bus slot left, so that the next step runs it (entry 1). -/
def State.withFetchWord (s : State) (nbits w : Nat) : State := issueFor (tableWord nbits w) 0 s

end Sys2Proof.Machine
end

