-- ==== Sys2Proof/Safety.lean ====
section
/-! DEFINITION. What the claims are stated in: the invariant of the block's state, what a command may leave alone, and
which results two states agree on. -/

namespace Sys2Proof.Machine

/-- The frame result registers agree with each other as R46 to R51 and R164 to R169 say. -/
structure FrameInfoOk (f : FrameInfo) : Prop where
  /-- Nothing is valid without the DLL header (R163). -/
  cleared_of_not_valid : f.infoValid = false → f = FrameInfo.cleared
  /-- CI is 0 when CI_PRESENT = 0 (R46), and there is then no TPL (R164). -/
  ci_of_absent : f.ciPresent = false → f.ci = 0#8 ∧ f.tplKind = .none
  /-- TPL_KIND follows CI (R165). -/
  kind_of_present : f.ciPresent = true → f.tplKind = tplKindOfCi f.ci
  /-- TPL_SEC and SEC are 0 unless TPL_VALID = 1 (R49, R51). -/
  sec_of_not_valid : f.tplValid = false → f.acc = 0#8 ∧ f.sts = 0#8 ∧ f.cfg = 0#16 ∧ f.secMode = 0#5
  /-- TPL_ID and TPL_HDR are 0 unless TPL_KIND = LONG and TPL_VALID = 1 (R47, R48). -/
  id_of_not_long : ¬ (f.tplKind = .long ∧ f.tplValid = true) →
    f.tplId = 0#32 ∧ f.tplM = 0#16 ∧ f.tplV = 0#8 ∧ f.tplT = 0#8
  /-- A valid TPL is long or short (R167). -/
  kind_of_valid : f.tplValid = true → f.tplKind ≠ .none
  /-- SEC_MODE is CFG[12:8] (R51). -/
  mode_of_valid : f.tplValid = true → f.secMode = f.cfg.extractLsb' 8 5
  /-- ENCRYPTED is 1 exactly when TPL_VALID = 1 and SEC_MODE is 5 or 7 (R46). -/
  encrypted_iff : f.encrypted = true ↔ f.tplValid = true ∧ (f.secMode = 5#5 ∨ f.secMode = 7#5)
  /-- The payload lies in the telegram (R50, R169). -/
  payload_fits : f.payloadOff.toNat + f.payloadLen.toNat ≤ 256

/-- A window offset of a specified byte: anywhere in FRAME_BUF, in PT_BUF below PT_LEN, in the table below REC_COUNT
slots (R39, R40, R53 to R55). -/
def Specified (s : State) (a : Nat) : Prop :=
  (0x100 ≤ a ∧ a < 0x200) ∨ (0x200 ≤ a ∧ a < 0x200 + s.ptLen.toNat) ∨
    (0x400 ≤ a ∧ a < 0x400 + 64 * s.recCount.toNat)

/-- The invariant of the block: it holds after reset and every step keeps it. -/
structure BlockInv (s : State) : Prop where
  /-- The memory is in its canonical form. -/
  mem_wf : Memory.wf s.mem
  /-- Only bytes the rules specify are listed. -/
  mem_specified : ∀ a, Memory.read s.mem a ≠ none → Specified s a
  /-- Every byte of PT_BUF below PT_LEN is specified (R39). -/
  pt_listed : ∀ i, i < s.ptLen.toNat → Memory.read s.mem (0x200 + i) ≠ none
  /-- Every byte of a slot below REC_COUNT is specified (R40). -/
  rec_listed : ∀ i, i < 64 * s.recCount.toNat → Memory.read s.mem (0x400 + i) ≠ none
  /-- PT_LEN is at most P_PT_MAX (R7). -/
  ptLen_le : s.ptLen.toNat ≤ 256
  /-- REC_COUNT is at most P_MAX_RECORDS, and every record took two bytes (R40, R280). -/
  recCount_le : 2 * s.recCount.toNat ≤ s.ptLen.toNat
  /-- DONE is 0 while BUSY (R340). -/
  done_of_busy : busy s = true → s.status.done = false
  /-- The frame result registers agree with each other. -/
  info_ok : FrameInfoOk s.info
  /-- SEC_STATUS other than NONE belongs to a valid TPL, and UNENCRYPTED and the others to the ENCRYPTED bit (R36,
  R168). -/
  sec_valid : s.status.secStatus ≠ .none → s.info.tplValid = true
  sec_encrypted : s.status.secStatus ≠ .none →
    (s.status.secStatus = .unencrypted ↔ s.info.encrypted = false)
  /-- DECRYPTED means the marker was seen (R36, R211). -/
  marker_of_decrypted : s.status.secStatus = .decrypted → s.status.marker = true
  /-- The marker is only seen by DECRYPT, which leaves SEC_STATUS NONE, or by a DECODE that decrypted (R210, R216). -/
  sec_of_marker : s.status.marker = true → s.status.secStatus = .none ∨ s.status.secStatus = .decrypted
  /-- A failed decryption leaves no plaintext and no record (R212). -/
  none_of_undecryptable : s.status.secStatus = .undecryptable → s.ptLen = 0#9 ∧ s.recCount = 0#8
  /-- Records come only from an iteration, which has a stop reason (R282). -/
  recStop_of_records : s.recCount ≠ 0#8 → s.status.recStop ≠ .notRun
  /-- The draws in use are used up. -/
  frameDraw_lt : s.frameDraw < s.draw
  resultDraw_lt : s.resultDraw < s.draw

/-- What no command writes: CTRL, the input registers, KEY, FRAME_BUF and its draw, LAST_OP and the sticky bits of
STATUS (R61, R133, R343), and the host's side of the bus. -/
structure SameInputs (s t : State) : Prop where
  irqEn : t.irqEn = s.irqEn
  frameLen : t.frameLen = s.frameLen
  keyLen : t.keyLen = s.keyLen
  key0 : t.key0 = s.key0
  key1 : t.key1 = s.key1
  key2 : t.key2 = s.key2
  key3 : t.key3 = s.key3
  ivinM : t.ivinM = s.ivinM
  ivinA : t.ivinA = s.ivinA
  ivinAcc : t.ivinAcc = s.ivinAcc
  ivinFc : t.ivinFc = s.ivinFc
  frameBuf : ∀ a, 0x100 ≤ a → a < 0x200 → bufByte t a = bufByte s a
  outside : ∀ a, a < 0x200 ∨ 0x2400 ≤ a → Memory.read t.mem a = Memory.read s.mem a
  cmdOverrun : t.status.cmdOverrun = s.status.cmdOverrun
  wrIgnored : t.status.wrIgnored = s.status.wrIgnored
  busErr : t.status.busErr = s.status.busErr
  lastOp : t.status.lastOp = s.status.lastOp
  hostQueue : t.hostQueue = s.hostQueue
  resp : t.resp = s.resp
  latencies : t.latencies = s.latencies
  frameDraw : t.frameDraw = s.frameDraw

/-- The IV registers are the same. -/
def SameIv (s t : State) : Prop := t.iv0 = s.iv0 ∧ t.iv1 = s.iv1 ∧ t.iv2 = s.iv2 ∧ t.iv3 = s.iv3

/-- The plaintext, the record table and the STATUS fields that go with them are the same: PT_LEN, REC_COUNT, every
specified byte of the buffers, SEC_STATUS, MARKER and REC_STOP. -/
structure SameWork (s t : State) : Prop where
  ptLen : t.ptLen = s.ptLen
  recCount : t.recCount = s.recCount
  mem : t.mem = s.mem
  secStatus : t.status.secStatus = s.status.secStatus
  marker : t.status.marker = s.status.marker
  recStop : t.status.recStop = s.status.recStop

/-- What DECODE and ITERATE leave of a payload: PT_LEN, REC_COUNT, every specified byte of PT_BUF and REC_TABLE,
REC_STOP, OUTCOME and ERRCODE (R349). -/
structure SameRecords (s t : State) : Prop where
  ptLen : t.ptLen = s.ptLen
  recCount : t.recCount = s.recCount
  bytes : ∀ a, 0x200 ≤ a → a < 0x2400 → Memory.read t.mem a = Memory.read s.mem a
  recStop : t.status.recStop = s.status.recStop
  outcome : t.status.outcome = s.status.outcome
  errCode : t.status.errCode = s.status.errCode

/-- The bytes of slot `k` that the table holds are those of record `r` (R52, R55). -/
def SlotHolds (s : State) (k : Nat) (r : RecordSlot) : Prop :=
  ∀ j, j < 64 → Memory.read s.mem (0x400 + 64 * k + j) = (slotBytes r)[j]?

/-- The record table holds exactly these slots: REC_COUNT of them, in order from slot 0 (R40, R55). -/
def TableHolds (s : State) (slots : List RecordSlot) : Prop :=
  s.recCount.toNat = slots.length ∧ ∀ k (h : k < slots.length), SlotHolds s k slots[k]

/-- Every specified byte of PT_BUF and REC_TABLE is gone, with PT_LEN and REC_COUNT 0. -/
def NoResults (s : State) : Prop :=
  s.ptLen = 0#9 ∧ s.recCount = 0#8 ∧ ∀ a, 0x200 ≤ a → a < 0x2400 → Memory.read s.mem a = none

/-- A command that finished with an outcome and an error code (R344). -/
def Finished (o : OutcomeClass) (e : ErrCode) (s : State) : Prop :=
  s.phase = .idle ∧ s.status.done = true ∧ s.status.outcome = o ∧ s.status.errCode = e

/-- A DIF or VIF byte and the extension bytes after it (R147): each but the last asks for another. -/
def ChainEnds : Byte → List Byte → Prop
  | b, [] => extBit b = false
  | b, d :: ds => extBit b = true ∧ ChainEnds d ds

/-- A DIF that the build does not treat specially (R283). -/
def OrdinaryDif (P : Config.Params) (dif : Byte) : Prop :=
  P.specialDif = .en13757 → dif ≠ 0x2F#8 ∧ dif ≠ 0x0F#8 ∧ dif ≠ 0x1F#8

/-- Word `w[i]` of the key expansion (R245): column `i mod 4` of round key `i / 4`. -/
def expandedWord (key : Block) (i : Nat) : Col :=
  match i % 4 with
  | 0 => (roundKey key (i / 4)).c0
  | 1 => (roundKey key (i / 4)).c1
  | 2 => (roundKey key (i / 4)).c2
  | _ => (roundKey key (i / 4)).c3

/-- The blocks of a list of bytes are exactly one. -/
def IsBlock (bytes : List Byte) (b : Block) : Prop := bytes = blockBytes b

end Sys2Proof.Machine
end

