-- ==== Sys2Proof/Certificates/Slice0/Obligations.lean ====
section
/-! DEFINITION. The statements for the provers, from the numbered rules of spec/. A clause about a draw counter, the
host's queue, the bus answer's data on a write or a latency is the model's own (entries 1, 3, 4, 5, 9), not a rule's. -/

open Sys2Proof Sys2Proof.Machine

/-! ### Reset and the invariant -/

/-- R63: after reset PHASE is IDLE, IRQ is low, every register reads 0 but ID, the key bytes, which no read shows, are 0
too, and no byte of the buffers is specified. -/
def Obligations.ResetHoldsTheListedValues : Prop :=
  State.reset.phase = .idle ∧ irq State.reset = false ∧
  (∀ off : BitVec 14, off.toNat % 4 = 0 → off.toNat < 0x100 →
    regWord State.reset off.toNat = if off = 0#14 then 0x574D4231#32 else 0#32) ∧
  keyBytes State.reset = List.replicate 16 0x00#8 ∧
  ∀ a, Memory.read State.reset.mem a = none

/-- The reset state meets the invariant. -/
def Obligations.ResetMeetsTheInvariant : Prop := BlockInv State.reset

/-- Every step keeps the invariant: canonical memory, exactly the specified bytes listed, the lengths in range, DONE 0
while BUSY, the frame result registers and the STATUS fields consistent. -/
def Obligations.StepKeepsTheInvariant : Prop := ∀ s t : State, BlockInv s → step s = .next t → BlockInv t

/-! ### The command lifecycle -/

/-- R344, R378: no step faults or is refused, and every command finishes: DONE 1, PHASE IDLE. -/
def Obligations.StepsAnswerAndCommandsFinish : Prop :=
  (∀ s : State, ∃ t, step s = .next t) ∧
  ∀ (i : Instr) (s : State), ∃ t, exec i s = .next t ∧ t.status.done = true ∧ t.phase = .idle

/-- R378, R430: a running command is back in IDLE after at most one step more than the bus slots it takes, whatever
accesses the host makes meanwhile. -/
def Obligations.BusyEndsWithinItsLatency : Prop :=
  ∀ (s : State) (w : Word) (left : Nat), s.phase = .busy w left →
    ∃ k t, k ≤ left + 1 ∧ Sys2Proof.core.run k s = .next t ∧ t.phase = .idle

/-- R340: a CMD write in IDLE sets PHASE, BUSY, DONE and LAST_OP; the command that the word decodes to, or the illegal
word, then runs; a CMD write while BUSY is dropped and sets CMD_OVERRUN. That one step is one access of `hostQueue`, how many
slots the command takes, and the data of a write's answer are the model's choice (entries 1, 3, 9, 14). -/
def Obligations.CmdWriteIssuesTheCommand : Prop :=
  (∀ (s : State) (w : Word) (rest : List HostOp), s.phase = .idle →
    s.hostQueue = .write .word 0x008#14 w :: rest →
    step s = .next
      { s with
        phase := .busy w (s.latencies.headD 0)
        latencies := s.latencies.tail
        status := { s.status with done := false, lastOp := w.extractLsb' 0 4 }
        hostQueue := rest
        resp := ⟨0#32, false⟩ }) ∧
  (∀ (s : State) (w : Word) (i : Instr), s.phase = .busy w 0 → decode w = .ok i → step s = exec i s) ∧
  (∀ (s : State) (w : Word) (e : DecodeError), s.phase = .busy w 0 → decode w = .error e →
    step s = .next (finish .fatal .illegalCommand s)) ∧
  ∀ (s : State) (w v : Word) (left : Nat) (rest : List HostOp), s.phase = .busy w (left + 1) →
    s.hostQueue = .write .word 0x008#14 v :: rest →
    step s = .next
      { s with
        phase := .busy w left
        status := { s.status with cmdOverrun := true }
        hostQueue := rest
        resp := ⟨0#32, false⟩ }

/-- When the command word in the sequencer decodes to a command and no bus slot is left, the step is `exec` of it; an
instruction placed by `withFetchWord` is run by the next step. -/
def Obligations.StepRunsTheDecodedCommand : Prop :=
  (∀ (s : State) (w : Word) (i : Instr), s.phase = .busy w 0 → decode w = .ok i → step s = exec i s) ∧
  ∀ (s : State) (i : Instr), step (s.withFetchWord 32 (encode i).toNat) =
    exec i { s with
      phase := .busy (encode i) 0
      status := { s.status with done := false, lastOp := opOf i } }

/-- R341, R109: what the host does in a bus slot of a running command, short of a reset, does not change what the command
leaves: the registers, the specified bytes and the STATUS fields it writes are those of the command run before the
access. -/
def Obligations.BusyAccessDoesNotChangeTheCommand : Prop :=
  ∀ (s u a b : State) (w : Word) (left : Nat) (i : Instr),
    s.phase = .busy w (left + 1) →
    (∀ rest, s.hostQueue ≠ .hardReset :: rest) →
    (∀ v rest, s.hostQueue = .write .word 0x004#14 v :: rest → v.getLsbD 1 = false) →
    step s = .next u → exec i s = .next a → exec i u = .next b →
    b.info = a.info ∧ SameIv a b ∧ SameWork a b ∧ b.status.outcome = a.status.outcome ∧
      b.status.errCode = a.status.errCode ∧ b.status.lastOp = a.status.lastOp ∧ b.frameLen = a.frameLen ∧
      b.keyLen = a.keyLen ∧ b.irqEn = a.irqEn

/-! ### Encoding -/

/-- R130, R132: the words of the opcode map decode to their commands, and reserved words are refused by name; a word's
bytes, and the host's numbering of its bits, decode as the word does. -/
def Obligations.OpcodeWordsDecode : Prop :=
  decode 0x00000000#32 = .ok .nop ∧ decode 0x00000001#32 = .ok .decode ∧ decode 0x00000002#32 = .ok .parseFrame ∧
  decode 0x00000003#32 = .ok .deriveIv ∧ decode 0x00000004#32 = .ok .decrypt ∧ decode 0x00000005#32 = .ok .iterate ∧
  decode 0x00000006#32 = .error .reservedOp ∧ decode 0xFFFFFFF1#32 = .error .mbzNonzero ∧
  (∀ w : Word, decodeBytes (wordBytes w) = decode w) ∧
  ∀ w : Word, decodeTableWord 32 w.toNat = (decode w).toOption

/-- R135: a word decodes to a command exactly when it is that command's word, and to an error exactly when it is above
5. -/
def Obligations.DecodeIsExactlyTheOpcodeMap : Prop :=
  (∀ (w : Word) (i : Instr), decode w = .ok i ↔ w = encode i) ∧
  ∀ w : Word, (∃ e, decode w = .error e) ↔ 5 < w.toNat

/-! ### NOP, illegal words, DERIVE_IV -/

/-- R345: NOP, the word 0, finishes OK with LAST_OP 0 and leaves every result as it was; after reset STATUS then reads 2. -/
def Obligations.NopFinishesOkAndChangesNoResult : Prop :=
  encode .nop = 0x00000000#32 ∧
  (∀ (s : State) (left : Nat), ∃ t, exec .nop (issueFor (encode .nop) left s) = .next t ∧ Finished .ok .none t ∧
    t.status.lastOp = 0#4 ∧ t.info = s.info ∧ SameIv s t ∧ SameWork s t) ∧
  ∃ t, exec .nop (issueFor (encode .nop) 0 State.reset) = .next t ∧ regWord t 0x00C = 0x00000002#32

/-- R347: an illegal word finishes FATAL with ILLEGAL_COMMAND and its OP in LAST_OP, and leaves every register but STATUS,
every specified byte, SEC_STATUS, MARKER and REC_STOP as they were; after reset the word 0x10 leaves STATUS 0x8A. -/
def Obligations.IllegalWordChangesOnlyStatus : Prop :=
  (∀ (s : State) (w : Word), 5 < w.toNat → ∃ t, step (issueFor w 0 s) = .next t ∧
    Finished .fatal .illegalCommand t ∧ t.status.lastOp = w.extractLsb' 0 4 ∧ t.info = s.info ∧ SameIv s t ∧
    SameWork s t ∧ SameInputs (issueFor w 0 s) t) ∧
  ∃ t, step (issueFor 0x00000010#32 0 State.reset) = .next t ∧ statusWord t = 0x0000008A#32

/-- R200, R201: DERIVE_IV, the word 3, puts the derived IV into IV0 to IV3, finishes OK on every state, and changes no
other register and no specified byte. -/
def Obligations.DeriveIvWritesTheIvLayout : Prop :=
  encode .deriveIv = 0x00000003#32 ∧
  ∀ s : State, ∃ t, exec .deriveIv s = .next t ∧ Finished .ok .none t ∧
    t.iv0 = s.ivinA.extractLsb' 0 16 ++ s.ivinM ∧
    t.iv1 = s.ivinFc.extractLsb' 0 8 ++ s.ivinAcc ++ s.ivinA.extractLsb' 16 16 ∧
    t.iv2 = 0#24 ++ s.ivinFc.extractLsb' 8 8 ∧ t.iv3 = 0#32 ∧
    ivBytes t = [s.ivinM.extractLsb' 0 8, s.ivinM.extractLsb' 8 8, s.ivinA.extractLsb' 0 8, s.ivinA.extractLsb' 8 8,
      s.ivinA.extractLsb' 16 8, s.ivinA.extractLsb' 24 8, s.ivinAcc, s.ivinFc.extractLsb' 0 8,
      s.ivinFc.extractLsb' 8 8] ++ List.replicate 7 0x00#8 ∧
    t.info = s.info ∧ SameWork s t ∧ SameInputs s t

/-- R202: the function deriveIV is injective, so changing any one input byte changes the IV. -/
def Obligations.DeriveIvIsInjective : Prop :=
  ∀ (m m' : BitVec 16) (a a' : Word) (acc acc' : Byte) (fc fc' : BitVec 16),
    deriveIv m a acc fc = deriveIv m' a' acc' fc' → m = m' ∧ a = a' ∧ acc = acc' ∧ fc = fc'

/-- R206: the IV of an encrypted DECODE, from the DLL header, or from the long TPL where the build says so. -/
def Obligations.IvForDecodeByTheBuild : Prop :=
  ∀ (P : Config.Params) (f : FrameInfo),
    (P.ivFields = .tplIfLong → f.tplKind = .long → ivForDecode P f = deriveIv f.tplM f.tplId f.acc 0#16) ∧
    (P.ivFields = .dll ∨ f.tplKind ≠ .long → ivForDecode P f = deriveIv f.m f.a f.acc 0#16) ∧
    defaultParams.ivFields = .dll

/-! ### The frame stage and PARSE_FRAME -/

/-- R162 to R166 and R169: what FrameStage returns, the DLL header, CI, TPL_KIND and the payload boundary, by the length
and the CI byte. -/
def Obligations.FrameStageVerdictAndBoundary : Prop :=
  ∀ F : List Byte,
    let f := (frameStage F).2
    let ci := F.getD 10 0#8
    let need := if ci = 0x72#8 then 23 else if ci = 0x7A#8 then 15 else 11
    (F.length < 10 → frameStage F = (.malformed, FrameInfo.cleared)) ∧
    (10 ≤ F.length → f.l = F.getD 0 0#8 ∧ f.c = F.getD 1 0#8 ∧ f.m = F.getD 3 0#8 ++ F.getD 2 0#8 ∧
      f.a = F.getD 7 0#8 ++ F.getD 6 0#8 ++ F.getD 5 0#8 ++ F.getD 4 0#8 ∧ f.v = F.getD 8 0#8 ∧ f.t = F.getD 9 0#8 ∧
      f.infoValid = true) ∧
    (F.length = 10 → (frameStage F).1 = .ok ∧ f.ciPresent = false ∧ f.ci = 0#8 ∧ f.tplKind = .none ∧
      f.payloadOff = 10#9 ∧ f.payloadLen = 0#9) ∧
    (11 ≤ F.length → f.ciPresent = true ∧ f.ci = ci ∧
      f.tplKind = if ci = 0x72#8 then .long else if ci = 0x7A#8 then .short else .none) ∧
    (11 ≤ F.length → F.length < need → (frameStage F).1 = .truncated ∧ f.tplValid = false ∧ f.payloadOff = 0#9 ∧
      f.payloadLen = 0#9 ∧ f.secMode = 0#5 ∧ frameSecStatus f = .none) ∧
    (11 ≤ F.length → need ≤ F.length → F.length ≤ 256 → (frameStage F).1 = .ok ∧ f.payloadOff.toNat = need ∧
      f.payloadLen.toNat = F.length - need)

/-- R167 and R168: the TPL fields, by TPL_KIND, when FrameStage returns OK; the security-mode test, whatever it
returns. -/
def Obligations.FrameStageTplAndSecurityMode : Prop :=
  ∀ F : List Byte,
    let f := (frameStage F).2
    ((frameStage F).1 = .ok → f.tplKind = .long → f.tplId = F.getD 14 0#8 ++ F.getD 13 0#8 ++ F.getD 12 0#8 ++ F.getD 11 0#8 ∧
      f.tplM = F.getD 16 0#8 ++ F.getD 15 0#8 ∧ f.tplV = F.getD 17 0#8 ∧ f.tplT = F.getD 18 0#8 ∧
      f.acc = F.getD 19 0#8 ∧ f.sts = F.getD 20 0#8 ∧ f.cfg = F.getD 22 0#8 ++ F.getD 21 0#8 ∧ f.tplValid = true) ∧
    ((frameStage F).1 = .ok → f.tplKind = .short → f.tplId = 0#32 ∧ f.tplM = 0#16 ∧ f.tplV = 0#8 ∧ f.tplT = 0#8 ∧ f.acc = F.getD 11 0#8 ∧
      f.sts = F.getD 12 0#8 ∧ f.cfg = F.getD 14 0#8 ++ F.getD 13 0#8 ∧ f.tplValid = true) ∧
    ((frameStage F).1 = .ok → f.tplKind = .none → f.tplId = 0#32 ∧ f.tplM = 0#16 ∧ f.tplV = 0#8 ∧ f.tplT = 0#8 ∧ f.acc = 0#8 ∧ f.sts = 0#8 ∧
      f.cfg = 0#16 ∧ f.tplValid = false) ∧
    (f.tplValid = true → f.secMode = f.cfg.extractLsb' 8 5 ∧
      (f.encrypted = true ↔ f.secMode = 5#5 ∨ f.secMode = 7#5) ∧
      frameSecStatus f = if f.encrypted then .encrypted else .unencrypted) ∧
    (f.tplValid = false → f.secMode = 0#5 ∧ f.encrypted = false ∧ frameSecStatus f = .none)

/-- R170: PARSE_FRAME, the word 2, completes on every state, with its three errors in order and, without one, the frame results and
the raw payload in PT_BUF. -/
def Obligations.ParseFrameLeavesHeaderAndRawPayload : Prop :=
  encode .parseFrame = 0x00000002#32 ∧
  ∀ s : State,
    let F := frameBytes s
    let n := s.frameLen.toNat
    ∃ t, exec .parseFrame s = .next t ∧ t.status.marker = false ∧ t.status.recStop = .notRun ∧ t.recCount = 0#8 ∧
      SameIv s t ∧
      (256 < n → Finished .fatal .frameLenRange t ∧ t.info = FrameInfo.cleared ∧ NoResults t ∧
        t.status.secStatus = .none) ∧
      (n < 10 → Finished .fatal .malformedFrame t ∧ t.info = FrameInfo.cleared ∧ NoResults t ∧
        t.status.secStatus = .none) ∧
      (n ≤ 256 → (frameStage F).1 = .truncated → Finished .degraded .payloadTruncated t ∧
        t.info = (frameStage F).2 ∧ NoResults t ∧ t.status.secStatus = .none) ∧
      (n ≤ 256 → (frameStage F).1 = .ok → Finished .ok .none t ∧ t.info = (frameStage F).2 ∧
        t.status.secStatus = frameSecStatus t.info ∧ t.ptLen = t.info.payloadLen ∧
        ptBytes t = F.drop t.info.payloadOff.toNat)

/-! ### The cipher -/

/-- R243: the table S is the affine map of the multiplicative inverse, with `0^-1 = 0`. -/
def Obligations.SboxIsTheAffineInverse : Prop :=
  ∀ x : Byte, ∃ b : Byte, (x = 0x00#8 → b = 0x00#8) ∧ (x ≠ 0x00#8 → gmul x b = 0x01#8) ∧
    sbox x = b ^^^ b.rotateLeft 1 ^^^ b.rotateLeft 2 ^^^ b.rotateLeft 3 ^^^ b.rotateLeft 4 ^^^ 0x63#8

/-- R245: the key expansion word by word. -/
def Obligations.KeyExpansionWordByWord : Prop :=
  ∀ (key : Block) (i : Nat),
    (i = 0 → expandedWord key i = key.c0) ∧ (i = 1 → expandedWord key i = key.c1) ∧
    (i = 2 → expandedWord key i = key.c2) ∧ (i = 3 → expandedWord key i = key.c3) ∧
    (4 ≤ i → i < 44 → i % 4 = 0 →
      let t := expandedWord key (i - 1)
      let r := [0x01#8, 0x02#8, 0x04#8, 0x08#8, 0x10#8, 0x20#8, 0x40#8, 0x80#8, 0x1B#8, 0x36#8].getD (i / 4 - 1) 0#8
      expandedWord key i = colXor (expandedWord key (i - 4)) ⟨sbox t.b1 ^^^ r, sbox t.b2, sbox t.b3, sbox t.b0⟩) ∧
    (4 ≤ i → i < 44 → i % 4 ≠ 0 → expandedWord key i = colXor (expandedWord key (i - 4)) (expandedWord key (i - 1)))

/-- R250: the inverse cipher undoes the forward cipher under every key. -/
def Obligations.InverseCipherInvertsCipher : Prop :=
  ∀ key x : Block, aesInvCipher key (aesCipher key x) = x

/-- R205: CBC decryption block by block. -/
def Obligations.CbcDecryptionBlockByBlock : Prop :=
  ∀ (key iv : Block) (cs : List Block),
    let P := blocksOf (cbcDecrypt key iv (cs.flatMap blockBytes))
    (cbcDecrypt key iv (cs.flatMap blockBytes)).length = 16 * cs.length ∧ P.length = cs.length ∧
    ∀ j (h : j < cs.length),
      P[j]? = some (blockXor (aesInvCipher key cs[j]) (if j = 0 then iv else cs.getD (j - 1) iv))

/-- R209: StripPad looks at the last byte alone. -/
def Obligations.StripPadByTheLastByte : Prop :=
  stripPad [] = [] ∧
  ∀ (p : List Byte) (k : Byte),
    (k.toNat ≤ 16 → stripPad (p ++ [k]) = (p ++ [k]).take (p.length + 1 - k.toNat)) ∧
    (16 < k.toNat → stripPad (p ++ [k]) = p ++ [k])

/-- R220: decryption undoes the reference encrypt, for every key, IV and byte sequence. -/
def Obligations.DecryptUndoesReferenceEncrypt : Prop :=
  ∀ (key iv : Block) (x : List Byte), stripPad (cbcDecrypt key iv (refEncrypt key iv x)) = x

/-- R210: DECRYPT, the word 4, completes on every state, with its three errors in order and, without one, the stripped plaintext in
PT_BUF and the marker reported. -/
def Obligations.DecryptLeavesTheStrippedPlaintext : Prop :=
  encode .decrypt = 0x00000004#32 ∧
  ∀ s : State,
    let F := frameBytes s
    let n := s.frameLen.toNat
    let P := stripPad (cbcDecrypt (keyBlock s) (ivBlock s) F)
    ∃ t, exec .decrypt s = .next t ∧ t.status.secStatus = .none ∧ t.status.recStop = .notRun ∧ t.recCount = 0#8 ∧
      SameIv s t ∧ t.info = s.info ∧
      (256 < n → Finished .fatal .frameLenRange t ∧ NoResults t ∧ t.status.marker = false) ∧
      (n ≤ 256 → s.keyLen ≠ 16#8 → Finished .fatal .invalidKeyLength t ∧ NoResults t ∧ t.status.marker = false) ∧
      (n ≤ 256 → s.keyLen = 16#8 → n % 16 ≠ 0 → Finished .fatal .cipherLength t ∧ NoResults t ∧
        t.status.marker = false) ∧
      (n ≤ 256 → s.keyLen = 16#8 → n % 16 = 0 → Finished .ok .none t ∧ t.ptLen.toNat = P.length ∧ ptBytes t = P ∧
        (t.status.marker = true ↔ ∃ rest, P = 0x2F#8 :: 0x2F#8 :: rest))

/-! ### The record iterator -/

/-- R295: ITERATE, the word 5, completes on every state: the telegram bytes become the plaintext, and the table, REC_COUNT, REC_STOP
and the outcome are the iterator's. -/
def Obligations.IterateFillsTheRecordTable : Prop :=
  encode .iterate = 0x00000005#32 ∧
  ∀ s : State,
    let F := frameBytes s
    let n := s.frameLen.toNat
    let it := iterate defaultParams F
    ∃ t, exec .iterate s = .next t ∧ t.status.secStatus = .none ∧ t.status.marker = false ∧ t.info = s.info ∧
      SameIv s t ∧
      (256 < n → Finished .fatal .frameLenRange t ∧ NoResults t ∧ t.status.recStop = .notRun) ∧
      (n ≤ 256 → t.ptLen = s.frameLen ∧ ptBytes t = F ∧ TableHolds t it.1 ∧ t.status.recStop = it.2 ∧
        Finished (stopOutcome it.2).1 (stopOutcome it.2).2 t)

/-- R294: the outcome and error code of each stop reason; the records before the stop are kept in every case. -/
def Obligations.StopReasonGivesTheOutcome : Prop :=
  stopOutcome .exhausted = (.ok, .none) ∧ stopOutcome .specialStop = (.ok, .none) ∧
  stopOutcome .vifMissing = (.degraded, .payloadTruncated) ∧
  stopOutcome .dataTruncated = (.degraded, .payloadTruncated) ∧
  stopOutcome .difeUnterminated = (.degraded, .recordDecode) ∧
  stopOutcome .vifeUnterminated = (.degraded, .recordDecode) ∧ stopOutcome .difeOverflow = (.degraded, .recordDecode) ∧
  stopOutcome .vifeOverflow = (.degraded, .recordDecode) ∧
  ∀ s t : State, s.frameLen.toNat ≤ 256 → exec .iterate s = .next t →
    TableHolds t (iterate defaultParams (frameBytes s)).1 ∧
    (t.status.outcome, t.status.errCode) = stopOutcome t.status.recStop

/-- R280, R281: at most one record for every two bytes; each record lies in the payload, its data after its DIF and VIF,
and starts where the ones before it have ended. -/
def Obligations.IteratorStaysInThePayload : Prop :=
  ∀ (P : Config.Params) (p : List Byte), ParamsWellFormed P = true → p.length ≤ 256 →
    let slots := (iterate P p).1
    2 * slots.length ≤ p.length ∧
    (∀ r ∈ slots, r.recOff.toNat + 2 ≤ r.dataOff.toNat ∧ r.dataOff.toNat + r.dataLen.toNat ≤ p.length) ∧
    slots.Pairwise (fun r r' => r.dataOff.toNat + r.dataLen.toNat ≤ r'.recOff.toNat)

/-- R272, R283: one trip of the loop at the end of the payload, at a filler byte and at a DIF that stops the iteration; a
payload of filler alone; and the build that treats no DIF specially. -/
def Obligations.IteratorSkipsFillerAndStops : Prop :=
  (∀ (P : Config.Params) (n : Nat) (b : Byte), readRecord P n [] = .stop .exhausted ∧
    readRecord P n [b] = .stop .exhausted) ∧
  stopOutcome .exhausted = (.ok, .none) ∧ defaultParams.specialDif = .en13757 ∧
  (∀ (P : Config.Params) (n : Nat) (next : Byte) (rest : List Byte), P.specialDif = .en13757 →
    readRecord P n (0x2F#8 :: next :: rest) = .filler (next :: rest) ∧
    readRecord P n (0x0F#8 :: next :: rest) = .stop .specialStop ∧
    readRecord P n (0x1F#8 :: next :: rest) = .stop .specialStop) ∧
  (∀ (P : Config.Params) (p : List Byte), P.specialDif = .en13757 → (∀ b ∈ p, b = 0x2F#8) →
    iterate P p = ([], .exhausted)) ∧
  ∀ (P : Config.Params) (n : Nat) (dif vif : Byte) (vifes rest : List Byte), P.specialDif = .uniform →
    P.difTable = defaultDifTable → dif ∈ [0x0F#8, 0x1F#8, 0x2F#8] → ChainEnds vif vifes → vifes.length ≤ 10 →
    ∃ slot, readRecord P n (dif :: vif :: (vifes ++ rest)) = .record slot rest ∧ slot.dif = dif ∧ slot.vif = vif ∧
      slot.vifes = vifes ∧ slot.kind = .none ∧ slot.dataLen = 0#8

/-- R284, R291: a chain that the payload's end cuts, or that is longer than 10, and data that is cut, stop the iteration,
whatever record they come in. -/
def Obligations.BrokenRecordsStopTheIterator : Prop :=
  ∀ (P : Config.Params) (n : Nat) (dif vif : Byte) (difes vifes : List Byte), OrdinaryDif P dif →
    (extBit dif = true → (∀ d ∈ difes, extBit d = true) → difes ≠ [] → difes.length ≤ 10 →
      readRecord P n (dif :: difes) = .stop .difeUnterminated) ∧
    (extBit dif = true → (∀ d ∈ difes, extBit d = true) → difes.length = 10 → ∀ (x : Byte) (rest : List Byte),
      readRecord P n (dif :: (difes ++ x :: rest)) = .stop .difeOverflow) ∧
    (ChainEnds dif difes → difes ≠ [] → difes.length ≤ 10 → readRecord P n (dif :: difes) = .stop .vifMissing) ∧
    (ChainEnds dif difes → difes.length ≤ 10 → extBit vif = true → (∀ e ∈ vifes, extBit e = true) →
      vifes.length ≤ 10 → readRecord P n (dif :: (difes ++ vif :: vifes)) = .stop .vifeUnterminated) ∧
    (ChainEnds dif difes → difes.length ≤ 10 → extBit vif = true → (∀ e ∈ vifes, extBit e = true) →
      vifes.length = 10 → ∀ (x : Byte) (rest : List Byte),
      readRecord P n (dif :: (difes ++ vif :: (vifes ++ x :: rest))) = .stop .vifeOverflow) ∧
    (ChainEnds dif difes → difes.length ≤ 10 → ChainEnds vif vifes → vifes.length ≤ 10 →
      (∀ (len : Nat) (data : List Byte), (P.difTable (dif.extractLsb' 0 4)).len = .fixed len → data.length < len →
        readRecord P n (dif :: (difes ++ vif :: (vifes ++ data))) = .stop .dataTruncated) ∧
      ((P.difTable (dif.extractLsb' 0 4)).len = .var →
        readRecord P n (dif :: (difes ++ vif :: vifes)) = .stop .dataTruncated ∧
        ∀ (b : Byte) (data : List Byte), data.length < b.toNat →
          readRecord P n (dif :: (difes ++ vif :: (vifes ++ b :: data))) = .stop .dataTruncated))

/-- R271, R289, R290: a whole record, of a fixed or a prefixed length, is read as its slot, at the index of its DIF; and the
walk over the bytes that are left ends at a stop, goes on after a filler byte, and goes on after a record with its slot in
front, to the stop reason of what follows. -/
def Obligations.WholeRecordIsReadAsItsSlot : Prop :=
  (∀ (P : Config.Params) (n : Nat) (dif vif : Byte) (difes vifes data rest : List Byte), OrdinaryDif P dif →
    ChainEnds dif difes → difes.length ≤ 10 → ChainEnds vif vifes → vifes.length ≤ 10 →
    ((P.difTable (dif.extractLsb' 0 4)).len = .fixed data.length →
      let p := dif :: (difes ++ vif :: (vifes ++ (data ++ rest)))
      readRecord P n p =
        .record (fillSlot P (n - p.length) dif difes vif vifes false (n - (data ++ rest).length) data) rest) ∧
    ∀ b : Byte, (P.difTable (dif.extractLsb' 0 4)).len = .var → b.toNat = data.length →
      let p := dif :: (difes ++ vif :: (vifes ++ b :: (data ++ rest)))
      readRecord P n p =
        .record (fillSlot P (n - p.length) dif difes vif vifes true (n - (data ++ rest).length) data) rest) ∧
  (∀ (P : Config.Params) (p : List Byte), iterate P p = iterateFrom P p.length p.length p) ∧
  ∀ (P : Config.Params) (n : Nat) (p : List Byte),
    (∀ r, readRecord P n p = .stop r → iterateFrom P n p.length p = ([], r)) ∧
    (∀ p', readRecord P n p = .filler p' → iterateFrom P n p.length p = iterateFrom P n p'.length p') ∧
    ∀ slot p', readRecord P n p = .record slot p' →
      iterateFrom P n p.length p =
        (slot :: (iterateFrom P n p'.length p').1, (iterateFrom P n p'.length p').2)

/-- R300: KIND by the first matching line. -/
def Obligations.ValueKindByTheFirstMatchingLine : Prop :=
  ∀ (d : Config.DKind) (v : Config.VKind) (len : Nat),
    (len = 0 → valueKind d v len = .none) ∧
    (len ≠ 0 → d = .bcd → valueKind d v len = .bcd) ∧
    (len ≠ 0 → d = .real → valueKind d v len = if len = 4 then .real else .raw) ∧
    (len ≠ 0 → d ≠ .bcd → d ≠ .real → v = .date → valueKind d v len = if 2 ≤ len then .date else .raw) ∧
    (len ≠ 0 → d ≠ .bcd → d ≠ .real → v = .datetime → valueKind d v len = if 4 ≤ len then .datetime else .raw) ∧
    (d ≠ .bcd → d ≠ .real → v = .plain → len ∈ [1, 2, 3, 4, 6, 8] → valueKind d v len = .int) ∧
    (len ≠ 0 → d ≠ .bcd → d ≠ .real → v = .plain → len ∉ [1, 2, 3, 4, 6, 8] → valueKind d v len = .raw)

/-- R301, R303, R305, R306, R307: the value of each kind but BCD, in the fields of the slot. -/
def Obligations.DecodedValueByKind : Prop :=
  ∀ (P : Config.Params) (d : Config.DKind) (v : Config.VKind) (b : List Byte),
    let x := decodeValue P d v b
    let k := valueKind d v b.length
    x.kind = k ∧
    (k ≠ .bcd → x.vexp10 = 0#8) ∧
    (k = .int → x.val.toNat = leNat b) ∧
    (k = .real → x.val.toNat = leNat b ∧ x.val.toNat < 2 ^ 32) ∧
    (k = .date → (x.day, x.month, x.year) = dateG P.dateLayout (b.getD 0 0#8) (b.getD 1 0#8) ∧ x.val = 0#64 ∧
      x.minute = 0#6 ∧ x.hour = 0#5) ∧
    (k = .datetime → x.minute.toNat = (b.getD 0 0#8).toNat % 64 ∧ x.hour.toNat = (b.getD 1 0#8).toNat % 32 ∧
      (x.day, x.month, x.year) = dateG P.dateLayout (b.getD 2 0#8) (b.getD 3 0#8) ∧ x.val = 0#64) ∧
    (k = .none ∨ k = .raw → x.val = 0#64) ∧
    (k ≠ .date → k ≠ .datetime → x.day = 0#5 ∧ x.month = 0#4 ∧ x.year = 0#12 ∧ x.minute = 0#6 ∧ x.hour = 0#5)

/-- R302: a BCD value is the sum of its nibbles by the radix, with decimal exponent -3; with radix 16 it is the
little-endian value of the bytes. -/
def Obligations.BcdValueIsTheNibbleSum : Prop :=
  ∀ (P : Config.Params) (v : Config.VKind) (b : List Byte), b ≠ [] → b.length ≤ 8 →
    let x := decodeValue P .bcd v b
    x.kind = .bcd ∧ x.vexp10.toInt = -3 ∧
    x.val.toNat = ∑ j ∈ Finset.range (2 * b.length),
      ((b.getD (j / 2) 0#8).toNat / 16 ^ (j % 2) % 16) * (radix P.bcdRadix) ^ j ∧
    (P.bcdRadix = .r16 → x.val.toNat = leNat b) ∧ (P.bcdRadix = .r10 → radix P.bcdRadix = 10) ∧
    defaultParams.bcdRadix = .r16

/-- R304: the date fields under both layouts. -/
def Obligations.DateFieldsByLayout : Prop :=
  ∀ b0 b1 : Byte,
    (∀ d m y, dateG .doc b0 b1 = (d, m, y) → d.toNat = b0.toNat % 32 ∧
      m.toNat = (b1.toNat % 16) ||| (b0.toNat / 32) ∧ y.toNat = 2000 + b1.toNat / 16) ∧
    ∀ d m y, dateG .en13757 b0 b1 = (d, m, y) → d.toNat = b0.toNat % 32 ∧ m.toNat = b1.toNat % 16 ∧
      y.toNat = 2000 + (b1.toNat / 16 * 8 + b0.toNat / 32)

/-- R288, R289: what FillSlot gives every field of a slot with at most 10 DIFEs: FUNC, storage, tariff and subunit are
the sums over the chain, and the value fields are those of the decoded value, 0 where its kind has none. -/
def Obligations.FillSlotFields : Prop :=
  ∀ (P : Config.Params) (start off : Nat) (dif vif : Byte) (difes vifes data : List Byte) (lvar : Bool),
    difes.length ≤ 10 → start < 512 → off < 512 → data.length < 256 →
    let r := fillSlot P start dif difes vif vifes lvar off data
    let entry := P.vifTable (vif.extractLsb' 0 7)
    let x := decodeValue P (P.difTable (dif.extractLsb' 0 4)).dkind entry.vkind data
    (difFunc r.dif).toNat = dif.toNat / 16 % 4 ∧
    r.storage.toNat = dif.toNat / 64 % 2 +
      ∑ j ∈ Finset.range difes.length, ((difes.getD j 0#8).toNat % 16) * 2 ^ (1 + 4 * j) ∧
    r.tariff.toNat = ∑ j ∈ Finset.range difes.length, ((difes.getD j 0#8).toNat / 16 % 4) * 2 ^ (2 * j) ∧
    r.subunit.toNat = ∑ j ∈ Finset.range difes.length, ((difes.getD j 0#8).toNat / 64 % 2) * 2 ^ j ∧
    r.dif = dif ∧ r.vif = vif ∧ r.difes = difes ∧ r.vifes = vifes ∧ r.lvar = lvar ∧
    r.recOff.toNat = start ∧ r.dataOff.toNat = off ∧ r.dataLen.toNat = data.length ∧
    r.unit = entry.unit ∧ r.exp10 = BitVec.ofInt 8 entry.exp10 ∧
    r.kind = valueKind (P.difTable (dif.extractLsb' 0 4)).dkind entry.vkind data.length ∧
    r.val = x.val ∧ r.vexp10 = (if r.kind = .bcd then 0xFD#8 else 0x00#8) ∧
    (r.day, r.month, r.year, r.minute, r.hour) = (x.day, x.month, x.year, x.minute, x.hour) ∧
    (r.kind ≠ .int → r.kind ≠ .bcd → r.kind ≠ .real → r.val = 0#64) ∧
    (r.kind ≠ .datetime → r.minute = 0#6 ∧ r.hour = 0#5) ∧
    (r.kind ≠ .date → r.kind ≠ .datetime → r.day = 0#5 ∧ r.month = 0#4 ∧ r.year = 0#12)

/-- R52, R58: every field of a slot at its bytes, every other bit 0, slot k of a table at its 64 offsets, the fields that a
record's kind has no value for 0 in every slot that the iterator gives, and the KIND codes. -/
def Obligations.SlotBytesHoldTheFields : Prop :=
  (kindCode .none = 0#3 ∧ kindCode .int = 1#3 ∧ kindCode .bcd = 2#3 ∧ kindCode .real = 3#3 ∧ kindCode .date = 4#3 ∧
    kindCode .datetime = 5#3 ∧ kindCode .raw = 6#3 ∧ ∀ k, kindCode k ≠ 7#3) ∧
  (∀ (s : State) (slots : List RecordSlot), TableHolds s slots → ∀ k j (h : k < slots.length), j < 64 →
    some (bufByte s (0x400 + 64 * k + j)) = (slotBytes slots[k])[j]?) ∧
  (∀ (P : Config.Params) (p : List Byte), ∀ r ∈ (iterate P p).1, r.difes.length ≤ 10 ∧ r.vifes.length ≤ 10 ∧
    (r.kind ≠ .int → r.kind ≠ .bcd → r.kind ≠ .real → r.val = 0#64) ∧ (r.kind ≠ .bcd → r.vexp10 = 0#8) ∧
    (r.kind ≠ .datetime → r.minute = 0#6 ∧ r.hour = 0#5) ∧
    (r.kind ≠ .date → r.kind ≠ .datetime → r.day = 0#5 ∧ r.month = 0#4 ∧ r.year = 0#12)) ∧
  ∀ r : RecordSlot, r.difes.length ≤ 10 → r.vifes.length ≤ 10 →
    let bs := slotBytes r
    let B := fun (i : Nat) => (bs.getD i 0#8).toNat
    bs.length = 64 ∧ B 0 = r.dif.toNat ∧ B 1 = r.vif.toNat ∧ B 2 = r.difes.length + 16 * r.vifes.length ∧
    B 3 = (kindCode r.kind).toNat + 16 * (r.dif.toNat / 16 % 4) + 64 * r.lvar.toNat ∧
    leNat ((bs.drop 0x04).take 2) = r.recOff.toNat ∧ leNat ((bs.drop 0x06).take 2) = r.dataOff.toNat ∧
    leNat ((bs.drop 0x08).take 8) = r.val.toNat ∧ B 0x10 = r.dataLen.toNat ∧ B 0x11 = r.unit.toNat ∧
    B 0x12 = r.exp10.toNat ∧ B 0x13 = r.vexp10.toNat ∧ B 0x14 = r.day.toNat ∧ B 0x15 = r.month.toNat ∧
    leNat ((bs.drop 0x16).take 2) = r.year.toNat ∧ B 0x18 = r.minute.toNat ∧ B 0x19 = r.hour.toNat ∧
    leNat ((bs.drop 0x1A).take 2) = 0 ∧ leNat ((bs.drop 0x1C).take 8) = r.storage.toNat ∧
    leNat ((bs.drop 0x24).take 4) = r.tariff.toNat ∧ leNat ((bs.drop 0x28).take 4) = r.subunit.toNat ∧
    ∀ i, i < 10 → bs.getD (0x2C + i) 0#8 = r.difes.getD i 0#8 ∧ bs.getD (0x36 + i) 0#8 = r.vifes.getD i 0#8

/-- R285 to R287, R317: the rows of the default DIF and VIF tables, with `n` bits 2:0 and `nn` bits 1:0 of the VIF; the
tables meet the conditions on tables; the unit codes are 1 to 29 and the exponents -9 to 7. -/
def Obligations.DefaultTablesHoldTheirRows : Prop :=
  (defaultParams.difTable = defaultDifTable ∧ defaultParams.vifTable = defaultVifTable) ∧
  (defaultDifTable 0x0#4 = ⟨.nodata, .fixed 0⟩ ∧ defaultDifTable 0x1#4 = ⟨.int, .fixed 1⟩ ∧
    defaultDifTable 0x2#4 = ⟨.int, .fixed 2⟩ ∧ defaultDifTable 0x3#4 = ⟨.int, .fixed 3⟩ ∧
    defaultDifTable 0x4#4 = ⟨.int, .fixed 4⟩ ∧ defaultDifTable 0x5#4 = ⟨.real, .fixed 4⟩ ∧
    defaultDifTable 0x6#4 = ⟨.int, .fixed 6⟩ ∧ defaultDifTable 0x7#4 = ⟨.int, .fixed 8⟩ ∧
    defaultDifTable 0x8#4 = ⟨.select, .fixed 0⟩ ∧ defaultDifTable 0x9#4 = ⟨.bcd, .fixed 1⟩ ∧
    defaultDifTable 0xA#4 = ⟨.bcd, .fixed 2⟩ ∧ defaultDifTable 0xB#4 = ⟨.bcd, .fixed 3⟩ ∧
    defaultDifTable 0xC#4 = ⟨.bcd, .fixed 4⟩ ∧ defaultDifTable 0xD#4 = ⟨.var, .var⟩ ∧
    defaultDifTable 0xE#4 = ⟨.bcd, .fixed 6⟩ ∧ defaultDifTable 0xF#4 = ⟨.special, .fixed 0⟩) ∧
  (∀ n : Nat, n < 8 →
    defaultVifTable (BitVec.ofNat 7 (0x00 + n)) = ⟨1#8, (n : Int) - 3, .plain⟩ ∧
    defaultVifTable (BitVec.ofNat 7 (0x08 + n)) = ⟨2#8, n, .plain⟩ ∧
    defaultVifTable (BitVec.ofNat 7 (0x10 + n)) = ⟨3#8, (n : Int) - 6, .plain⟩ ∧
    defaultVifTable (BitVec.ofNat 7 (0x18 + n)) = ⟨4#8, (n : Int) - 3, .plain⟩ ∧
    defaultVifTable (BitVec.ofNat 7 (0x28 + n)) = ⟨9#8, (n : Int) - 3, .plain⟩ ∧
    defaultVifTable (BitVec.ofNat 7 (0x30 + n)) = ⟨10#8, n, .plain⟩ ∧
    defaultVifTable (BitVec.ofNat 7 (0x38 + n)) = ⟨11#8, (n : Int) - 6, .plain⟩ ∧
    defaultVifTable (BitVec.ofNat 7 (0x40 + n)) = ⟨12#8, (n : Int) - 7, .plain⟩ ∧
    defaultVifTable (BitVec.ofNat 7 (0x48 + n)) = ⟨13#8, (n : Int) - 9, .plain⟩ ∧
    defaultVifTable (BitVec.ofNat 7 (0x50 + n)) = ⟨14#8, (n : Int) - 3, .plain⟩) ∧
  (∀ nn : Nat, nn < 4 →
    defaultVifTable (BitVec.ofNat 7 (0x58 + nn)) = ⟨15#8, (nn : Int) - 3, .plain⟩ ∧
    defaultVifTable (BitVec.ofNat 7 (0x5C + nn)) = ⟨15#8, (nn : Int) - 3, .plain⟩ ∧
    defaultVifTable (BitVec.ofNat 7 (0x60 + nn)) = ⟨16#8, (nn : Int) - 3, .plain⟩ ∧
    defaultVifTable (BitVec.ofNat 7 (0x64 + nn)) = ⟨15#8, (nn : Int) - 3, .plain⟩ ∧
    defaultVifTable (BitVec.ofNat 7 (0x68 + nn)) = ⟨17#8, (nn : Int) - 3, .plain⟩) ∧
  (∀ base ∈ [0x20, 0x24, 0x70, 0x74],
    defaultVifTable (BitVec.ofNat 7 (base + 0)) = ⟨5#8, 0, .plain⟩ ∧
    defaultVifTable (BitVec.ofNat 7 (base + 1)) = ⟨6#8, 0, .plain⟩ ∧
    defaultVifTable (BitVec.ofNat 7 (base + 2)) = ⟨7#8, 0, .plain⟩ ∧
    defaultVifTable (BitVec.ofNat 7 (base + 3)) = ⟨8#8, 0, .plain⟩) ∧
  (defaultVifTable 0x6C#7 = ⟨18#8, 0, .date⟩ ∧ defaultVifTable 0x6D#7 = ⟨19#8, 0, .datetime⟩ ∧
    defaultVifTable 0x6E#7 = ⟨20#8, 0, .plain⟩ ∧ defaultVifTable 0x6F#7 = ⟨29#8, 0, .plain⟩ ∧
    defaultVifTable 0x78#7 = ⟨21#8, 0, .plain⟩ ∧ defaultVifTable 0x79#7 = ⟨22#8, 0, .plain⟩ ∧
    defaultVifTable 0x7A#7 = ⟨23#8, 0, .plain⟩ ∧ defaultVifTable 0x7B#7 = ⟨24#8, 0, .plain⟩ ∧
    defaultVifTable 0x7C#7 = ⟨25#8, 0, .plain⟩ ∧ defaultVifTable 0x7D#7 = ⟨26#8, 0, .plain⟩ ∧
    defaultVifTable 0x7E#7 = ⟨27#8, 0, .plain⟩ ∧ defaultVifTable 0x7F#7 = ⟨28#8, 0, .plain⟩) ∧
  ParamsWellFormed defaultParams = true ∧
  ∀ i : BitVec 7, 1 ≤ (defaultVifTable i).unit.toNat ∧ (defaultVifTable i).unit.toNat ≤ 29 ∧
    -9 ≤ (defaultVifTable i).exp10 ∧ (defaultVifTable i).exp10 ≤ 7

/-! ### DECODE -/

/-- R342, R346: DECODE completes on every state with a telegram that is too long, malformed or cut in its TPL, and on
every unencrypted one: there the payload is iterated whatever KEY_LEN holds. -/
def Obligations.DecodeOfUnencryptedTelegrams : Prop :=
  ∀ s : State,
    let F := frameBytes s
    let n := s.frameLen.toNat
    let f := (frameStage F).2
    let C := F.drop f.payloadOff.toNat
    let it := iterate defaultParams C
    ∃ t, exec .decode s = .next t ∧
      (256 < n → Finished .fatal .frameLenRange t ∧ t.info = FrameInfo.cleared ∧ NoResults t ∧ SameIv s t ∧
        t.status.secStatus = .none ∧ t.status.marker = false ∧ t.status.recStop = .notRun) ∧
      (n < 10 → Finished .fatal .malformedFrame t ∧ t.info = FrameInfo.cleared ∧ NoResults t ∧ SameIv s t ∧
        t.status.secStatus = .none ∧ t.status.marker = false ∧ t.status.recStop = .notRun) ∧
      (n ≤ 256 → (frameStage F).1 = .truncated → Finished .degraded .payloadTruncated t ∧ t.info = f ∧ NoResults t ∧
        SameIv s t ∧ t.status.secStatus = .none ∧ t.status.marker = false ∧ t.status.recStop = .notRun) ∧
      (n ≤ 256 → (frameStage F).1 = .ok → f.encrypted = false →
        Finished (stopOutcome it.2).1 (stopOutcome it.2).2 t ∧ t.info = f ∧ SameIv s t ∧
        t.status.secStatus = frameSecStatus f ∧ t.status.marker = false ∧ t.status.recStop = it.2 ∧
        t.ptLen.toNat = C.length ∧ ptBytes t = C ∧ TableHolds t it.1)

/-- R206, R207, R211 to R216, R346: DECODE completes on every encrypted telegram: its four errors in order, each with what
it leaves, and the decrypted records. -/
def Obligations.DecodeOfEncryptedTelegrams : Prop :=
  ∀ s : State,
    let F := frameBytes s
    let f := (frameStage F).2
    let C := F.drop f.payloadOff.toNat
    let iv := deriveIv f.m f.a f.acc 0#16
    s.frameLen.toNat ≤ 256 → (frameStage F).1 = .ok → f.encrypted = true →
    ∀ ivb : Block, IsBlock iv ivb →
    let P := stripPad (cbcDecrypt (keyBlock s) ivb C)
    let it := iterate defaultParams (P.drop 2)
    ∃ t, exec .decode s = .next t ∧
      (s.keyLen = 0#8 → Finished .degraded .noKey t ∧ t.status.secStatus = .encrypted ∧ t.info = f ∧ NoResults t ∧
        SameIv s t ∧ t.status.marker = false ∧ t.status.recStop = .notRun) ∧
      (s.keyLen ≠ 0#8 → s.keyLen ≠ 16#8 → Finished .fatal .invalidKeyLength t ∧ t.status.secStatus = .none ∧
        t.info = FrameInfo.cleared ∧ NoResults t ∧ SameIv s t ∧ t.status.marker = false ∧
        t.status.recStop = .notRun) ∧
      (s.keyLen = 16#8 → C.length % 16 ≠ 0 → Finished .degraded .cipherLength t ∧
        t.status.secStatus = .undecryptable ∧ t.info = f ∧ NoResults t ∧ ivBytes t = iv ∧
        t.status.marker = false ∧ t.status.recStop = .notRun) ∧
      (s.keyLen = 16#8 → C.length % 16 = 0 → (¬ ∃ rest, P = 0x2F#8 :: 0x2F#8 :: rest) →
        Finished .degraded .decryptionIntegrity t ∧ t.status.secStatus = .undecryptable ∧ t.info = f ∧ NoResults t ∧
        ivBytes t = iv ∧ t.status.marker = false ∧ t.status.recStop = .notRun) ∧
      (s.keyLen = 16#8 → C.length % 16 = 0 → (∃ rest, P = 0x2F#8 :: 0x2F#8 :: rest) →
        Finished (stopOutcome it.2).1 (stopOutcome it.2).2 t ∧ t.status.secStatus = .decrypted ∧ t.info = f ∧
        ivBytes t = iv ∧ t.status.marker = true ∧ t.status.recStop = it.2 ∧ t.ptLen.toNat = (P.drop 2).length ∧
        ptBytes t = P.drop 2 ∧ TableHolds t it.1)

/-- R221, R222: a telegram whose payload is the reference encryption, under the key and the derived IV, of the marker and
any records decodes as DECRYPTED, with those records as the plaintext. -/
def Obligations.CorrectKeyDecodesTheTelegram : Prop :=
  ∀ (s : State) (ivb : Block) (records : List Byte),
    let F := frameBytes s
    let f := (frameStage F).2
    s.frameLen.toNat ≤ 256 → (frameStage F).1 = .ok → f.encrypted = true → s.keyLen = 16#8 →
    IsBlock (deriveIv f.m f.a f.acc 0#16) ivb →
    F.drop f.payloadOff.toNat = refEncrypt (keyBlock s) ivb (0x2F#8 :: 0x2F#8 :: records) →
    ∃ t, exec .decode s = .next t ∧ t.status.secStatus = .decrypted ∧ t.status.marker = true ∧ ptBytes t = records ∧
      TableHolds t (iterate defaultParams records).1

/-- R348: the results of DECODE depend only on FRAME_LEN, FB[0..FRAME_LEN), KEY_LEN, and KEY when KEY_LEN = 16 (and the
build, one here); so does the IV, where DECODE derives one. -/
def Obligations.DecodeDependsOnlyOnItsInputs : Prop :=
  ∀ s u t v : State, u.frameLen = s.frameLen → frameBytes u = frameBytes s → u.keyLen = s.keyLen →
    (s.keyLen = 16#8 → keyBytes u = keyBytes s) →
    exec .decode s = .next t → exec .decode u = .next v →
    v.info = t.info ∧ SameRecords t v ∧ v.status.secStatus = t.status.secStatus ∧ v.status.marker = t.status.marker ∧
    (s.frameLen.toNat ≤ 256 → (frameStage (frameBytes s)).1 = .ok → (frameStage (frameBytes s)).2.encrypted = true →
      s.keyLen = 16#8 → SameIv t v)

/-- R349: for an unencrypted telegram whose frame stage returns OK, DECODE leaves the frame results of PARSE_FRAME, and
the plaintext, records, REC_STOP, OUTCOME and ERRCODE of ITERATE on the payload alone. -/
def Obligations.DecodeIsParseFrameThenIterate : Prop :=
  ∀ s u d p i : State, s.frameLen.toNat ≤ 256 → (frameStage (frameBytes s)).1 = .ok →
    (frameStage (frameBytes s)).2.encrypted = false →
    frameBytes u = (frameBytes s).drop (frameStage (frameBytes s)).2.payloadOff.toNat →
    exec .decode s = .next d → exec .parseFrame s = .next p → exec .iterate u = .next i →
    d.info = p.info ∧ SameRecords i d

/-- R350: for an encrypted telegram with KEY_LEN = 16, DECODE's IV is what DERIVE_IV gives from the same fields, and
DECRYPT of the payload under that IV has DECODE's plaintext from byte 2 on when the marker is seen. -/
def Obligations.DecodeIsDeriveIvThenDecrypt : Prop :=
  ∀ s u v d e x : State,
    let f := (frameStage (frameBytes s)).2
    s.frameLen.toNat ≤ 256 → (frameStage (frameBytes s)).1 = .ok → f.encrypted = true → s.keyLen = 16#8 →
    u.ivinM = f.m → u.ivinA = f.a → u.ivinAcc = f.acc → u.ivinFc = 0#16 →
    exec .decode s = .next d → exec .deriveIv u = .next e →
    SameIv e d ∧
    (frameBytes v = (frameBytes s).drop f.payloadOff.toNat → (frameBytes v).length % 16 = 0 → v.keyLen = 16#8 →
      keyBytes v = keyBytes s → SameIv e v → exec .decrypt v = .next x →
      d.status.marker = x.status.marker ∧ (d.status.marker = true → ptBytes d = (ptBytes x).drop 2))

/-! ### What commands leave alone -/

/-- R133, R343: no command writes CTRL, an input register, KEY, FRAME_BUF, LAST_OP, a sticky bit, or any byte outside
PT_BUF and REC_TABLE. -/
def Obligations.CommandsKeepTheHostsInputs : Prop :=
  ∀ (i : Instr) (s t : State), exec i s = .next t → SameInputs s t

/-- R133: NOP writes only STATUS, DERIVE_IV only IV and STATUS; DECRYPT and ITERATE write no frame result register and no
IV, PARSE_FRAME no IV. -/
def Obligations.CommandsWriteOnlyTheirResults : Prop :=
  (∀ s t : State, exec .nop s = .next t → t.info = s.info ∧ SameIv s t ∧ SameWork s t) ∧
  (∀ s t : State, exec .deriveIv s = .next t → t.info = s.info ∧ SameWork s t) ∧
  (∀ s t : State, exec .decrypt s = .next t → t.info = s.info ∧ SameIv s t) ∧
  (∀ s t : State, exec .iterate s = .next t → t.info = s.info ∧ SameIv s t) ∧
  ∀ s t : State, exec .parseFrame s = .next t → SameIv s t

/-- R371: a FATAL outcome of a command with a Prologue scope leaves PT_LEN and REC_COUNT 0, nothing in the buffers, and
the frame result registers of scope FRAME cleared. -/
def Obligations.FatalLeavesNoResult : Prop :=
  ∀ (i : Instr) (s t : State), exec i s = .next t → t.status.outcome = .fatal →
    i ≠ .nop ∧ i ≠ .deriveIv ∧ NoResults t ∧ t.status.secStatus = .none ∧ t.status.marker = false ∧
      t.status.recStop = .notRun ∧ (i = .decode ∨ i = .parseFrame → t.info = FrameInfo.cleared)

/-! ### Host accesses -/

/-- R104: an access that is not an aligned 32-bit access answers an error, a read with data 0, sets BUS_ERR and changes
nothing else; an aligned 32-bit access answers no error at any offset. That the refusal is the same while BUSY, with BUS_ERR
alone and neither WR_IGNORED nor CMD_OVERRUN set, is the model's choice (entry 15), no rule's. -/
def Obligations.MisalignedAccessIsRefused : Prop :=
  (∀ (s : State) (size : AccessSize) (off : BitVec 14) (v : Word), (size ≠ .word ∨ off.toNat % 4 ≠ 0) →
    hostRead size off s =
      { s with resp := ⟨0#32, true⟩, status := { s.status with busErr := true } } ∧
    hostWrite size off v s =
      { s with resp := (hostWrite size off v s).resp, status := { s.status with busErr := true } } ∧
    (hostWrite size off v s).resp.err = true) ∧
  ∀ (s : State) (off : BitVec 14) (v : Word), off.toNat % 4 = 0 →
    (hostRead .word off s).resp.err = false ∧ (hostWrite .word off v s).resp.err = false

/-- R32, R33, R37, R38, R41 to R43: an input register takes the bits it has of what is written in IDLE, and nothing else
changes (the answer's data on a write is the model's, entry 9); it reads back what it holds, but for the key; KEY and
IV bytes are the lanes of their registers. -/
def Obligations.InputWritesSetTheirRegister : Prop :=
  (∀ (s : State) (v : Word), s.phase = .idle →
    hostWrite .word 0x010#14 v s = { s with frameLen := v.setWidth 9, resp := ⟨0#32, false⟩ } ∧
    hostWrite .word 0x014#14 v s = { s with keyLen := v.setWidth 8, resp := ⟨0#32, false⟩ } ∧
    hostWrite .word 0x020#14 v s = { s with key0 := v, resp := ⟨0#32, false⟩ } ∧
    hostWrite .word 0x024#14 v s = { s with key1 := v, resp := ⟨0#32, false⟩ } ∧
    hostWrite .word 0x028#14 v s = { s with key2 := v, resp := ⟨0#32, false⟩ } ∧
    hostWrite .word 0x02C#14 v s = { s with key3 := v, resp := ⟨0#32, false⟩ } ∧
    hostWrite .word 0x030#14 v s = { s with iv0 := v, resp := ⟨0#32, false⟩ } ∧
    hostWrite .word 0x034#14 v s = { s with iv1 := v, resp := ⟨0#32, false⟩ } ∧
    hostWrite .word 0x038#14 v s = { s with iv2 := v, resp := ⟨0#32, false⟩ } ∧
    hostWrite .word 0x03C#14 v s = { s with iv3 := v, resp := ⟨0#32, false⟩ } ∧
    hostWrite .word 0x040#14 v s = { s with ivinM := v.setWidth 16, resp := ⟨0#32, false⟩ } ∧
    hostWrite .word 0x044#14 v s = { s with ivinA := v, resp := ⟨0#32, false⟩ } ∧
    hostWrite .word 0x048#14 v s = { s with ivinAcc := v.setWidth 8, resp := ⟨0#32, false⟩ } ∧
    hostWrite .word 0x04C#14 v s = { s with ivinFc := v.setWidth 16, resp := ⟨0#32, false⟩ } ∧
    (v.getLsbD 1 = false →
      hostWrite .word 0x004#14 v s = { s with irqEn := v.getLsbD 0, resp := ⟨0#32, false⟩ } ∧
      regWord (hostWrite .word 0x004#14 v s) 0x004 = v &&& 0x00000001#32) ∧
    ∀ e ∈ [(0x010#14, 0x000001FF#32), (0x014#14, 0x000000FF#32), (0x030#14, 0xFFFFFFFF#32), (0x034#14, 0xFFFFFFFF#32),
        (0x038#14, 0xFFFFFFFF#32), (0x03C#14, 0xFFFFFFFF#32), (0x040#14, 0x0000FFFF#32), (0x044#14, 0xFFFFFFFF#32),
        (0x048#14, 0x000000FF#32), (0x04C#14, 0x0000FFFF#32)],
      regWord (hostWrite .word e.1 v s) e.1.toNat = v &&& e.2) ∧
  ∀ (s : State) (m : Nat), m < 4 →
    (blockBytes (keyBlock s))[m]? = some (s.key0.extractLsb' (8 * m) 8) ∧
    (blockBytes (keyBlock s))[4 + m]? = some (s.key1.extractLsb' (8 * m) 8) ∧
    (blockBytes (keyBlock s))[8 + m]? = some (s.key2.extractLsb' (8 * m) 8) ∧
    (blockBytes (keyBlock s))[12 + m]? = some (s.key3.extractLsb' (8 * m) 8) ∧
    (blockBytes (ivBlock s))[m]? = some (s.iv0.extractLsb' (8 * m) 8) ∧
    (blockBytes (ivBlock s))[4 + m]? = some (s.iv1.extractLsb' (8 * m) 8) ∧
    (blockBytes (ivBlock s))[8 + m]? = some (s.iv2.extractLsb' (8 * m) 8) ∧
    (blockBytes (ivBlock s))[12 + m]? = some (s.iv3.extractLsb' (8 * m) 8)

/-- R53, R101: a FRAME_BUF word written in IDLE stores its four lanes at its offset; every other byte and every register
stays, and the word reads back. -/
def Obligations.FrameBufWriteStoresItsLanes : Prop :=
  ∀ (s : State) (off : BitVec 14) (v : Word), s.phase = .idle → off.toNat % 4 = 0 → 0x100 ≤ off.toNat →
    off.toNat < 0x200 →
    let t := hostWrite .word off v s
    (∀ m, m < 4 → bufByte t (off.toNat + m) = v.extractLsb' (8 * m) 8) ∧
    (∀ a, a < off.toNat ∨ off.toNat + 4 ≤ a → bufByte t a = bufByte s a) ∧
    t = { s with mem := t.mem, resp := ⟨0#32, false⟩ } ∧
    regWord t off.toNat = v

/-- R32, R34, R41: writes to read-only registers, to PT_BUF, to REC_TABLE and to reserved offsets change nothing but the
bus answer; KEY, CMD and reserved offsets read 0. In IDLE and while BUSY. -/
def Obligations.ReadOnlyAndReservedIgnoreWrites : Prop :=
  ∀ (s : State) (off : BitVec 14) (v : Word), off.toNat % 4 = 0 →
    ((off.toNat = 0x000 ∨ off.toNat = 0x018 ∨ off.toNat = 0x01C ∨ 0x050 ≤ off.toNat ∧ off.toNat < 0x100 ∨
        0x200 ≤ off.toNat) →
      hostWrite .word off v s = { s with resp := (hostWrite .word off v s).resp }) ∧
    ((off.toNat = 0x008 ∨ 0x020 ≤ off.toNat ∧ off.toNat < 0x030 ∨ 0x070 ≤ off.toNat ∧ off.toNat < 0x100 ∨
        0x300 ≤ off.toNat ∧ off.toNat < 0x400 ∨ 0x2400 ≤ off.toNat) →
      (hostRead .word off s).resp = ⟨0#32, false⟩)

/-- R41, R108: no host read, of any size at any offset in any phase, shows the key: changing the key changes nothing of
the read. -/
def Obligations.NoReadShowsTheKey : Prop :=
  ∀ (s : State) (k0 k1 k2 k3 : Word) (size : AccessSize) (off : BitVec 14),
    hostRead size off { s with key0 := k0, key1 := k1, key2 := k2, key3 := k3 } =
      { hostRead size off s with key0 := k0, key1 := k1, key2 := k2, key3 := k3 }

/-- R106: in IDLE an aligned read changes nothing but the bus answer, which is the word as it stands, and so does not
change what a later read answers; a second write of the same value changes nothing, for every write but a command and a
soft reset, in IDLE and while BUSY. -/
def Obligations.IdleReadsAndRepeatedWrites : Prop :=
  (∀ (s : State) (off : BitVec 14), s.phase = .idle → off.toNat % 4 = 0 →
    hostRead .word off s = { s with resp := ⟨regWord s off.toNat, false⟩ } ∧
    ∀ off' : BitVec 14, off'.toNat % 4 = 0 →
      (hostRead .word off' (hostRead .word off s)).resp = ⟨regWord s off'.toNat, false⟩) ∧
  ∀ (s : State) (size : AccessSize) (off : BitVec 14) (v : Word), off ≠ 0x008#14 →
    ¬ (off = 0x004#14 ∧ v.getLsbD 1 = true) →
    hostWrite size off v (hostWrite size off v s) = hostWrite size off v s

/-- R420: writes while BUSY: an input write sets WR_IGNORED and nothing else, SRST resets, a CMD write sets CMD_OVERRUN and
nothing else, STATUS takes its W1C bits, and read-only and reserved offsets ignore the write. -/
def Obligations.WritesWhileBusy : Prop :=
  ∀ (s : State) (off : BitVec 14) (v : Word), busy s = true → off.toNat % 4 = 0 →
    let t := hostWrite .word off v s
    t.resp.err = false ∧
    ((off.toNat = 0x010 ∨ off.toNat = 0x014 ∨ 0x020 ≤ off.toNat ∧ off.toNat < 0x050 ∨
        0x100 ≤ off.toNat ∧ off.toNat < 0x200 ∨ off.toNat = 0x004 ∧ v.getLsbD 1 = false) →
      t = { s with resp := t.resp, status := { s.status with wrIgnored := true } }) ∧
    (off.toNat = 0x004 → v.getLsbD 1 = true → t = { blockReset s with resp := t.resp }) ∧
    (off.toNat = 0x008 → t = { s with resp := t.resp, status := { s.status with cmdOverrun := true } }) ∧
    (off.toNat = 0x00C → s.status.done = false →
      t = { s with
        resp := t.resp
        status := { s.status with
          cmdOverrun := s.status.cmdOverrun && !v.getLsbD 16
          wrIgnored := s.status.wrIgnored && !v.getLsbD 17
          busErr := s.status.busErr && !v.getLsbD 18 } }) ∧
    ((off.toNat = 0x000 ∨ off.toNat = 0x018 ∨ off.toNat = 0x01C ∨ 0x050 ≤ off.toNat ∧ off.toNat < 0x100 ∨
        0x200 ≤ off.toNat) → t = { s with resp := t.resp })

/-- R421: reads while BUSY: what reads its value, what reads 0, the fixed bits of STATUS, and what reads free bits, those
of a fresh draw (entry 4), in the fields a register has (entry 6); no read has any other effect. -/
def Obligations.ReadsWhileBusy : Prop :=
  ∀ (s : State) (off : BitVec 14), busy s = true → off.toNat % 4 = 0 →
    let t := hostRead .word off s
    let free := Config.freeWord s.draw
    t = { s with resp := t.resp, draw := s.draw + 1 } ∧ t.resp.err = false ∧
    ((off.toNat < 0x00C ∨ off.toNat = 0x010 ∨ off.toNat = 0x014 ∨ 0x020 ≤ off.toNat ∧ off.toNat < 0x030 ∨
        0x040 ≤ off.toNat ∧ off.toNat < 0x050 ∨ 0x100 ≤ off.toNat ∧ off.toNat < 0x200) →
      t.resp.data = regWord s off.toNat) ∧
    (0x020 ≤ off.toNat ∧ off.toNat < 0x030 → t.resp.data = 0#32) ∧
    (off.toNat = 0x00C → t.resp.data = (statusWord s &&& 0xFFFF0003#32) ||| (free &&& 0x0000FFFC#32)) ∧
    (∀ e ∈ [(0x018, 0x000001FF#32), (0x01C, 0x000000FF#32), (0x050, 0xFFFFFFFF#32), (0x054, 0xFFFFFFFF#32),
        (0x058, 0x3FFFFFFF#32), (0x05C, 0xFFFFFFFF#32), (0x060, 0xFFFFFFFF#32), (0x064, 0xFFFFFFFF#32),
        (0x068, 0x01FF01FF#32), (0x06C, 0x0000001F#32)], off.toNat = e.1 → t.resp.data = free &&& e.2) ∧
    (0x030 ≤ off.toNat ∧ off.toNat < 0x040 ∨ 0x200 ≤ off.toNat ∧ off.toNat < 0x300 ∨
        0x400 ≤ off.toNat ∧ off.toNat < 0x2400 → t.resp.data = free)

/-- R410, R411: the hardware reset puts all the spec gives the block in the reset state, a running command abandoned; so
does a CTRL write with SRST = 1, in any phase and whatever the other bits hold, and SRST reads 0. -/
def Obligations.ResetsGiveTheResetState : Prop :=
  (∀ s : State,
    let t := blockReset s
    t = { State.reset with
      hostQueue := t.hostQueue
      resp := t.resp
      latencies := t.latencies
      draw := t.draw
      frameDraw := t.frameDraw
      resultDraw := t.resultDraw }) ∧
  ∀ (s : State) (v : Word), v.getLsbD 1 = true →
    let t := hostWrite .word 0x004#14 v s
    t = { State.reset with
      hostQueue := t.hostQueue
      resp := t.resp
      latencies := t.latencies
      draw := t.draw
      frameDraw := t.frameDraw
      resultDraw := t.resultDraw } ∧
    regWord t 0x004 = 0#32

/-- R31 to R51, R101, R282, R370, R371: what every register reads in any state, its fields at their bits and its reserved
bits 0; the words of the buffers by their lanes; and the numeric codes of OUTCOME, ERRCODE, SEC_STATUS, REC_STOP and
TPL_KIND. -/
def Obligations.ReadWordsHoldTheFields : Prop :=
  (∀ s : State,
    let w := statusWord s
    regWord s 0x00C = w ∧
    w.getLsbD 0 = busy s ∧ w.getLsbD 1 = s.status.done ∧ w.extractLsb' 2 2 = outcomeCode s.status.outcome ∧
    w.extractLsb' 4 4 = errCodeCode s.status.errCode ∧ w.extractLsb' 8 3 = secStatusCode s.status.secStatus ∧
    w.getLsbD 11 = s.status.marker ∧ w.extractLsb' 12 4 = recStopCode s.status.recStop ∧
    w.getLsbD 16 = s.status.cmdOverrun ∧ w.getLsbD 17 = s.status.wrIgnored ∧ w.getLsbD 18 = s.status.busErr ∧
    w.getLsbD 19 = false ∧ w.extractLsb' 20 4 = s.status.lastOp ∧ w.extractLsb' 24 8 = 0#8) ∧
  (∀ s : State,
    regWord s 0x000 = 0x574D4231#32 ∧ (regWord s 0x004).toNat = s.irqEn.toNat ∧ regWord s 0x008 = 0#32 ∧
    regWord s 0x020 = 0#32 ∧ regWord s 0x024 = 0#32 ∧ regWord s 0x028 = 0#32 ∧ regWord s 0x02C = 0#32 ∧
    (regWord s 0x010).toNat = s.frameLen.toNat ∧ (regWord s 0x014).toNat = s.keyLen.toNat ∧
    (regWord s 0x018).toNat = s.ptLen.toNat ∧ (regWord s 0x01C).toNat = s.recCount.toNat ∧
    regWord s 0x030 = s.iv0 ∧ regWord s 0x034 = s.iv1 ∧ regWord s 0x038 = s.iv2 ∧ regWord s 0x03C = s.iv3 ∧
    (regWord s 0x040).toNat = s.ivinM.toNat ∧ regWord s 0x044 = s.ivinA ∧
    (regWord s 0x048).toNat = s.ivinAcc.toNat ∧ (regWord s 0x04C).toNat = s.ivinFc.toNat) ∧
  (∀ s : State,
    let dll0 := regWord s 0x050
    let dll1 := regWord s 0x058
    let hdr := regWord s 0x060
    let sec := regWord s 0x064
    let payload := regWord s 0x068
    dll0.extractLsb' 0 8 = s.info.l ∧ dll0.extractLsb' 8 8 = s.info.c ∧ dll0.extractLsb' 16 16 = s.info.m ∧
    regWord s 0x054 = s.info.a ∧
    dll1.extractLsb' 0 8 = s.info.v ∧ dll1.extractLsb' 8 8 = s.info.t ∧ dll1.extractLsb' 16 8 = s.info.ci ∧
    dll1.getLsbD 24 = s.info.infoValid ∧ dll1.getLsbD 25 = s.info.ciPresent ∧
    dll1.extractLsb' 26 2 = tplKindCode s.info.tplKind ∧ dll1.getLsbD 28 = s.info.tplValid ∧
    dll1.getLsbD 29 = s.info.encrypted ∧ dll1.extractLsb' 30 2 = 0#2 ∧
    regWord s 0x05C = s.info.tplId ∧
    hdr.extractLsb' 0 16 = s.info.tplM ∧ hdr.extractLsb' 16 8 = s.info.tplV ∧ hdr.extractLsb' 24 8 = s.info.tplT ∧
    sec.extractLsb' 0 8 = s.info.acc ∧ sec.extractLsb' 8 8 = s.info.sts ∧ sec.extractLsb' 16 16 = s.info.cfg ∧
    payload.extractLsb' 0 9 = s.info.payloadOff ∧ payload.extractLsb' 9 7 = 0#7 ∧
    payload.extractLsb' 16 9 = s.info.payloadLen ∧ payload.extractLsb' 25 7 = 0#7 ∧
    (regWord s 0x06C).toNat = s.info.secMode.toNat) ∧
  (∀ (s : State) (off m : Nat), off % 4 = 0 → (0x100 ≤ off ∧ off < 0x300 ∨ 0x400 ≤ off ∧ off < 0x2400) → m < 4 →
    (regWord s off).extractLsb' (8 * m) 8 = bufByte s (off + m)) ∧
  (outcomeCode .ok = 0#2 ∧ outcomeCode .degraded = 1#2 ∧ outcomeCode .fatal = 2#2) ∧
  (errCodeCode .none = 0#4 ∧ errCodeCode .malformedFrame = 1#4 ∧ errCodeCode .payloadTruncated = 2#4 ∧
    errCodeCode .invalidKeyLength = 3#4 ∧ errCodeCode .decryptionIntegrity = 4#4 ∧ errCodeCode .cipherLength = 5#4 ∧
    errCodeCode .noKey = 6#4 ∧ errCodeCode .recordDecode = 7#4 ∧ errCodeCode .illegalCommand = 8#4 ∧
    errCodeCode .frameLenRange = 9#4) ∧
  (secStatusCode .none = 0#3 ∧ secStatusCode .unencrypted = 1#3 ∧ secStatusCode .encrypted = 2#3 ∧
    secStatusCode .decrypted = 3#3 ∧ secStatusCode .undecryptable = 4#3) ∧
  (recStopCode .notRun = 0#4 ∧ recStopCode .exhausted = 1#4 ∧ recStopCode .specialStop = 2#4 ∧
    recStopCode .difeUnterminated = 3#4 ∧ recStopCode .vifeUnterminated = 4#4 ∧ recStopCode .difeOverflow = 5#4 ∧
    recStopCode .vifeOverflow = 6#4 ∧ recStopCode .vifMissing = 7#4 ∧ recStopCode .dataTruncated = 8#4) ∧
  tplKindCode .none = 0#2 ∧ tplKindCode .long = 1#2 ∧ tplKindCode .short = 2#2

/-- R32, R35: a write of STATUS clears exactly the W1C bits 1, 16, 17 and 18 that it writes as 1, and changes no other
register. -/
def Obligations.StatusWriteClearsOnlyItsBits : Prop :=
  ∀ (s : State) (v : Word),
    let t := hostWrite .word 0x00C#14 v s
    statusWord t = statusWord s &&& ~~~(v &&& 0x00070002#32) ∧
    t = { s with status := t.status, resp := t.resp }

/-- R380, R381: IRQ is DONE and IRQ_EN; a completed command raises it when enabled; it falls when DONE is cleared by a
write of 1, by the next issue or by a reset, or when IRQ_EN is written 0 in IDLE; a write of 0 to DONE and a write of
IRQ_EN while BUSY do nothing to it. -/
def Obligations.IrqFollowsDoneAndEnable : Prop :=
  (∀ s : State, irq s = ((statusWord s).getLsbD 1 && (regWord s 0x004).getLsbD 0)) ∧
  (∀ (i : Instr) (s t : State), exec i s = .next t → irq t = s.irqEn) ∧
  (∀ s : State, irq (illegalCommand s) = s.irqEn) ∧
  (∀ (s : State) (v : Word), irq (hostWrite .word 0x00C#14 v s) = (irq s && !v.getLsbD 1)) ∧
  (∀ (s : State) (w : Word), irq (issue w s) = false) ∧
  (∀ s : State, irq (blockReset s) = false) ∧
  (∀ (s : State) (v : Word), s.phase = .idle → v.getLsbD 1 = false →
    irq (hostWrite .word 0x004#14 v s) = (s.status.done && v.getLsbD 0)) ∧
  ∀ (s : State) (v : Word), busy s = true → v.getLsbD 1 = false →
    irq (hostWrite .word 0x004#14 v s) = irq s

/-- R109, R110, R136: in IDLE, and in every bus slot of a running command, a step takes the first entry of the host's queue:
a read, a write, the hardware reset, or nothing; POLL reads STATUS and leaves the queue exactly when BUSY = 0 and DONE = 1;
and the accesses of CMD, ACK, FILL, KEY and FRAME. That the host is a queue with one access to a step, and where a FILL that
runs past the window ends, are the model's choice (entries 1, 10, 14, 18). -/
def Obligations.StepTakesTheNextHostAccess : Prop :=
  (∀ (s u : State) (rest : List HostOp),
    (s.phase = .idle ∧ u = { s with hostQueue := rest } ∨
      ∃ w left, s.phase = .busy w (left + 1) ∧ u = { s with phase := .busy w left, hostQueue := rest }) →
    (∀ size off, s.hostQueue = .read size off :: rest → step s = .next (hostRead size off u)) ∧
    (∀ size off v, s.hostQueue = .write size off v :: rest → step s = .next (hostWrite size off v u)) ∧
    (s.hostQueue = .hardReset :: rest → step s = .next (blockReset u)) ∧
    (s.hostQueue = [] → rest = [] → step s = .next u)) ∧
  (∀ (s : State) (rest : List HostOp), s.phase = .idle → s.status.done = true → s.hostQueue = .poll :: rest →
    step s = .next { s with hostQueue := rest, resp := ⟨statusWord s, false⟩ }) ∧
  (∀ (s : State) (rest : List HostOp), s.phase = .idle → s.status.done = false → s.hostQueue = .poll :: rest →
    step s = .next { s with resp := ⟨statusWord s, false⟩ }) ∧
  (∀ (s : State) (w : Word) (left : Nat) (rest : List HostOp), s.phase = .busy w (left + 1) →
    s.hostQueue = .poll :: rest → step s = .next (hostRead .word 0x00C#14 { s with phase := .busy w left })) ∧
  (∀ i : Instr, hostCmd i = [.write .word 0x008#14 (encode i)]) ∧
  hostAck = [.write .word 0x00C#14 0x00000002#32] ∧
  (∀ (off : BitVec 14) (bs : List Byte) (j : Nat), off.toNat % 4 = 0 →
    (hostFill off bs)[j]? =
      if 4 * j < bs.length ∧ off.toNat + 4 * j < 0x4000 then
        some (.write .word (off + BitVec.ofNat 14 (4 * j))
          (wordOfBytes (bs.getD (4 * j) 0#8) (bs.getD (4 * j + 1) 0#8) (bs.getD (4 * j + 2) 0#8)
            (bs.getD (4 * j + 3) 0#8)))
      else none) ∧
  (∀ k : List Byte, hostKey k = hostFill 0x020#14 k ++ [.write .word 0x014#14 0x00000010#32]) ∧
  ∀ F : List Byte, hostFrame F = hostFill 0x100#14 F ++ [.write .word 0x010#14 (BitVec.ofNat 32 F.length)]
end

