-- ==== Sys2Proof/Laws/Aes.lean ====
section
/-! SUPPORT. The round transformations of 42_aes128.md undone one by one (R244, R246), and the byte lengths of the cipher
layer (R205, R209). -/

namespace Sys2Proof.Machine

/-! ### Field arithmetic -/

theorem xor_left_comm (a b c : Byte) : a ^^^ (b ^^^ c) = b ^^^ (a ^^^ c) := by
  rw [← BitVec.xor_assoc, BitVec.xor_comm a b, BitVec.xor_assoc]

theorem xor_cancel_left (a b : Byte) : a ^^^ (a ^^^ b) = b := by
  rw [← BitVec.xor_assoc, BitVec.xor_self, BitVec.zero_xor]

theorem xtime_xor (a b : Byte) : xtime (a ^^^ b) = xtime a ^^^ xtime b := by
  unfold xtime
  rw [BitVec.getLsbD_xor, BitVec.shiftLeft_xor_distrib]
  cases a.getLsbD 7 <;> cases b.getLsbD 7 <;>
    simp [BitVec.xor_assoc, xor_left_comm, BitVec.xor_comm]

@[simp] theorem gmul_01 (a : Byte) : gmul 0x01#8 a = a := by
  simp [gmul, gmulFrom]

theorem gmul_02 (a : Byte) : gmul 0x02#8 a = xtime a := by
  simp [gmul, gmulFrom]

theorem gmul_03 (a : Byte) : gmul 0x03#8 a = a ^^^ xtime a := by
  simp [gmul, gmulFrom]

theorem gmul_09 (a : Byte) : gmul 0x09#8 a = a ^^^ xtime (xtime (xtime a)) := by
  simp [gmul, gmulFrom]

theorem gmul_0b (a : Byte) : gmul 0x0b#8 a = a ^^^ (xtime a ^^^ xtime (xtime (xtime a))) := by
  simp [gmul, gmulFrom]

theorem gmul_0d (a : Byte) : gmul 0x0d#8 a = a ^^^ (xtime (xtime a) ^^^ xtime (xtime (xtime a))) := by
  simp [gmul, gmulFrom]

theorem gmul_0e (a : Byte) : gmul 0x0e#8 a = xtime a ^^^ (xtime (xtime a) ^^^ xtime (xtime (xtime a))) := by
  simp [gmul, gmulFrom]

theorem gmulFrom_xor (b : Byte) (k : Nat) (x y : Byte) :
    gmulFrom b k (x ^^^ y) = gmulFrom b k x ^^^ gmulFrom b k y := by
  induction k generalizing x y with
  | zero => simp [gmulFrom]
  | succ k ih =>
    simp only [gmulFrom, xtime_xor, ih]
    cases b.getLsbD (7 - k) <;> simp [BitVec.xor_assoc, xor_left_comm]

/-- Multiplication by a fixed byte is linear (R242). -/
theorem gmul_xor (b x y : Byte) : gmul b (x ^^^ y) = gmul b x ^^^ gmul b y := gmulFrom_xor b 8 x y

theorem xtime_zero : xtime 0x00#8 = 0x00#8 := by decide

theorem gmulFrom_zero (b : Byte) (k : Nat) : gmulFrom b k 0x00#8 = 0x00#8 := by
  induction k with
  | zero => rfl
  | succ k ih => simp [gmulFrom, xtime_zero, ih]

@[simp] theorem gmul_zero (b : Byte) : gmul b 0x00#8 = 0x00#8 := gmulFrom_zero b 8

/-- A matrix product is linear in its column. -/
theorem mixCol_xor (m0 m1 m2 m3 : Byte) (x y : Col) :
    mixCol m0 m1 m2 m3 (colXor x y) = colXor (mixCol m0 m1 m2 m3 x) (mixCol m0 m1 m2 m3 y) := by
  simp only [mixCol, colXor, gmul_xor, BitVec.xor_assoc, xor_left_comm]

/-- InvMixColumns undoes MixColumns on a column with one nonzero byte, in each of the four rows. -/
theorem invMixColumn_mixColumn_row (a : Byte) :
    invMixColumn (mixColumn ⟨a, 0x00#8, 0x00#8, 0x00#8⟩) = ⟨a, 0x00#8, 0x00#8, 0x00#8⟩ ∧
    invMixColumn (mixColumn ⟨0x00#8, a, 0x00#8, 0x00#8⟩) = ⟨0x00#8, a, 0x00#8, 0x00#8⟩ ∧
    invMixColumn (mixColumn ⟨0x00#8, 0x00#8, a, 0x00#8⟩) = ⟨0x00#8, 0x00#8, a, 0x00#8⟩ ∧
    invMixColumn (mixColumn ⟨0x00#8, 0x00#8, 0x00#8, a⟩) = ⟨0x00#8, 0x00#8, 0x00#8, a⟩ := by
  simp only [invMixColumn, mixColumn, mixCol, gmul_zero, BitVec.xor_zero, BitVec.zero_xor, gmul_01, gmul_02, gmul_03,
    gmul_09, gmul_0b, gmul_0d, gmul_0e, xtime_xor, BitVec.xor_assoc, xor_left_comm, BitVec.xor_comm,
    xor_cancel_left, BitVec.xor_self, and_self]

/-- The matrix products of R246 on one column: InvMixColumns undoes MixColumns. -/
theorem invMixColumn_mixColumn (a : Col) : invMixColumn (mixColumn a) = a := by
  obtain ⟨a0, a1, a2, a3⟩ := a
  have split : (⟨a0, a1, a2, a3⟩ : Col) =
      colXor (colXor ⟨a0, 0x00#8, 0x00#8, 0x00#8⟩ ⟨0x00#8, a1, 0x00#8, 0x00#8⟩)
        (colXor ⟨0x00#8, 0x00#8, a2, 0x00#8⟩ ⟨0x00#8, 0x00#8, 0x00#8, a3⟩) := by simp [colXor]
  have linear : ∀ x y, invMixColumn (mixColumn (colXor x y)) =
      colXor (invMixColumn (mixColumn x)) (invMixColumn (mixColumn y)) := fun x y => by
    simp only [invMixColumn, mixColumn, mixCol_xor]
  rw [split, linear, linear, linear, (invMixColumn_mixColumn_row a0).1, (invMixColumn_mixColumn_row a1).2.1,
    (invMixColumn_mixColumn_row a2).2.2.1, (invMixColumn_mixColumn_row a3).2.2.2]

/-! ### The S-boxes -/

/-- InvS undoes S (R244), entry by entry. -/
theorem invSbox_sbox (x : Byte) : invSbox (sbox x) = x := by
  have h : ∀ i : Fin 256, invSbox (sbox (BitVec.ofFin i)) = BitVec.ofFin i := by decide +kernel
  exact h x.toFin

/-! ### Blocks -/

theorem invSubBytes_subBytes (x : Block) : invSubBytes (subBytes x) = x := by
  simp [invSubBytes, subBytes, mapBlock, mapCol, invSbox_sbox]

theorem invShiftRows_shiftRows (x : Block) : invShiftRows (shiftRows x) = x := rfl

theorem invMixColumns_mixColumns (x : Block) : invMixColumns (mixColumns x) = x := by
  simp [invMixColumns, mixColumns, invMixColumn_mixColumn]

theorem blockXor_cancel (x y : Block) : blockXor (blockXor x y) y = x := by
  simp [blockXor, colXor]

/-! ### Lengths -/

@[simp] theorem blockBytes_length (b : Block) : (blockBytes b).length = 16 := by simp [blockBytes, colBytes]

theorem blocksOf_blockBytes_append (b : Block) (rest : List Byte) :
    blocksOf (blockBytes b ++ rest) = b :: blocksOf rest := by
  simp [blockBytes, colBytes, blocksOf]

theorem blocksOf_flatMap (bs : List Block) : blocksOf (bs.flatMap blockBytes) = bs := by
  induction bs with
  | nil => rfl
  | cons b bs ih => rw [List.flatMap_cons, blocksOf_blockBytes_append, ih]

/-- A byte sequence of whole blocks is the bytes of its blocks. -/
theorem flatMap_blocksOf : ∀ (c : List Byte), c.length % 16 = 0 → (blocksOf c).flatMap blockBytes = c
  | a0 :: a1 :: a2 :: a3 :: a4 :: a5 :: a6 :: a7 :: a8 :: a9 :: a10 :: a11 :: a12 :: a13 :: a14 :: a15 :: rest, h => by
    have hr : rest.length % 16 = 0 := by simp only [List.length_cons] at h; omega
    simp [blocksOf, blockBytes, colBytes, flatMap_blocksOf rest hr]
  | [], _ => rfl
  | [_], h | [_, _], h | [_, _, _], h | [_, _, _, _], h | [_, _, _, _, _], h | [_, _, _, _, _, _], h
  | [_, _, _, _, _, _, _], h | [_, _, _, _, _, _, _, _], h | [_, _, _, _, _, _, _, _, _], h
  | [_, _, _, _, _, _, _, _, _, _], h | [_, _, _, _, _, _, _, _, _, _, _], h
  | [_, _, _, _, _, _, _, _, _, _, _, _], h | [_, _, _, _, _, _, _, _, _, _, _, _, _], h
  | [_, _, _, _, _, _, _, _, _, _, _, _, _, _], h | [_, _, _, _, _, _, _, _, _, _, _, _, _, _, _], h => by
    simp at h

theorem flatMap_blockBytes_length (bs : List Block) : (bs.flatMap blockBytes).length = 16 * bs.length := by
  induction bs with
  | nil => rfl
  | cons b bs ih => rw [List.flatMap_cons, List.length_append, ih, blockBytes_length, List.length_cons]; omega

@[simp] theorem cbcBlocks_length (key prev : Block) (cs : List Block) :
    (cbcBlocks key prev cs).length = cs.length := by
  induction cs generalizing prev with
  | nil => rfl
  | cons c cs ih => simp [cbcBlocks, ih]

/-- `len(P) = 16·b` (R205). -/
theorem cbcDecrypt_length (key iv : Block) {c : List Byte} (h : c.length % 16 = 0) :
    (cbcDecrypt key iv c).length = c.length := by
  have h1 : 16 * (blocksOf c).length = c.length := by
    rw [← flatMap_blockBytes_length, flatMap_blocksOf c h]
  rw [cbcDecrypt, flatMap_blockBytes_length, cbcBlocks_length, h1]

theorem stripPad_length_le (p : List Byte) : (stripPad p).length ≤ p.length := by
  unfold stripPad
  split
  · exact le_refl _
  · split
    · simp
    · exact le_refl _

theorem decryptBytes_length_le (s : State) {c : List Byte} (h : c.length % 16 = 0) :
    (decryptBytes s c).length ≤ c.length :=
  (stripPad_length_le _).trans (cbcDecrypt_length _ _ h).le

end Sys2Proof.Machine
end

