-- ==== Sys2Proof/Laws/Memory.lean ====
section
/-! SUPPORT. The byte memory: a read after a write, what a write leaves alone, and that every operation keeps the
canonical form. -/

namespace Sys2Proof.Machine

/-! ### One byte -/

@[simp] theorem Memory.read_write_same (m : List Host.Cell) (a : Nat) (b : Byte) :
    Memory.read (Memory.write m a b) a = some b := by
  induction m with
  | nil => simp [Memory.write, Memory.read]
  | cons c m ih =>
    obtain ⟨a', b'⟩ := c
    simp only [Memory.write]
    split
    · simp [Memory.read]
    · split
      · simp [Memory.read]
      · simp [Memory.read, *]

theorem Memory.read_write_other (m : List Host.Cell) {a x : Nat} (b : Byte) (h : x ≠ a) :
    Memory.read (Memory.write m a b) x = Memory.read m x := by
  induction m with
  | nil => simp [Memory.write, Memory.read, h]
  | cons c m ih =>
    obtain ⟨a', b'⟩ := c
    simp only [Memory.write]
    split
    · simp [Memory.read, h]
    · split
      · subst_vars; simp [Memory.read, h]
      · simp only [Memory.read, ih]

theorem Memory.read_write (m : List Host.Cell) (a x : Nat) (b : Byte) :
    Memory.read (Memory.write m a b) x = if x = a then some b else Memory.read m x := by
  split
  · subst_vars; simp
  · exact Memory.read_write_other m b ‹_›

/-- The cells of a memory after a write are the new cell and old cells at other offsets. -/
theorem Memory.mem_write {m : List Host.Cell} {a : Nat} {b : Byte} {c : Host.Cell}
    (h : c ∈ Memory.write m a b) : c = (a, b) ∨ c ∈ m := by
  induction m with
  | nil => simpa [Memory.write] using h
  | cons d m ih =>
    obtain ⟨a', b'⟩ := d
    simp only [Memory.write] at h
    split at h
    · simpa using h
    · split at h
      · simp only [List.mem_cons] at h ⊢; tauto
      · simp only [List.mem_cons] at h ⊢
        rcases h with h | h
        · exact .inr (.inl h)
        · rcases ih h with h | h
          · exact .inl h
          · exact .inr (.inr h)

theorem Memory.wf_write {m : List Host.Cell} (h : Memory.wf m) (a : Nat) (b : Byte) :
    Memory.wf (Memory.write m a b) := by
  induction m with
  | nil => simp [Memory.write, Memory.wf]
  | cons c m ih =>
    obtain ⟨a', b'⟩ := c
    obtain ⟨h1, h2⟩ := List.pairwise_cons.1 h
    simp only [Memory.write]
    split
    · refine List.pairwise_cons.2 ⟨?_, h⟩
      intro d hd
      rcases List.mem_cons.1 hd with rfl | hd
      · assumption
      · have := h1 d hd
        dsimp only at *
        omega
    · split
      · subst_vars; exact List.pairwise_cons.2 ⟨h1, h2⟩
      · refine List.pairwise_cons.2 ⟨?_, ih h2⟩
        intro d hd
        rcases Memory.mem_write hd with rfl | hd
        · dsimp only; omega
        · exact h1 d hd

/-! ### Consecutive bytes -/

/-- Everything a read finds after a store of consecutive bytes: the stored byte inside, the old byte outside. -/
theorem Memory.read_writeBytes (m : List Host.Cell) (a x : Nat) (bs : List Byte) :
    Memory.read (Memory.writeBytes m a bs) x =
      if a ≤ x ∧ x < a + bs.length then bs[x - a]? else Memory.read m x := by
  induction bs generalizing m a with
  | nil => simp [Memory.writeBytes]
  | cons b bs ih =>
    simp only [Memory.writeBytes, ih, List.length_cons, Memory.read_write]
    by_cases h : x = a
    · subst h; simp
    · by_cases h1 : a + 1 ≤ x ∧ x < a + 1 + bs.length
      · have h2 : a ≤ x ∧ x < a + (bs.length + 1) := by omega
        have h3 : x - a = (x - (a + 1)) + 1 := by omega
        simp [h1, h2, h3]
      · have h2 : ¬ (a ≤ x ∧ x < a + (bs.length + 1)) := by omega
        rw [if_neg h1, if_neg h2, if_neg h]

theorem Memory.read_writeBytes_inside (m : List Host.Cell) (a i : Nat) (bs : List Byte) (h : i < bs.length) :
    Memory.read (Memory.writeBytes m a bs) (a + i) = some bs[i] := by
  have : a ≤ a + i ∧ a + i < a + bs.length := by omega
  simp [Memory.read_writeBytes, h]

theorem Memory.read_writeBytes_outside (m : List Host.Cell) (a x : Nat) (bs : List Byte)
    (h : x < a ∨ a + bs.length ≤ x) : Memory.read (Memory.writeBytes m a bs) x = Memory.read m x := by
  have : ¬ (a ≤ x ∧ x < a + bs.length) := by omega
  rw [Memory.read_writeBytes, if_neg this]

theorem Memory.wf_writeBytes {m : List Host.Cell} (h : Memory.wf m) (a : Nat) (bs : List Byte) :
    Memory.wf (Memory.writeBytes m a bs) := by
  induction bs generalizing m a with
  | nil => exact h
  | cons b bs ih => exact ih (Memory.wf_write h a b) (a + 1)

theorem Memory.mem_writeBytes {m : List Host.Cell} {a : Nat} {bs : List Byte} {c : Host.Cell}
    (h : c ∈ Memory.writeBytes m a bs) : (a ≤ c.1 ∧ c.1 < a + bs.length) ∨ c ∈ m := by
  induction bs generalizing m a with
  | nil => exact .inr h
  | cons b bs ih =>
    simp only [List.length_cons]
    rcases ih h with h | h
    · left; omega
    · rcases Memory.mem_write h with rfl | h
      · left; dsimp only; omega
      · exact .inr h

/-! ### Making bytes unspecified -/

/-- Everything a read finds after bytes were made unspecified. -/
theorem Memory.read_forget (m : List Host.Cell) (lo hi x : Nat) :
    Memory.read (Memory.forget m lo hi) x = if lo ≤ x ∧ x < hi then none else Memory.read m x := by
  induction m with
  | nil => simp [Memory.forget, Memory.read]
  | cons c m ih =>
    obtain ⟨a', b'⟩ := c
    unfold Memory.forget at ih ⊢
    by_cases hc : lo ≤ a' ∧ a' < hi
    · rw [List.filter_cons_of_neg (by simp [hc]), ih]
      by_cases hx : lo ≤ x ∧ x < hi
      · simp [hx]
      · have : x ≠ a' := by rintro rfl; exact hx hc
        simp [hx, Memory.read, this]
    · rw [List.filter_cons_of_pos (by simp; omega)]
      simp only [Memory.read, ih]
      by_cases hxa : x = a'
      · subst hxa; simp [hc]
      · simp [hxa]

theorem Memory.wf_forget {m : List Host.Cell} (h : Memory.wf m) (lo hi : Nat) : Memory.wf (Memory.forget m lo hi) :=
  List.Pairwise.filter _ h

theorem Memory.mem_forget {m : List Host.Cell} {lo hi : Nat} {c : Host.Cell} (h : c ∈ Memory.forget m lo hi) :
    c ∈ m ∧ ¬ (lo ≤ c.1 ∧ c.1 < hi) := by
  simp only [Memory.forget, List.mem_filter, Bool.not_eq_true', Bool.and_eq_false_iff, decide_eq_false_iff_not] at h
  exact ⟨h.1, by omega⟩

/-! ### Cells and reads -/

/-- In the canonical form a listed cell is what a read finds. -/
theorem Memory.read_of_mem {m : List Host.Cell} (h : Memory.wf m) {c : Host.Cell} (hc : c ∈ m) :
    Memory.read m c.1 = some c.2 := by
  induction m with
  | nil => cases hc
  | cons d m ih =>
    obtain ⟨a', b'⟩ := d
    obtain ⟨h1, h2⟩ := List.pairwise_cons.1 h
    rcases List.mem_cons.1 hc with rfl | hc
    · simp [Memory.read]
    · have h3 := h1 c hc
      dsimp only at h3
      have : c.1 ≠ a' := by omega
      simp only [Memory.read, if_neg this]
      exact ih h2 hc

theorem Memory.mem_of_read {m : List Host.Cell} {a : Nat} {b : Byte} (h : Memory.read m a = some b) : (a, b) ∈ m := by
  induction m with
  | nil => cases h
  | cons d m ih =>
    obtain ⟨a', b'⟩ := d
    simp only [Memory.read] at h
    split at h
    · cases h; subst_vars; exact List.mem_cons_self
    · exact List.mem_cons_of_mem _ (ih h)

/-- Two canonical memories that read alike everywhere are equal lists. -/
theorem Memory.ext_of_read {m m' : List Host.Cell} (h : Memory.wf m) (h' : Memory.wf m')
    (hr : ∀ a, Memory.read m a = Memory.read m' a) : m = m' := by
  have nd : ∀ {l : List Host.Cell}, Memory.wf l → l.Nodup := fun hl =>
    hl.imp (fun hxy e => by rw [e] at hxy; exact Nat.lt_irrefl _ hxy)
  have hp : m.Perm m' := by
    refine (List.perm_ext_iff_of_nodup (nd h) (nd h')).2 fun c => ?_
    constructor
    · intro hc; exact Memory.mem_of_read ((hr c.1).symm.trans (Memory.read_of_mem h hc))
    · intro hc; exact Memory.mem_of_read ((hr c.1).trans (Memory.read_of_mem h' hc))
  refine hp.eq_of_pairwise (le := fun x y : Host.Cell => x.1 < y.1) ?_ h h'
  intro x y _ _ hxy hyx
  exact absurd (Nat.lt_trans hxy hyx) (Nat.lt_irrefl _)

theorem State.reset_mem_wf : Memory.wf State.reset.mem := List.Pairwise.nil

end Sys2Proof.Machine
end

