-- ==== Sys2Proof/Laws/State.lean ====
section
/-! SUPPORT. What each named update of the state leaves in each field: one lemma per field per update, true by rfl, so that
no proof unfolds a record update. For an update that writes STATUS fields there is one lemma per STATUS field. -/

namespace Sys2Proof.Machine

/-! ### setSecStatus -/

@[simp] theorem setSecStatus_irqEn (v : SecStatus) (s : State) : (setSecStatus v s).irqEn = s.irqEn := rfl
@[simp] theorem setSecStatus_done (v : SecStatus) (s : State) : (setSecStatus v s).status.done = s.status.done := rfl
@[simp] theorem setSecStatus_outcome (v : SecStatus) (s : State) : (setSecStatus v s).status.outcome = s.status.outcome := rfl
@[simp] theorem setSecStatus_errCode (v : SecStatus) (s : State) : (setSecStatus v s).status.errCode = s.status.errCode := rfl
@[simp] theorem setSecStatus_secStatus (v : SecStatus) (s : State) : (setSecStatus v s).status.secStatus = v := rfl
@[simp] theorem setSecStatus_marker (v : SecStatus) (s : State) : (setSecStatus v s).status.marker = s.status.marker := rfl
@[simp] theorem setSecStatus_recStop (v : SecStatus) (s : State) : (setSecStatus v s).status.recStop = s.status.recStop := rfl
@[simp] theorem setSecStatus_cmdOverrun (v : SecStatus) (s : State) : (setSecStatus v s).status.cmdOverrun = s.status.cmdOverrun := rfl
@[simp] theorem setSecStatus_wrIgnored (v : SecStatus) (s : State) : (setSecStatus v s).status.wrIgnored = s.status.wrIgnored := rfl
@[simp] theorem setSecStatus_busErr (v : SecStatus) (s : State) : (setSecStatus v s).status.busErr = s.status.busErr := rfl
@[simp] theorem setSecStatus_lastOp (v : SecStatus) (s : State) : (setSecStatus v s).status.lastOp = s.status.lastOp := rfl
@[simp] theorem setSecStatus_phase (v : SecStatus) (s : State) : (setSecStatus v s).phase = s.phase := rfl
@[simp] theorem setSecStatus_frameLen (v : SecStatus) (s : State) : (setSecStatus v s).frameLen = s.frameLen := rfl
@[simp] theorem setSecStatus_keyLen (v : SecStatus) (s : State) : (setSecStatus v s).keyLen = s.keyLen := rfl
@[simp] theorem setSecStatus_ptLen (v : SecStatus) (s : State) : (setSecStatus v s).ptLen = s.ptLen := rfl
@[simp] theorem setSecStatus_recCount (v : SecStatus) (s : State) : (setSecStatus v s).recCount = s.recCount := rfl
@[simp] theorem setSecStatus_key0 (v : SecStatus) (s : State) : (setSecStatus v s).key0 = s.key0 := rfl
@[simp] theorem setSecStatus_key1 (v : SecStatus) (s : State) : (setSecStatus v s).key1 = s.key1 := rfl
@[simp] theorem setSecStatus_key2 (v : SecStatus) (s : State) : (setSecStatus v s).key2 = s.key2 := rfl
@[simp] theorem setSecStatus_key3 (v : SecStatus) (s : State) : (setSecStatus v s).key3 = s.key3 := rfl
@[simp] theorem setSecStatus_iv0 (v : SecStatus) (s : State) : (setSecStatus v s).iv0 = s.iv0 := rfl
@[simp] theorem setSecStatus_iv1 (v : SecStatus) (s : State) : (setSecStatus v s).iv1 = s.iv1 := rfl
@[simp] theorem setSecStatus_iv2 (v : SecStatus) (s : State) : (setSecStatus v s).iv2 = s.iv2 := rfl
@[simp] theorem setSecStatus_iv3 (v : SecStatus) (s : State) : (setSecStatus v s).iv3 = s.iv3 := rfl
@[simp] theorem setSecStatus_ivinM (v : SecStatus) (s : State) : (setSecStatus v s).ivinM = s.ivinM := rfl
@[simp] theorem setSecStatus_ivinA (v : SecStatus) (s : State) : (setSecStatus v s).ivinA = s.ivinA := rfl
@[simp] theorem setSecStatus_ivinAcc (v : SecStatus) (s : State) : (setSecStatus v s).ivinAcc = s.ivinAcc := rfl
@[simp] theorem setSecStatus_ivinFc (v : SecStatus) (s : State) : (setSecStatus v s).ivinFc = s.ivinFc := rfl
@[simp] theorem setSecStatus_info (v : SecStatus) (s : State) : (setSecStatus v s).info = s.info := rfl
@[simp] theorem setSecStatus_mem (v : SecStatus) (s : State) : (setSecStatus v s).mem = s.mem := rfl
@[simp] theorem setSecStatus_hostQueue (v : SecStatus) (s : State) : (setSecStatus v s).hostQueue = s.hostQueue := rfl
@[simp] theorem setSecStatus_resp (v : SecStatus) (s : State) : (setSecStatus v s).resp = s.resp := rfl
@[simp] theorem setSecStatus_latencies (v : SecStatus) (s : State) : (setSecStatus v s).latencies = s.latencies := rfl
@[simp] theorem setSecStatus_draw (v : SecStatus) (s : State) : (setSecStatus v s).draw = s.draw := rfl
@[simp] theorem setSecStatus_frameDraw (v : SecStatus) (s : State) : (setSecStatus v s).frameDraw = s.frameDraw := rfl
@[simp] theorem setSecStatus_resultDraw (v : SecStatus) (s : State) : (setSecStatus v s).resultDraw = s.resultDraw := rfl

/-! ### setMarker -/

@[simp] theorem setMarker_irqEn (v : Bool) (s : State) : (setMarker v s).irqEn = s.irqEn := rfl
@[simp] theorem setMarker_done (v : Bool) (s : State) : (setMarker v s).status.done = s.status.done := rfl
@[simp] theorem setMarker_outcome (v : Bool) (s : State) : (setMarker v s).status.outcome = s.status.outcome := rfl
@[simp] theorem setMarker_errCode (v : Bool) (s : State) : (setMarker v s).status.errCode = s.status.errCode := rfl
@[simp] theorem setMarker_secStatus (v : Bool) (s : State) : (setMarker v s).status.secStatus = s.status.secStatus := rfl
@[simp] theorem setMarker_marker (v : Bool) (s : State) : (setMarker v s).status.marker = v := rfl
@[simp] theorem setMarker_recStop (v : Bool) (s : State) : (setMarker v s).status.recStop = s.status.recStop := rfl
@[simp] theorem setMarker_cmdOverrun (v : Bool) (s : State) : (setMarker v s).status.cmdOverrun = s.status.cmdOverrun := rfl
@[simp] theorem setMarker_wrIgnored (v : Bool) (s : State) : (setMarker v s).status.wrIgnored = s.status.wrIgnored := rfl
@[simp] theorem setMarker_busErr (v : Bool) (s : State) : (setMarker v s).status.busErr = s.status.busErr := rfl
@[simp] theorem setMarker_lastOp (v : Bool) (s : State) : (setMarker v s).status.lastOp = s.status.lastOp := rfl
@[simp] theorem setMarker_phase (v : Bool) (s : State) : (setMarker v s).phase = s.phase := rfl
@[simp] theorem setMarker_frameLen (v : Bool) (s : State) : (setMarker v s).frameLen = s.frameLen := rfl
@[simp] theorem setMarker_keyLen (v : Bool) (s : State) : (setMarker v s).keyLen = s.keyLen := rfl
@[simp] theorem setMarker_ptLen (v : Bool) (s : State) : (setMarker v s).ptLen = s.ptLen := rfl
@[simp] theorem setMarker_recCount (v : Bool) (s : State) : (setMarker v s).recCount = s.recCount := rfl
@[simp] theorem setMarker_key0 (v : Bool) (s : State) : (setMarker v s).key0 = s.key0 := rfl
@[simp] theorem setMarker_key1 (v : Bool) (s : State) : (setMarker v s).key1 = s.key1 := rfl
@[simp] theorem setMarker_key2 (v : Bool) (s : State) : (setMarker v s).key2 = s.key2 := rfl
@[simp] theorem setMarker_key3 (v : Bool) (s : State) : (setMarker v s).key3 = s.key3 := rfl
@[simp] theorem setMarker_iv0 (v : Bool) (s : State) : (setMarker v s).iv0 = s.iv0 := rfl
@[simp] theorem setMarker_iv1 (v : Bool) (s : State) : (setMarker v s).iv1 = s.iv1 := rfl
@[simp] theorem setMarker_iv2 (v : Bool) (s : State) : (setMarker v s).iv2 = s.iv2 := rfl
@[simp] theorem setMarker_iv3 (v : Bool) (s : State) : (setMarker v s).iv3 = s.iv3 := rfl
@[simp] theorem setMarker_ivinM (v : Bool) (s : State) : (setMarker v s).ivinM = s.ivinM := rfl
@[simp] theorem setMarker_ivinA (v : Bool) (s : State) : (setMarker v s).ivinA = s.ivinA := rfl
@[simp] theorem setMarker_ivinAcc (v : Bool) (s : State) : (setMarker v s).ivinAcc = s.ivinAcc := rfl
@[simp] theorem setMarker_ivinFc (v : Bool) (s : State) : (setMarker v s).ivinFc = s.ivinFc := rfl
@[simp] theorem setMarker_info (v : Bool) (s : State) : (setMarker v s).info = s.info := rfl
@[simp] theorem setMarker_mem (v : Bool) (s : State) : (setMarker v s).mem = s.mem := rfl
@[simp] theorem setMarker_hostQueue (v : Bool) (s : State) : (setMarker v s).hostQueue = s.hostQueue := rfl
@[simp] theorem setMarker_resp (v : Bool) (s : State) : (setMarker v s).resp = s.resp := rfl
@[simp] theorem setMarker_latencies (v : Bool) (s : State) : (setMarker v s).latencies = s.latencies := rfl
@[simp] theorem setMarker_draw (v : Bool) (s : State) : (setMarker v s).draw = s.draw := rfl
@[simp] theorem setMarker_frameDraw (v : Bool) (s : State) : (setMarker v s).frameDraw = s.frameDraw := rfl
@[simp] theorem setMarker_resultDraw (v : Bool) (s : State) : (setMarker v s).resultDraw = s.resultDraw := rfl

/-! ### setRecStop -/

@[simp] theorem setRecStop_irqEn (v : RecStop) (s : State) : (setRecStop v s).irqEn = s.irqEn := rfl
@[simp] theorem setRecStop_done (v : RecStop) (s : State) : (setRecStop v s).status.done = s.status.done := rfl
@[simp] theorem setRecStop_outcome (v : RecStop) (s : State) : (setRecStop v s).status.outcome = s.status.outcome := rfl
@[simp] theorem setRecStop_errCode (v : RecStop) (s : State) : (setRecStop v s).status.errCode = s.status.errCode := rfl
@[simp] theorem setRecStop_secStatus (v : RecStop) (s : State) : (setRecStop v s).status.secStatus = s.status.secStatus := rfl
@[simp] theorem setRecStop_marker (v : RecStop) (s : State) : (setRecStop v s).status.marker = s.status.marker := rfl
@[simp] theorem setRecStop_recStop (v : RecStop) (s : State) : (setRecStop v s).status.recStop = v := rfl
@[simp] theorem setRecStop_cmdOverrun (v : RecStop) (s : State) : (setRecStop v s).status.cmdOverrun = s.status.cmdOverrun := rfl
@[simp] theorem setRecStop_wrIgnored (v : RecStop) (s : State) : (setRecStop v s).status.wrIgnored = s.status.wrIgnored := rfl
@[simp] theorem setRecStop_busErr (v : RecStop) (s : State) : (setRecStop v s).status.busErr = s.status.busErr := rfl
@[simp] theorem setRecStop_lastOp (v : RecStop) (s : State) : (setRecStop v s).status.lastOp = s.status.lastOp := rfl
@[simp] theorem setRecStop_phase (v : RecStop) (s : State) : (setRecStop v s).phase = s.phase := rfl
@[simp] theorem setRecStop_frameLen (v : RecStop) (s : State) : (setRecStop v s).frameLen = s.frameLen := rfl
@[simp] theorem setRecStop_keyLen (v : RecStop) (s : State) : (setRecStop v s).keyLen = s.keyLen := rfl
@[simp] theorem setRecStop_ptLen (v : RecStop) (s : State) : (setRecStop v s).ptLen = s.ptLen := rfl
@[simp] theorem setRecStop_recCount (v : RecStop) (s : State) : (setRecStop v s).recCount = s.recCount := rfl
@[simp] theorem setRecStop_key0 (v : RecStop) (s : State) : (setRecStop v s).key0 = s.key0 := rfl
@[simp] theorem setRecStop_key1 (v : RecStop) (s : State) : (setRecStop v s).key1 = s.key1 := rfl
@[simp] theorem setRecStop_key2 (v : RecStop) (s : State) : (setRecStop v s).key2 = s.key2 := rfl
@[simp] theorem setRecStop_key3 (v : RecStop) (s : State) : (setRecStop v s).key3 = s.key3 := rfl
@[simp] theorem setRecStop_iv0 (v : RecStop) (s : State) : (setRecStop v s).iv0 = s.iv0 := rfl
@[simp] theorem setRecStop_iv1 (v : RecStop) (s : State) : (setRecStop v s).iv1 = s.iv1 := rfl
@[simp] theorem setRecStop_iv2 (v : RecStop) (s : State) : (setRecStop v s).iv2 = s.iv2 := rfl
@[simp] theorem setRecStop_iv3 (v : RecStop) (s : State) : (setRecStop v s).iv3 = s.iv3 := rfl
@[simp] theorem setRecStop_ivinM (v : RecStop) (s : State) : (setRecStop v s).ivinM = s.ivinM := rfl
@[simp] theorem setRecStop_ivinA (v : RecStop) (s : State) : (setRecStop v s).ivinA = s.ivinA := rfl
@[simp] theorem setRecStop_ivinAcc (v : RecStop) (s : State) : (setRecStop v s).ivinAcc = s.ivinAcc := rfl
@[simp] theorem setRecStop_ivinFc (v : RecStop) (s : State) : (setRecStop v s).ivinFc = s.ivinFc := rfl
@[simp] theorem setRecStop_info (v : RecStop) (s : State) : (setRecStop v s).info = s.info := rfl
@[simp] theorem setRecStop_mem (v : RecStop) (s : State) : (setRecStop v s).mem = s.mem := rfl
@[simp] theorem setRecStop_hostQueue (v : RecStop) (s : State) : (setRecStop v s).hostQueue = s.hostQueue := rfl
@[simp] theorem setRecStop_resp (v : RecStop) (s : State) : (setRecStop v s).resp = s.resp := rfl
@[simp] theorem setRecStop_latencies (v : RecStop) (s : State) : (setRecStop v s).latencies = s.latencies := rfl
@[simp] theorem setRecStop_draw (v : RecStop) (s : State) : (setRecStop v s).draw = s.draw := rfl
@[simp] theorem setRecStop_frameDraw (v : RecStop) (s : State) : (setRecStop v s).frameDraw = s.frameDraw := rfl
@[simp] theorem setRecStop_resultDraw (v : RecStop) (s : State) : (setRecStop v s).resultDraw = s.resultDraw := rfl

/-! ### setWrIgnored -/

@[simp] theorem setWrIgnored_irqEn (s : State) : (setWrIgnored s).irqEn = s.irqEn := rfl
@[simp] theorem setWrIgnored_done (s : State) : (setWrIgnored s).status.done = s.status.done := rfl
@[simp] theorem setWrIgnored_outcome (s : State) : (setWrIgnored s).status.outcome = s.status.outcome := rfl
@[simp] theorem setWrIgnored_errCode (s : State) : (setWrIgnored s).status.errCode = s.status.errCode := rfl
@[simp] theorem setWrIgnored_secStatus (s : State) : (setWrIgnored s).status.secStatus = s.status.secStatus := rfl
@[simp] theorem setWrIgnored_marker (s : State) : (setWrIgnored s).status.marker = s.status.marker := rfl
@[simp] theorem setWrIgnored_recStop (s : State) : (setWrIgnored s).status.recStop = s.status.recStop := rfl
@[simp] theorem setWrIgnored_cmdOverrun (s : State) : (setWrIgnored s).status.cmdOverrun = s.status.cmdOverrun := rfl
@[simp] theorem setWrIgnored_wrIgnored (s : State) : (setWrIgnored s).status.wrIgnored = true := rfl
@[simp] theorem setWrIgnored_busErr (s : State) : (setWrIgnored s).status.busErr = s.status.busErr := rfl
@[simp] theorem setWrIgnored_lastOp (s : State) : (setWrIgnored s).status.lastOp = s.status.lastOp := rfl
@[simp] theorem setWrIgnored_phase (s : State) : (setWrIgnored s).phase = s.phase := rfl
@[simp] theorem setWrIgnored_frameLen (s : State) : (setWrIgnored s).frameLen = s.frameLen := rfl
@[simp] theorem setWrIgnored_keyLen (s : State) : (setWrIgnored s).keyLen = s.keyLen := rfl
@[simp] theorem setWrIgnored_ptLen (s : State) : (setWrIgnored s).ptLen = s.ptLen := rfl
@[simp] theorem setWrIgnored_recCount (s : State) : (setWrIgnored s).recCount = s.recCount := rfl
@[simp] theorem setWrIgnored_key0 (s : State) : (setWrIgnored s).key0 = s.key0 := rfl
@[simp] theorem setWrIgnored_key1 (s : State) : (setWrIgnored s).key1 = s.key1 := rfl
@[simp] theorem setWrIgnored_key2 (s : State) : (setWrIgnored s).key2 = s.key2 := rfl
@[simp] theorem setWrIgnored_key3 (s : State) : (setWrIgnored s).key3 = s.key3 := rfl
@[simp] theorem setWrIgnored_iv0 (s : State) : (setWrIgnored s).iv0 = s.iv0 := rfl
@[simp] theorem setWrIgnored_iv1 (s : State) : (setWrIgnored s).iv1 = s.iv1 := rfl
@[simp] theorem setWrIgnored_iv2 (s : State) : (setWrIgnored s).iv2 = s.iv2 := rfl
@[simp] theorem setWrIgnored_iv3 (s : State) : (setWrIgnored s).iv3 = s.iv3 := rfl
@[simp] theorem setWrIgnored_ivinM (s : State) : (setWrIgnored s).ivinM = s.ivinM := rfl
@[simp] theorem setWrIgnored_ivinA (s : State) : (setWrIgnored s).ivinA = s.ivinA := rfl
@[simp] theorem setWrIgnored_ivinAcc (s : State) : (setWrIgnored s).ivinAcc = s.ivinAcc := rfl
@[simp] theorem setWrIgnored_ivinFc (s : State) : (setWrIgnored s).ivinFc = s.ivinFc := rfl
@[simp] theorem setWrIgnored_info (s : State) : (setWrIgnored s).info = s.info := rfl
@[simp] theorem setWrIgnored_mem (s : State) : (setWrIgnored s).mem = s.mem := rfl
@[simp] theorem setWrIgnored_hostQueue (s : State) : (setWrIgnored s).hostQueue = s.hostQueue := rfl
@[simp] theorem setWrIgnored_resp (s : State) : (setWrIgnored s).resp = s.resp := rfl
@[simp] theorem setWrIgnored_latencies (s : State) : (setWrIgnored s).latencies = s.latencies := rfl
@[simp] theorem setWrIgnored_draw (s : State) : (setWrIgnored s).draw = s.draw := rfl
@[simp] theorem setWrIgnored_frameDraw (s : State) : (setWrIgnored s).frameDraw = s.frameDraw := rfl
@[simp] theorem setWrIgnored_resultDraw (s : State) : (setWrIgnored s).resultDraw = s.resultDraw := rfl

/-! ### setCmdOverrun -/

@[simp] theorem setCmdOverrun_irqEn (s : State) : (setCmdOverrun s).irqEn = s.irqEn := rfl
@[simp] theorem setCmdOverrun_done (s : State) : (setCmdOverrun s).status.done = s.status.done := rfl
@[simp] theorem setCmdOverrun_outcome (s : State) : (setCmdOverrun s).status.outcome = s.status.outcome := rfl
@[simp] theorem setCmdOverrun_errCode (s : State) : (setCmdOverrun s).status.errCode = s.status.errCode := rfl
@[simp] theorem setCmdOverrun_secStatus (s : State) : (setCmdOverrun s).status.secStatus = s.status.secStatus := rfl
@[simp] theorem setCmdOverrun_marker (s : State) : (setCmdOverrun s).status.marker = s.status.marker := rfl
@[simp] theorem setCmdOverrun_recStop (s : State) : (setCmdOverrun s).status.recStop = s.status.recStop := rfl
@[simp] theorem setCmdOverrun_cmdOverrun (s : State) : (setCmdOverrun s).status.cmdOverrun = true := rfl
@[simp] theorem setCmdOverrun_wrIgnored (s : State) : (setCmdOverrun s).status.wrIgnored = s.status.wrIgnored := rfl
@[simp] theorem setCmdOverrun_busErr (s : State) : (setCmdOverrun s).status.busErr = s.status.busErr := rfl
@[simp] theorem setCmdOverrun_lastOp (s : State) : (setCmdOverrun s).status.lastOp = s.status.lastOp := rfl
@[simp] theorem setCmdOverrun_phase (s : State) : (setCmdOverrun s).phase = s.phase := rfl
@[simp] theorem setCmdOverrun_frameLen (s : State) : (setCmdOverrun s).frameLen = s.frameLen := rfl
@[simp] theorem setCmdOverrun_keyLen (s : State) : (setCmdOverrun s).keyLen = s.keyLen := rfl
@[simp] theorem setCmdOverrun_ptLen (s : State) : (setCmdOverrun s).ptLen = s.ptLen := rfl
@[simp] theorem setCmdOverrun_recCount (s : State) : (setCmdOverrun s).recCount = s.recCount := rfl
@[simp] theorem setCmdOverrun_key0 (s : State) : (setCmdOverrun s).key0 = s.key0 := rfl
@[simp] theorem setCmdOverrun_key1 (s : State) : (setCmdOverrun s).key1 = s.key1 := rfl
@[simp] theorem setCmdOverrun_key2 (s : State) : (setCmdOverrun s).key2 = s.key2 := rfl
@[simp] theorem setCmdOverrun_key3 (s : State) : (setCmdOverrun s).key3 = s.key3 := rfl
@[simp] theorem setCmdOverrun_iv0 (s : State) : (setCmdOverrun s).iv0 = s.iv0 := rfl
@[simp] theorem setCmdOverrun_iv1 (s : State) : (setCmdOverrun s).iv1 = s.iv1 := rfl
@[simp] theorem setCmdOverrun_iv2 (s : State) : (setCmdOverrun s).iv2 = s.iv2 := rfl
@[simp] theorem setCmdOverrun_iv3 (s : State) : (setCmdOverrun s).iv3 = s.iv3 := rfl
@[simp] theorem setCmdOverrun_ivinM (s : State) : (setCmdOverrun s).ivinM = s.ivinM := rfl
@[simp] theorem setCmdOverrun_ivinA (s : State) : (setCmdOverrun s).ivinA = s.ivinA := rfl
@[simp] theorem setCmdOverrun_ivinAcc (s : State) : (setCmdOverrun s).ivinAcc = s.ivinAcc := rfl
@[simp] theorem setCmdOverrun_ivinFc (s : State) : (setCmdOverrun s).ivinFc = s.ivinFc := rfl
@[simp] theorem setCmdOverrun_info (s : State) : (setCmdOverrun s).info = s.info := rfl
@[simp] theorem setCmdOverrun_mem (s : State) : (setCmdOverrun s).mem = s.mem := rfl
@[simp] theorem setCmdOverrun_hostQueue (s : State) : (setCmdOverrun s).hostQueue = s.hostQueue := rfl
@[simp] theorem setCmdOverrun_resp (s : State) : (setCmdOverrun s).resp = s.resp := rfl
@[simp] theorem setCmdOverrun_latencies (s : State) : (setCmdOverrun s).latencies = s.latencies := rfl
@[simp] theorem setCmdOverrun_draw (s : State) : (setCmdOverrun s).draw = s.draw := rfl
@[simp] theorem setCmdOverrun_frameDraw (s : State) : (setCmdOverrun s).frameDraw = s.frameDraw := rfl
@[simp] theorem setCmdOverrun_resultDraw (s : State) : (setCmdOverrun s).resultDraw = s.resultDraw := rfl

/-! ### writePt -/

@[simp] theorem writePt_irqEn (p : List Byte) (s : State) : (writePt p s).irqEn = s.irqEn := rfl
@[simp] theorem writePt_status (p : List Byte) (s : State) : (writePt p s).status = s.status := rfl
@[simp] theorem writePt_phase (p : List Byte) (s : State) : (writePt p s).phase = s.phase := rfl
@[simp] theorem writePt_frameLen (p : List Byte) (s : State) : (writePt p s).frameLen = s.frameLen := rfl
@[simp] theorem writePt_keyLen (p : List Byte) (s : State) : (writePt p s).keyLen = s.keyLen := rfl
@[simp] theorem writePt_ptLen (p : List Byte) (s : State) : (writePt p s).ptLen = BitVec.ofNat 9 p.length := rfl
@[simp] theorem writePt_recCount (p : List Byte) (s : State) : (writePt p s).recCount = s.recCount := rfl
@[simp] theorem writePt_key0 (p : List Byte) (s : State) : (writePt p s).key0 = s.key0 := rfl
@[simp] theorem writePt_key1 (p : List Byte) (s : State) : (writePt p s).key1 = s.key1 := rfl
@[simp] theorem writePt_key2 (p : List Byte) (s : State) : (writePt p s).key2 = s.key2 := rfl
@[simp] theorem writePt_key3 (p : List Byte) (s : State) : (writePt p s).key3 = s.key3 := rfl
@[simp] theorem writePt_iv0 (p : List Byte) (s : State) : (writePt p s).iv0 = s.iv0 := rfl
@[simp] theorem writePt_iv1 (p : List Byte) (s : State) : (writePt p s).iv1 = s.iv1 := rfl
@[simp] theorem writePt_iv2 (p : List Byte) (s : State) : (writePt p s).iv2 = s.iv2 := rfl
@[simp] theorem writePt_iv3 (p : List Byte) (s : State) : (writePt p s).iv3 = s.iv3 := rfl
@[simp] theorem writePt_ivinM (p : List Byte) (s : State) : (writePt p s).ivinM = s.ivinM := rfl
@[simp] theorem writePt_ivinA (p : List Byte) (s : State) : (writePt p s).ivinA = s.ivinA := rfl
@[simp] theorem writePt_ivinAcc (p : List Byte) (s : State) : (writePt p s).ivinAcc = s.ivinAcc := rfl
@[simp] theorem writePt_ivinFc (p : List Byte) (s : State) : (writePt p s).ivinFc = s.ivinFc := rfl
@[simp] theorem writePt_info (p : List Byte) (s : State) : (writePt p s).info = s.info := rfl
@[simp] theorem writePt_mem (p : List Byte) (s : State) : (writePt p s).mem = Memory.writeBytes (Memory.forget s.mem ptBase (ptBase + Config.pPtMax)) ptBase p := rfl
@[simp] theorem writePt_hostQueue (p : List Byte) (s : State) : (writePt p s).hostQueue = s.hostQueue := rfl
@[simp] theorem writePt_resp (p : List Byte) (s : State) : (writePt p s).resp = s.resp := rfl
@[simp] theorem writePt_latencies (p : List Byte) (s : State) : (writePt p s).latencies = s.latencies := rfl
@[simp] theorem writePt_draw (p : List Byte) (s : State) : (writePt p s).draw = s.draw := rfl
@[simp] theorem writePt_frameDraw (p : List Byte) (s : State) : (writePt p s).frameDraw = s.frameDraw := rfl
@[simp] theorem writePt_resultDraw (p : List Byte) (s : State) : (writePt p s).resultDraw = s.resultDraw := rfl

/-! ### writeIv -/

@[simp] theorem writeIv_irqEn (v : List Byte) (s : State) : (writeIv v s).irqEn = s.irqEn := rfl
@[simp] theorem writeIv_status (v : List Byte) (s : State) : (writeIv v s).status = s.status := rfl
@[simp] theorem writeIv_phase (v : List Byte) (s : State) : (writeIv v s).phase = s.phase := rfl
@[simp] theorem writeIv_frameLen (v : List Byte) (s : State) : (writeIv v s).frameLen = s.frameLen := rfl
@[simp] theorem writeIv_keyLen (v : List Byte) (s : State) : (writeIv v s).keyLen = s.keyLen := rfl
@[simp] theorem writeIv_ptLen (v : List Byte) (s : State) : (writeIv v s).ptLen = s.ptLen := rfl
@[simp] theorem writeIv_recCount (v : List Byte) (s : State) : (writeIv v s).recCount = s.recCount := rfl
@[simp] theorem writeIv_key0 (v : List Byte) (s : State) : (writeIv v s).key0 = s.key0 := rfl
@[simp] theorem writeIv_key1 (v : List Byte) (s : State) : (writeIv v s).key1 = s.key1 := rfl
@[simp] theorem writeIv_key2 (v : List Byte) (s : State) : (writeIv v s).key2 = s.key2 := rfl
@[simp] theorem writeIv_key3 (v : List Byte) (s : State) : (writeIv v s).key3 = s.key3 := rfl
@[simp] theorem writeIv_iv0 (v : List Byte) (s : State) : (writeIv v s).iv0 = wordOfBytes (byteAt v 0) (byteAt v 1) (byteAt v 2) (byteAt v 3) := rfl
@[simp] theorem writeIv_iv1 (v : List Byte) (s : State) : (writeIv v s).iv1 = wordOfBytes (byteAt v 4) (byteAt v 5) (byteAt v 6) (byteAt v 7) := rfl
@[simp] theorem writeIv_iv2 (v : List Byte) (s : State) : (writeIv v s).iv2 = wordOfBytes (byteAt v 8) (byteAt v 9) (byteAt v 10) (byteAt v 11) := rfl
@[simp] theorem writeIv_iv3 (v : List Byte) (s : State) : (writeIv v s).iv3 = wordOfBytes (byteAt v 12) (byteAt v 13) (byteAt v 14) (byteAt v 15) := rfl
@[simp] theorem writeIv_ivinM (v : List Byte) (s : State) : (writeIv v s).ivinM = s.ivinM := rfl
@[simp] theorem writeIv_ivinA (v : List Byte) (s : State) : (writeIv v s).ivinA = s.ivinA := rfl
@[simp] theorem writeIv_ivinAcc (v : List Byte) (s : State) : (writeIv v s).ivinAcc = s.ivinAcc := rfl
@[simp] theorem writeIv_ivinFc (v : List Byte) (s : State) : (writeIv v s).ivinFc = s.ivinFc := rfl
@[simp] theorem writeIv_info (v : List Byte) (s : State) : (writeIv v s).info = s.info := rfl
@[simp] theorem writeIv_mem (v : List Byte) (s : State) : (writeIv v s).mem = s.mem := rfl
@[simp] theorem writeIv_hostQueue (v : List Byte) (s : State) : (writeIv v s).hostQueue = s.hostQueue := rfl
@[simp] theorem writeIv_resp (v : List Byte) (s : State) : (writeIv v s).resp = s.resp := rfl
@[simp] theorem writeIv_latencies (v : List Byte) (s : State) : (writeIv v s).latencies = s.latencies := rfl
@[simp] theorem writeIv_draw (v : List Byte) (s : State) : (writeIv v s).draw = s.draw := rfl
@[simp] theorem writeIv_frameDraw (v : List Byte) (s : State) : (writeIv v s).frameDraw = s.frameDraw := rfl
@[simp] theorem writeIv_resultDraw (v : List Byte) (s : State) : (writeIv v s).resultDraw = s.resultDraw := rfl

/-! ### issueFor -/

@[simp] theorem issueFor_irqEn (w : Word) (left : Nat) (s : State) : (issueFor w left s).irqEn = s.irqEn := rfl
@[simp] theorem issueFor_done (w : Word) (left : Nat) (s : State) : (issueFor w left s).status.done = false := rfl
@[simp] theorem issueFor_outcome (w : Word) (left : Nat) (s : State) : (issueFor w left s).status.outcome = s.status.outcome := rfl
@[simp] theorem issueFor_errCode (w : Word) (left : Nat) (s : State) : (issueFor w left s).status.errCode = s.status.errCode := rfl
@[simp] theorem issueFor_secStatus (w : Word) (left : Nat) (s : State) : (issueFor w left s).status.secStatus = s.status.secStatus := rfl
@[simp] theorem issueFor_marker (w : Word) (left : Nat) (s : State) : (issueFor w left s).status.marker = s.status.marker := rfl
@[simp] theorem issueFor_recStop (w : Word) (left : Nat) (s : State) : (issueFor w left s).status.recStop = s.status.recStop := rfl
@[simp] theorem issueFor_cmdOverrun (w : Word) (left : Nat) (s : State) : (issueFor w left s).status.cmdOverrun = s.status.cmdOverrun := rfl
@[simp] theorem issueFor_wrIgnored (w : Word) (left : Nat) (s : State) : (issueFor w left s).status.wrIgnored = s.status.wrIgnored := rfl
@[simp] theorem issueFor_busErr (w : Word) (left : Nat) (s : State) : (issueFor w left s).status.busErr = s.status.busErr := rfl
@[simp] theorem issueFor_lastOp (w : Word) (left : Nat) (s : State) : (issueFor w left s).status.lastOp = wordOp w := rfl
@[simp] theorem issueFor_phase (w : Word) (left : Nat) (s : State) : (issueFor w left s).phase = .busy w left := rfl
@[simp] theorem issueFor_frameLen (w : Word) (left : Nat) (s : State) : (issueFor w left s).frameLen = s.frameLen := rfl
@[simp] theorem issueFor_keyLen (w : Word) (left : Nat) (s : State) : (issueFor w left s).keyLen = s.keyLen := rfl
@[simp] theorem issueFor_ptLen (w : Word) (left : Nat) (s : State) : (issueFor w left s).ptLen = s.ptLen := rfl
@[simp] theorem issueFor_recCount (w : Word) (left : Nat) (s : State) : (issueFor w left s).recCount = s.recCount := rfl
@[simp] theorem issueFor_key0 (w : Word) (left : Nat) (s : State) : (issueFor w left s).key0 = s.key0 := rfl
@[simp] theorem issueFor_key1 (w : Word) (left : Nat) (s : State) : (issueFor w left s).key1 = s.key1 := rfl
@[simp] theorem issueFor_key2 (w : Word) (left : Nat) (s : State) : (issueFor w left s).key2 = s.key2 := rfl
@[simp] theorem issueFor_key3 (w : Word) (left : Nat) (s : State) : (issueFor w left s).key3 = s.key3 := rfl
@[simp] theorem issueFor_iv0 (w : Word) (left : Nat) (s : State) : (issueFor w left s).iv0 = s.iv0 := rfl
@[simp] theorem issueFor_iv1 (w : Word) (left : Nat) (s : State) : (issueFor w left s).iv1 = s.iv1 := rfl
@[simp] theorem issueFor_iv2 (w : Word) (left : Nat) (s : State) : (issueFor w left s).iv2 = s.iv2 := rfl
@[simp] theorem issueFor_iv3 (w : Word) (left : Nat) (s : State) : (issueFor w left s).iv3 = s.iv3 := rfl
@[simp] theorem issueFor_ivinM (w : Word) (left : Nat) (s : State) : (issueFor w left s).ivinM = s.ivinM := rfl
@[simp] theorem issueFor_ivinA (w : Word) (left : Nat) (s : State) : (issueFor w left s).ivinA = s.ivinA := rfl
@[simp] theorem issueFor_ivinAcc (w : Word) (left : Nat) (s : State) : (issueFor w left s).ivinAcc = s.ivinAcc := rfl
@[simp] theorem issueFor_ivinFc (w : Word) (left : Nat) (s : State) : (issueFor w left s).ivinFc = s.ivinFc := rfl
@[simp] theorem issueFor_info (w : Word) (left : Nat) (s : State) : (issueFor w left s).info = s.info := rfl
@[simp] theorem issueFor_mem (w : Word) (left : Nat) (s : State) : (issueFor w left s).mem = s.mem := rfl
@[simp] theorem issueFor_hostQueue (w : Word) (left : Nat) (s : State) : (issueFor w left s).hostQueue = s.hostQueue := rfl
@[simp] theorem issueFor_resp (w : Word) (left : Nat) (s : State) : (issueFor w left s).resp = s.resp := rfl
@[simp] theorem issueFor_latencies (w : Word) (left : Nat) (s : State) : (issueFor w left s).latencies = s.latencies := rfl
@[simp] theorem issueFor_draw (w : Word) (left : Nat) (s : State) : (issueFor w left s).draw = s.draw := rfl
@[simp] theorem issueFor_frameDraw (w : Word) (left : Nat) (s : State) : (issueFor w left s).frameDraw = s.frameDraw := rfl
@[simp] theorem issueFor_resultDraw (w : Word) (left : Nat) (s : State) : (issueFor w left s).resultDraw = s.resultDraw := rfl

/-! ### issue -/

@[simp] theorem issue_irqEn (w : Word) (s : State) : (issue w s).irqEn = s.irqEn := rfl
@[simp] theorem issue_done (w : Word) (s : State) : (issue w s).status.done = false := rfl
@[simp] theorem issue_outcome (w : Word) (s : State) : (issue w s).status.outcome = s.status.outcome := rfl
@[simp] theorem issue_errCode (w : Word) (s : State) : (issue w s).status.errCode = s.status.errCode := rfl
@[simp] theorem issue_secStatus (w : Word) (s : State) : (issue w s).status.secStatus = s.status.secStatus := rfl
@[simp] theorem issue_marker (w : Word) (s : State) : (issue w s).status.marker = s.status.marker := rfl
@[simp] theorem issue_recStop (w : Word) (s : State) : (issue w s).status.recStop = s.status.recStop := rfl
@[simp] theorem issue_cmdOverrun (w : Word) (s : State) : (issue w s).status.cmdOverrun = s.status.cmdOverrun := rfl
@[simp] theorem issue_wrIgnored (w : Word) (s : State) : (issue w s).status.wrIgnored = s.status.wrIgnored := rfl
@[simp] theorem issue_busErr (w : Word) (s : State) : (issue w s).status.busErr = s.status.busErr := rfl
@[simp] theorem issue_lastOp (w : Word) (s : State) : (issue w s).status.lastOp = wordOp w := rfl
@[simp] theorem issue_phase (w : Word) (s : State) : (issue w s).phase = .busy w (s.latencies.headD 0) := rfl
@[simp] theorem issue_frameLen (w : Word) (s : State) : (issue w s).frameLen = s.frameLen := rfl
@[simp] theorem issue_keyLen (w : Word) (s : State) : (issue w s).keyLen = s.keyLen := rfl
@[simp] theorem issue_ptLen (w : Word) (s : State) : (issue w s).ptLen = s.ptLen := rfl
@[simp] theorem issue_recCount (w : Word) (s : State) : (issue w s).recCount = s.recCount := rfl
@[simp] theorem issue_key0 (w : Word) (s : State) : (issue w s).key0 = s.key0 := rfl
@[simp] theorem issue_key1 (w : Word) (s : State) : (issue w s).key1 = s.key1 := rfl
@[simp] theorem issue_key2 (w : Word) (s : State) : (issue w s).key2 = s.key2 := rfl
@[simp] theorem issue_key3 (w : Word) (s : State) : (issue w s).key3 = s.key3 := rfl
@[simp] theorem issue_iv0 (w : Word) (s : State) : (issue w s).iv0 = s.iv0 := rfl
@[simp] theorem issue_iv1 (w : Word) (s : State) : (issue w s).iv1 = s.iv1 := rfl
@[simp] theorem issue_iv2 (w : Word) (s : State) : (issue w s).iv2 = s.iv2 := rfl
@[simp] theorem issue_iv3 (w : Word) (s : State) : (issue w s).iv3 = s.iv3 := rfl
@[simp] theorem issue_ivinM (w : Word) (s : State) : (issue w s).ivinM = s.ivinM := rfl
@[simp] theorem issue_ivinA (w : Word) (s : State) : (issue w s).ivinA = s.ivinA := rfl
@[simp] theorem issue_ivinAcc (w : Word) (s : State) : (issue w s).ivinAcc = s.ivinAcc := rfl
@[simp] theorem issue_ivinFc (w : Word) (s : State) : (issue w s).ivinFc = s.ivinFc := rfl
@[simp] theorem issue_info (w : Word) (s : State) : (issue w s).info = s.info := rfl
@[simp] theorem issue_mem (w : Word) (s : State) : (issue w s).mem = s.mem := rfl
@[simp] theorem issue_hostQueue (w : Word) (s : State) : (issue w s).hostQueue = s.hostQueue := rfl
@[simp] theorem issue_resp (w : Word) (s : State) : (issue w s).resp = s.resp := rfl
@[simp] theorem issue_latencies (w : Word) (s : State) : (issue w s).latencies = s.latencies.tail := rfl
@[simp] theorem issue_draw (w : Word) (s : State) : (issue w s).draw = s.draw := rfl
@[simp] theorem issue_frameDraw (w : Word) (s : State) : (issue w s).frameDraw = s.frameDraw := rfl
@[simp] theorem issue_resultDraw (w : Word) (s : State) : (issue w s).resultDraw = s.resultDraw := rfl

/-! ### clearWork -/

@[simp] theorem clearWork_irqEn (s : State) : (clearWork s).irqEn = s.irqEn := rfl
@[simp] theorem clearWork_done (s : State) : (clearWork s).status.done = s.status.done := rfl
@[simp] theorem clearWork_outcome (s : State) : (clearWork s).status.outcome = s.status.outcome := rfl
@[simp] theorem clearWork_errCode (s : State) : (clearWork s).status.errCode = s.status.errCode := rfl
@[simp] theorem clearWork_secStatus (s : State) : (clearWork s).status.secStatus = .none := rfl
@[simp] theorem clearWork_marker (s : State) : (clearWork s).status.marker = false := rfl
@[simp] theorem clearWork_recStop (s : State) : (clearWork s).status.recStop = .notRun := rfl
@[simp] theorem clearWork_cmdOverrun (s : State) : (clearWork s).status.cmdOverrun = s.status.cmdOverrun := rfl
@[simp] theorem clearWork_wrIgnored (s : State) : (clearWork s).status.wrIgnored = s.status.wrIgnored := rfl
@[simp] theorem clearWork_busErr (s : State) : (clearWork s).status.busErr = s.status.busErr := rfl
@[simp] theorem clearWork_lastOp (s : State) : (clearWork s).status.lastOp = s.status.lastOp := rfl
@[simp] theorem clearWork_phase (s : State) : (clearWork s).phase = s.phase := rfl
@[simp] theorem clearWork_frameLen (s : State) : (clearWork s).frameLen = s.frameLen := rfl
@[simp] theorem clearWork_keyLen (s : State) : (clearWork s).keyLen = s.keyLen := rfl
@[simp] theorem clearWork_ptLen (s : State) : (clearWork s).ptLen = 0#9 := rfl
@[simp] theorem clearWork_recCount (s : State) : (clearWork s).recCount = 0#8 := rfl
@[simp] theorem clearWork_key0 (s : State) : (clearWork s).key0 = s.key0 := rfl
@[simp] theorem clearWork_key1 (s : State) : (clearWork s).key1 = s.key1 := rfl
@[simp] theorem clearWork_key2 (s : State) : (clearWork s).key2 = s.key2 := rfl
@[simp] theorem clearWork_key3 (s : State) : (clearWork s).key3 = s.key3 := rfl
@[simp] theorem clearWork_iv0 (s : State) : (clearWork s).iv0 = s.iv0 := rfl
@[simp] theorem clearWork_iv1 (s : State) : (clearWork s).iv1 = s.iv1 := rfl
@[simp] theorem clearWork_iv2 (s : State) : (clearWork s).iv2 = s.iv2 := rfl
@[simp] theorem clearWork_iv3 (s : State) : (clearWork s).iv3 = s.iv3 := rfl
@[simp] theorem clearWork_ivinM (s : State) : (clearWork s).ivinM = s.ivinM := rfl
@[simp] theorem clearWork_ivinA (s : State) : (clearWork s).ivinA = s.ivinA := rfl
@[simp] theorem clearWork_ivinAcc (s : State) : (clearWork s).ivinAcc = s.ivinAcc := rfl
@[simp] theorem clearWork_ivinFc (s : State) : (clearWork s).ivinFc = s.ivinFc := rfl
@[simp] theorem clearWork_info (s : State) : (clearWork s).info = s.info := rfl
@[simp] theorem clearWork_mem (s : State) : (clearWork s).mem = Memory.forget s.mem ptBase recEnd := rfl
@[simp] theorem clearWork_hostQueue (s : State) : (clearWork s).hostQueue = s.hostQueue := rfl
@[simp] theorem clearWork_resp (s : State) : (clearWork s).resp = s.resp := rfl
@[simp] theorem clearWork_latencies (s : State) : (clearWork s).latencies = s.latencies := rfl
@[simp] theorem clearWork_draw (s : State) : (clearWork s).draw = s.draw := rfl
@[simp] theorem clearWork_frameDraw (s : State) : (clearWork s).frameDraw = s.frameDraw := rfl
@[simp] theorem clearWork_resultDraw (s : State) : (clearWork s).resultDraw = s.resultDraw := rfl

/-! ### finish -/

@[simp] theorem finish_irqEn (o : OutcomeClass) (e : ErrCode) (s : State) : (finish o e s).irqEn = s.irqEn := rfl
@[simp] theorem finish_done (o : OutcomeClass) (e : ErrCode) (s : State) : (finish o e s).status.done = true := rfl
@[simp] theorem finish_outcome (o : OutcomeClass) (e : ErrCode) (s : State) : (finish o e s).status.outcome = o := rfl
@[simp] theorem finish_errCode (o : OutcomeClass) (e : ErrCode) (s : State) : (finish o e s).status.errCode = e := rfl
@[simp] theorem finish_secStatus (o : OutcomeClass) (e : ErrCode) (s : State) : (finish o e s).status.secStatus = s.status.secStatus := rfl
@[simp] theorem finish_marker (o : OutcomeClass) (e : ErrCode) (s : State) : (finish o e s).status.marker = s.status.marker := rfl
@[simp] theorem finish_recStop (o : OutcomeClass) (e : ErrCode) (s : State) : (finish o e s).status.recStop = s.status.recStop := rfl
@[simp] theorem finish_cmdOverrun (o : OutcomeClass) (e : ErrCode) (s : State) : (finish o e s).status.cmdOverrun = s.status.cmdOverrun := rfl
@[simp] theorem finish_wrIgnored (o : OutcomeClass) (e : ErrCode) (s : State) : (finish o e s).status.wrIgnored = s.status.wrIgnored := rfl
@[simp] theorem finish_busErr (o : OutcomeClass) (e : ErrCode) (s : State) : (finish o e s).status.busErr = s.status.busErr := rfl
@[simp] theorem finish_lastOp (o : OutcomeClass) (e : ErrCode) (s : State) : (finish o e s).status.lastOp = s.status.lastOp := rfl
@[simp] theorem finish_phase (o : OutcomeClass) (e : ErrCode) (s : State) : (finish o e s).phase = .idle := rfl
@[simp] theorem finish_frameLen (o : OutcomeClass) (e : ErrCode) (s : State) : (finish o e s).frameLen = s.frameLen := rfl
@[simp] theorem finish_keyLen (o : OutcomeClass) (e : ErrCode) (s : State) : (finish o e s).keyLen = s.keyLen := rfl
@[simp] theorem finish_ptLen (o : OutcomeClass) (e : ErrCode) (s : State) : (finish o e s).ptLen = s.ptLen := rfl
@[simp] theorem finish_recCount (o : OutcomeClass) (e : ErrCode) (s : State) : (finish o e s).recCount = s.recCount := rfl
@[simp] theorem finish_key0 (o : OutcomeClass) (e : ErrCode) (s : State) : (finish o e s).key0 = s.key0 := rfl
@[simp] theorem finish_key1 (o : OutcomeClass) (e : ErrCode) (s : State) : (finish o e s).key1 = s.key1 := rfl
@[simp] theorem finish_key2 (o : OutcomeClass) (e : ErrCode) (s : State) : (finish o e s).key2 = s.key2 := rfl
@[simp] theorem finish_key3 (o : OutcomeClass) (e : ErrCode) (s : State) : (finish o e s).key3 = s.key3 := rfl
@[simp] theorem finish_iv0 (o : OutcomeClass) (e : ErrCode) (s : State) : (finish o e s).iv0 = s.iv0 := rfl
@[simp] theorem finish_iv1 (o : OutcomeClass) (e : ErrCode) (s : State) : (finish o e s).iv1 = s.iv1 := rfl
@[simp] theorem finish_iv2 (o : OutcomeClass) (e : ErrCode) (s : State) : (finish o e s).iv2 = s.iv2 := rfl
@[simp] theorem finish_iv3 (o : OutcomeClass) (e : ErrCode) (s : State) : (finish o e s).iv3 = s.iv3 := rfl
@[simp] theorem finish_ivinM (o : OutcomeClass) (e : ErrCode) (s : State) : (finish o e s).ivinM = s.ivinM := rfl
@[simp] theorem finish_ivinA (o : OutcomeClass) (e : ErrCode) (s : State) : (finish o e s).ivinA = s.ivinA := rfl
@[simp] theorem finish_ivinAcc (o : OutcomeClass) (e : ErrCode) (s : State) : (finish o e s).ivinAcc = s.ivinAcc := rfl
@[simp] theorem finish_ivinFc (o : OutcomeClass) (e : ErrCode) (s : State) : (finish o e s).ivinFc = s.ivinFc := rfl
@[simp] theorem finish_info (o : OutcomeClass) (e : ErrCode) (s : State) : (finish o e s).info = s.info := rfl
@[simp] theorem finish_mem (o : OutcomeClass) (e : ErrCode) (s : State) : (finish o e s).mem = s.mem := rfl
@[simp] theorem finish_hostQueue (o : OutcomeClass) (e : ErrCode) (s : State) : (finish o e s).hostQueue = s.hostQueue := rfl
@[simp] theorem finish_resp (o : OutcomeClass) (e : ErrCode) (s : State) : (finish o e s).resp = s.resp := rfl
@[simp] theorem finish_latencies (o : OutcomeClass) (e : ErrCode) (s : State) : (finish o e s).latencies = s.latencies := rfl
@[simp] theorem finish_draw (o : OutcomeClass) (e : ErrCode) (s : State) : (finish o e s).draw = s.draw + 1 := rfl
@[simp] theorem finish_frameDraw (o : OutcomeClass) (e : ErrCode) (s : State) : (finish o e s).frameDraw = s.frameDraw := rfl
@[simp] theorem finish_resultDraw (o : OutcomeClass) (e : ErrCode) (s : State) : (finish o e s).resultDraw = s.draw := rfl

/-! ### setInfo -/

@[simp] theorem setInfo_irqEn (f : FrameInfo) (s : State) : (setInfo f s).irqEn = s.irqEn := rfl
@[simp] theorem setInfo_done (f : FrameInfo) (s : State) : (setInfo f s).status.done = s.status.done := rfl
@[simp] theorem setInfo_outcome (f : FrameInfo) (s : State) : (setInfo f s).status.outcome = s.status.outcome := rfl
@[simp] theorem setInfo_errCode (f : FrameInfo) (s : State) : (setInfo f s).status.errCode = s.status.errCode := rfl
@[simp] theorem setInfo_secStatus (f : FrameInfo) (s : State) : (setInfo f s).status.secStatus = frameSecStatus f := rfl
@[simp] theorem setInfo_marker (f : FrameInfo) (s : State) : (setInfo f s).status.marker = s.status.marker := rfl
@[simp] theorem setInfo_recStop (f : FrameInfo) (s : State) : (setInfo f s).status.recStop = s.status.recStop := rfl
@[simp] theorem setInfo_cmdOverrun (f : FrameInfo) (s : State) : (setInfo f s).status.cmdOverrun = s.status.cmdOverrun := rfl
@[simp] theorem setInfo_wrIgnored (f : FrameInfo) (s : State) : (setInfo f s).status.wrIgnored = s.status.wrIgnored := rfl
@[simp] theorem setInfo_busErr (f : FrameInfo) (s : State) : (setInfo f s).status.busErr = s.status.busErr := rfl
@[simp] theorem setInfo_lastOp (f : FrameInfo) (s : State) : (setInfo f s).status.lastOp = s.status.lastOp := rfl
@[simp] theorem setInfo_phase (f : FrameInfo) (s : State) : (setInfo f s).phase = s.phase := rfl
@[simp] theorem setInfo_frameLen (f : FrameInfo) (s : State) : (setInfo f s).frameLen = s.frameLen := rfl
@[simp] theorem setInfo_keyLen (f : FrameInfo) (s : State) : (setInfo f s).keyLen = s.keyLen := rfl
@[simp] theorem setInfo_ptLen (f : FrameInfo) (s : State) : (setInfo f s).ptLen = s.ptLen := rfl
@[simp] theorem setInfo_recCount (f : FrameInfo) (s : State) : (setInfo f s).recCount = s.recCount := rfl
@[simp] theorem setInfo_key0 (f : FrameInfo) (s : State) : (setInfo f s).key0 = s.key0 := rfl
@[simp] theorem setInfo_key1 (f : FrameInfo) (s : State) : (setInfo f s).key1 = s.key1 := rfl
@[simp] theorem setInfo_key2 (f : FrameInfo) (s : State) : (setInfo f s).key2 = s.key2 := rfl
@[simp] theorem setInfo_key3 (f : FrameInfo) (s : State) : (setInfo f s).key3 = s.key3 := rfl
@[simp] theorem setInfo_iv0 (f : FrameInfo) (s : State) : (setInfo f s).iv0 = s.iv0 := rfl
@[simp] theorem setInfo_iv1 (f : FrameInfo) (s : State) : (setInfo f s).iv1 = s.iv1 := rfl
@[simp] theorem setInfo_iv2 (f : FrameInfo) (s : State) : (setInfo f s).iv2 = s.iv2 := rfl
@[simp] theorem setInfo_iv3 (f : FrameInfo) (s : State) : (setInfo f s).iv3 = s.iv3 := rfl
@[simp] theorem setInfo_ivinM (f : FrameInfo) (s : State) : (setInfo f s).ivinM = s.ivinM := rfl
@[simp] theorem setInfo_ivinA (f : FrameInfo) (s : State) : (setInfo f s).ivinA = s.ivinA := rfl
@[simp] theorem setInfo_ivinAcc (f : FrameInfo) (s : State) : (setInfo f s).ivinAcc = s.ivinAcc := rfl
@[simp] theorem setInfo_ivinFc (f : FrameInfo) (s : State) : (setInfo f s).ivinFc = s.ivinFc := rfl
@[simp] theorem setInfo_info (f : FrameInfo) (s : State) : (setInfo f s).info = f := rfl
@[simp] theorem setInfo_mem (f : FrameInfo) (s : State) : (setInfo f s).mem = s.mem := rfl
@[simp] theorem setInfo_hostQueue (f : FrameInfo) (s : State) : (setInfo f s).hostQueue = s.hostQueue := rfl
@[simp] theorem setInfo_resp (f : FrameInfo) (s : State) : (setInfo f s).resp = s.resp := rfl
@[simp] theorem setInfo_latencies (f : FrameInfo) (s : State) : (setInfo f s).latencies = s.latencies := rfl
@[simp] theorem setInfo_draw (f : FrameInfo) (s : State) : (setInfo f s).draw = s.draw := rfl
@[simp] theorem setInfo_frameDraw (f : FrameInfo) (s : State) : (setInfo f s).frameDraw = s.frameDraw := rfl
@[simp] theorem setInfo_resultDraw (f : FrameInfo) (s : State) : (setInfo f s).resultDraw = s.resultDraw := rfl

/-! ### writeRecords -/

@[simp] theorem writeRecords_irqEn (slots : List RecordSlot) (r : RecStop) (s : State) : (writeRecords slots r s).irqEn = s.irqEn := rfl
@[simp] theorem writeRecords_done (slots : List RecordSlot) (r : RecStop) (s : State) : (writeRecords slots r s).status.done = s.status.done := rfl
@[simp] theorem writeRecords_outcome (slots : List RecordSlot) (r : RecStop) (s : State) : (writeRecords slots r s).status.outcome = s.status.outcome := rfl
@[simp] theorem writeRecords_errCode (slots : List RecordSlot) (r : RecStop) (s : State) : (writeRecords slots r s).status.errCode = s.status.errCode := rfl
@[simp] theorem writeRecords_secStatus (slots : List RecordSlot) (r : RecStop) (s : State) : (writeRecords slots r s).status.secStatus = s.status.secStatus := rfl
@[simp] theorem writeRecords_marker (slots : List RecordSlot) (r : RecStop) (s : State) : (writeRecords slots r s).status.marker = s.status.marker := rfl
@[simp] theorem writeRecords_recStop (slots : List RecordSlot) (r : RecStop) (s : State) : (writeRecords slots r s).status.recStop = r := rfl
@[simp] theorem writeRecords_cmdOverrun (slots : List RecordSlot) (r : RecStop) (s : State) : (writeRecords slots r s).status.cmdOverrun = s.status.cmdOverrun := rfl
@[simp] theorem writeRecords_wrIgnored (slots : List RecordSlot) (r : RecStop) (s : State) : (writeRecords slots r s).status.wrIgnored = s.status.wrIgnored := rfl
@[simp] theorem writeRecords_busErr (slots : List RecordSlot) (r : RecStop) (s : State) : (writeRecords slots r s).status.busErr = s.status.busErr := rfl
@[simp] theorem writeRecords_lastOp (slots : List RecordSlot) (r : RecStop) (s : State) : (writeRecords slots r s).status.lastOp = s.status.lastOp := rfl
@[simp] theorem writeRecords_phase (slots : List RecordSlot) (r : RecStop) (s : State) : (writeRecords slots r s).phase = s.phase := rfl
@[simp] theorem writeRecords_frameLen (slots : List RecordSlot) (r : RecStop) (s : State) : (writeRecords slots r s).frameLen = s.frameLen := rfl
@[simp] theorem writeRecords_keyLen (slots : List RecordSlot) (r : RecStop) (s : State) : (writeRecords slots r s).keyLen = s.keyLen := rfl
@[simp] theorem writeRecords_ptLen (slots : List RecordSlot) (r : RecStop) (s : State) : (writeRecords slots r s).ptLen = s.ptLen := rfl
@[simp] theorem writeRecords_recCount (slots : List RecordSlot) (r : RecStop) (s : State) : (writeRecords slots r s).recCount = BitVec.ofNat 8 slots.length := rfl
@[simp] theorem writeRecords_key0 (slots : List RecordSlot) (r : RecStop) (s : State) : (writeRecords slots r s).key0 = s.key0 := rfl
@[simp] theorem writeRecords_key1 (slots : List RecordSlot) (r : RecStop) (s : State) : (writeRecords slots r s).key1 = s.key1 := rfl
@[simp] theorem writeRecords_key2 (slots : List RecordSlot) (r : RecStop) (s : State) : (writeRecords slots r s).key2 = s.key2 := rfl
@[simp] theorem writeRecords_key3 (slots : List RecordSlot) (r : RecStop) (s : State) : (writeRecords slots r s).key3 = s.key3 := rfl
@[simp] theorem writeRecords_iv0 (slots : List RecordSlot) (r : RecStop) (s : State) : (writeRecords slots r s).iv0 = s.iv0 := rfl
@[simp] theorem writeRecords_iv1 (slots : List RecordSlot) (r : RecStop) (s : State) : (writeRecords slots r s).iv1 = s.iv1 := rfl
@[simp] theorem writeRecords_iv2 (slots : List RecordSlot) (r : RecStop) (s : State) : (writeRecords slots r s).iv2 = s.iv2 := rfl
@[simp] theorem writeRecords_iv3 (slots : List RecordSlot) (r : RecStop) (s : State) : (writeRecords slots r s).iv3 = s.iv3 := rfl
@[simp] theorem writeRecords_ivinM (slots : List RecordSlot) (r : RecStop) (s : State) : (writeRecords slots r s).ivinM = s.ivinM := rfl
@[simp] theorem writeRecords_ivinA (slots : List RecordSlot) (r : RecStop) (s : State) : (writeRecords slots r s).ivinA = s.ivinA := rfl
@[simp] theorem writeRecords_ivinAcc (slots : List RecordSlot) (r : RecStop) (s : State) : (writeRecords slots r s).ivinAcc = s.ivinAcc := rfl
@[simp] theorem writeRecords_ivinFc (slots : List RecordSlot) (r : RecStop) (s : State) : (writeRecords slots r s).ivinFc = s.ivinFc := rfl
@[simp] theorem writeRecords_info (slots : List RecordSlot) (r : RecStop) (s : State) : (writeRecords slots r s).info = s.info := rfl
@[simp] theorem writeRecords_mem (slots : List RecordSlot) (r : RecStop) (s : State) : (writeRecords slots r s).mem = Memory.writeBytes (Memory.forget s.mem recBase recEnd) recBase (slots.flatMap slotBytes) := rfl
@[simp] theorem writeRecords_hostQueue (slots : List RecordSlot) (r : RecStop) (s : State) : (writeRecords slots r s).hostQueue = s.hostQueue := rfl
@[simp] theorem writeRecords_resp (slots : List RecordSlot) (r : RecStop) (s : State) : (writeRecords slots r s).resp = s.resp := rfl
@[simp] theorem writeRecords_latencies (slots : List RecordSlot) (r : RecStop) (s : State) : (writeRecords slots r s).latencies = s.latencies := rfl
@[simp] theorem writeRecords_draw (slots : List RecordSlot) (r : RecStop) (s : State) : (writeRecords slots r s).draw = s.draw := rfl
@[simp] theorem writeRecords_frameDraw (slots : List RecordSlot) (r : RecStop) (s : State) : (writeRecords slots r s).frameDraw = s.frameDraw := rfl
@[simp] theorem writeRecords_resultDraw (slots : List RecordSlot) (r : RecStop) (s : State) : (writeRecords slots r s).resultDraw = s.resultDraw := rfl

/-! ### refuseAccess -/

@[simp] theorem refuseAccess_irqEn (s : State) : (refuseAccess s).irqEn = s.irqEn := rfl
@[simp] theorem refuseAccess_done (s : State) : (refuseAccess s).status.done = s.status.done := rfl
@[simp] theorem refuseAccess_outcome (s : State) : (refuseAccess s).status.outcome = s.status.outcome := rfl
@[simp] theorem refuseAccess_errCode (s : State) : (refuseAccess s).status.errCode = s.status.errCode := rfl
@[simp] theorem refuseAccess_secStatus (s : State) : (refuseAccess s).status.secStatus = s.status.secStatus := rfl
@[simp] theorem refuseAccess_marker (s : State) : (refuseAccess s).status.marker = s.status.marker := rfl
@[simp] theorem refuseAccess_recStop (s : State) : (refuseAccess s).status.recStop = s.status.recStop := rfl
@[simp] theorem refuseAccess_cmdOverrun (s : State) : (refuseAccess s).status.cmdOverrun = s.status.cmdOverrun := rfl
@[simp] theorem refuseAccess_wrIgnored (s : State) : (refuseAccess s).status.wrIgnored = s.status.wrIgnored := rfl
@[simp] theorem refuseAccess_busErr (s : State) : (refuseAccess s).status.busErr = true := rfl
@[simp] theorem refuseAccess_lastOp (s : State) : (refuseAccess s).status.lastOp = s.status.lastOp := rfl
@[simp] theorem refuseAccess_phase (s : State) : (refuseAccess s).phase = s.phase := rfl
@[simp] theorem refuseAccess_frameLen (s : State) : (refuseAccess s).frameLen = s.frameLen := rfl
@[simp] theorem refuseAccess_keyLen (s : State) : (refuseAccess s).keyLen = s.keyLen := rfl
@[simp] theorem refuseAccess_ptLen (s : State) : (refuseAccess s).ptLen = s.ptLen := rfl
@[simp] theorem refuseAccess_recCount (s : State) : (refuseAccess s).recCount = s.recCount := rfl
@[simp] theorem refuseAccess_key0 (s : State) : (refuseAccess s).key0 = s.key0 := rfl
@[simp] theorem refuseAccess_key1 (s : State) : (refuseAccess s).key1 = s.key1 := rfl
@[simp] theorem refuseAccess_key2 (s : State) : (refuseAccess s).key2 = s.key2 := rfl
@[simp] theorem refuseAccess_key3 (s : State) : (refuseAccess s).key3 = s.key3 := rfl
@[simp] theorem refuseAccess_iv0 (s : State) : (refuseAccess s).iv0 = s.iv0 := rfl
@[simp] theorem refuseAccess_iv1 (s : State) : (refuseAccess s).iv1 = s.iv1 := rfl
@[simp] theorem refuseAccess_iv2 (s : State) : (refuseAccess s).iv2 = s.iv2 := rfl
@[simp] theorem refuseAccess_iv3 (s : State) : (refuseAccess s).iv3 = s.iv3 := rfl
@[simp] theorem refuseAccess_ivinM (s : State) : (refuseAccess s).ivinM = s.ivinM := rfl
@[simp] theorem refuseAccess_ivinA (s : State) : (refuseAccess s).ivinA = s.ivinA := rfl
@[simp] theorem refuseAccess_ivinAcc (s : State) : (refuseAccess s).ivinAcc = s.ivinAcc := rfl
@[simp] theorem refuseAccess_ivinFc (s : State) : (refuseAccess s).ivinFc = s.ivinFc := rfl
@[simp] theorem refuseAccess_info (s : State) : (refuseAccess s).info = s.info := rfl
@[simp] theorem refuseAccess_mem (s : State) : (refuseAccess s).mem = s.mem := rfl
@[simp] theorem refuseAccess_hostQueue (s : State) : (refuseAccess s).hostQueue = s.hostQueue := rfl
@[simp] theorem refuseAccess_resp (s : State) : (refuseAccess s).resp = ⟨0#32, true⟩ := rfl
@[simp] theorem refuseAccess_latencies (s : State) : (refuseAccess s).latencies = s.latencies := rfl
@[simp] theorem refuseAccess_draw (s : State) : (refuseAccess s).draw = s.draw := rfl
@[simp] theorem refuseAccess_frameDraw (s : State) : (refuseAccess s).frameDraw = s.frameDraw := rfl
@[simp] theorem refuseAccess_resultDraw (s : State) : (refuseAccess s).resultDraw = s.resultDraw := rfl

/-! ### writeStatus -/

@[simp] theorem writeStatus_irqEn (v : Word) (s : State) : (writeStatus v s).irqEn = s.irqEn := rfl
@[simp] theorem writeStatus_done (v : Word) (s : State) : (writeStatus v s).status.done = (s.status.done && !v.getLsbD 1) := rfl
@[simp] theorem writeStatus_outcome (v : Word) (s : State) : (writeStatus v s).status.outcome = s.status.outcome := rfl
@[simp] theorem writeStatus_errCode (v : Word) (s : State) : (writeStatus v s).status.errCode = s.status.errCode := rfl
@[simp] theorem writeStatus_secStatus (v : Word) (s : State) : (writeStatus v s).status.secStatus = s.status.secStatus := rfl
@[simp] theorem writeStatus_marker (v : Word) (s : State) : (writeStatus v s).status.marker = s.status.marker := rfl
@[simp] theorem writeStatus_recStop (v : Word) (s : State) : (writeStatus v s).status.recStop = s.status.recStop := rfl
@[simp] theorem writeStatus_cmdOverrun (v : Word) (s : State) : (writeStatus v s).status.cmdOverrun = (s.status.cmdOverrun && !v.getLsbD 16) := rfl
@[simp] theorem writeStatus_wrIgnored (v : Word) (s : State) : (writeStatus v s).status.wrIgnored = (s.status.wrIgnored && !v.getLsbD 17) := rfl
@[simp] theorem writeStatus_busErr (v : Word) (s : State) : (writeStatus v s).status.busErr = (s.status.busErr && !v.getLsbD 18) := rfl
@[simp] theorem writeStatus_lastOp (v : Word) (s : State) : (writeStatus v s).status.lastOp = s.status.lastOp := rfl
@[simp] theorem writeStatus_phase (v : Word) (s : State) : (writeStatus v s).phase = s.phase := rfl
@[simp] theorem writeStatus_frameLen (v : Word) (s : State) : (writeStatus v s).frameLen = s.frameLen := rfl
@[simp] theorem writeStatus_keyLen (v : Word) (s : State) : (writeStatus v s).keyLen = s.keyLen := rfl
@[simp] theorem writeStatus_ptLen (v : Word) (s : State) : (writeStatus v s).ptLen = s.ptLen := rfl
@[simp] theorem writeStatus_recCount (v : Word) (s : State) : (writeStatus v s).recCount = s.recCount := rfl
@[simp] theorem writeStatus_key0 (v : Word) (s : State) : (writeStatus v s).key0 = s.key0 := rfl
@[simp] theorem writeStatus_key1 (v : Word) (s : State) : (writeStatus v s).key1 = s.key1 := rfl
@[simp] theorem writeStatus_key2 (v : Word) (s : State) : (writeStatus v s).key2 = s.key2 := rfl
@[simp] theorem writeStatus_key3 (v : Word) (s : State) : (writeStatus v s).key3 = s.key3 := rfl
@[simp] theorem writeStatus_iv0 (v : Word) (s : State) : (writeStatus v s).iv0 = s.iv0 := rfl
@[simp] theorem writeStatus_iv1 (v : Word) (s : State) : (writeStatus v s).iv1 = s.iv1 := rfl
@[simp] theorem writeStatus_iv2 (v : Word) (s : State) : (writeStatus v s).iv2 = s.iv2 := rfl
@[simp] theorem writeStatus_iv3 (v : Word) (s : State) : (writeStatus v s).iv3 = s.iv3 := rfl
@[simp] theorem writeStatus_ivinM (v : Word) (s : State) : (writeStatus v s).ivinM = s.ivinM := rfl
@[simp] theorem writeStatus_ivinA (v : Word) (s : State) : (writeStatus v s).ivinA = s.ivinA := rfl
@[simp] theorem writeStatus_ivinAcc (v : Word) (s : State) : (writeStatus v s).ivinAcc = s.ivinAcc := rfl
@[simp] theorem writeStatus_ivinFc (v : Word) (s : State) : (writeStatus v s).ivinFc = s.ivinFc := rfl
@[simp] theorem writeStatus_info (v : Word) (s : State) : (writeStatus v s).info = s.info := rfl
@[simp] theorem writeStatus_mem (v : Word) (s : State) : (writeStatus v s).mem = s.mem := rfl
@[simp] theorem writeStatus_hostQueue (v : Word) (s : State) : (writeStatus v s).hostQueue = s.hostQueue := rfl
@[simp] theorem writeStatus_resp (v : Word) (s : State) : (writeStatus v s).resp = s.resp := rfl
@[simp] theorem writeStatus_latencies (v : Word) (s : State) : (writeStatus v s).latencies = s.latencies := rfl
@[simp] theorem writeStatus_draw (v : Word) (s : State) : (writeStatus v s).draw = s.draw := rfl
@[simp] theorem writeStatus_frameDraw (v : Word) (s : State) : (writeStatus v s).frameDraw = s.frameDraw := rfl
@[simp] theorem writeStatus_resultDraw (v : Word) (s : State) : (writeStatus v s).resultDraw = s.resultDraw := rfl

/-! ### blockReset -/

@[simp] theorem blockReset_irqEn (s : State) : (blockReset s).irqEn = State.reset.irqEn := rfl
@[simp] theorem blockReset_status (s : State) : (blockReset s).status = State.reset.status := rfl
@[simp] theorem blockReset_phase (s : State) : (blockReset s).phase = State.reset.phase := rfl
@[simp] theorem blockReset_frameLen (s : State) : (blockReset s).frameLen = State.reset.frameLen := rfl
@[simp] theorem blockReset_keyLen (s : State) : (blockReset s).keyLen = State.reset.keyLen := rfl
@[simp] theorem blockReset_ptLen (s : State) : (blockReset s).ptLen = State.reset.ptLen := rfl
@[simp] theorem blockReset_recCount (s : State) : (blockReset s).recCount = State.reset.recCount := rfl
@[simp] theorem blockReset_key0 (s : State) : (blockReset s).key0 = State.reset.key0 := rfl
@[simp] theorem blockReset_key1 (s : State) : (blockReset s).key1 = State.reset.key1 := rfl
@[simp] theorem blockReset_key2 (s : State) : (blockReset s).key2 = State.reset.key2 := rfl
@[simp] theorem blockReset_key3 (s : State) : (blockReset s).key3 = State.reset.key3 := rfl
@[simp] theorem blockReset_iv0 (s : State) : (blockReset s).iv0 = State.reset.iv0 := rfl
@[simp] theorem blockReset_iv1 (s : State) : (blockReset s).iv1 = State.reset.iv1 := rfl
@[simp] theorem blockReset_iv2 (s : State) : (blockReset s).iv2 = State.reset.iv2 := rfl
@[simp] theorem blockReset_iv3 (s : State) : (blockReset s).iv3 = State.reset.iv3 := rfl
@[simp] theorem blockReset_ivinM (s : State) : (blockReset s).ivinM = State.reset.ivinM := rfl
@[simp] theorem blockReset_ivinA (s : State) : (blockReset s).ivinA = State.reset.ivinA := rfl
@[simp] theorem blockReset_ivinAcc (s : State) : (blockReset s).ivinAcc = State.reset.ivinAcc := rfl
@[simp] theorem blockReset_ivinFc (s : State) : (blockReset s).ivinFc = State.reset.ivinFc := rfl
@[simp] theorem blockReset_info (s : State) : (blockReset s).info = State.reset.info := rfl
@[simp] theorem blockReset_mem (s : State) : (blockReset s).mem = State.reset.mem := rfl
@[simp] theorem blockReset_hostQueue (s : State) : (blockReset s).hostQueue = s.hostQueue := rfl
@[simp] theorem blockReset_resp (s : State) : (blockReset s).resp = s.resp := rfl
@[simp] theorem blockReset_latencies (s : State) : (blockReset s).latencies = s.latencies := rfl
@[simp] theorem blockReset_draw (s : State) : (blockReset s).draw = s.draw + 1 := rfl
@[simp] theorem blockReset_frameDraw (s : State) : (blockReset s).frameDraw = s.draw := rfl
@[simp] theorem blockReset_resultDraw (s : State) : (blockReset s).resultDraw = s.draw := rfl

end Sys2Proof.Machine
end

