-- ==== Sys2Proof/Laws/Ops.lean ====
section
/-! SUPPORT. What each shared operation of Machine/Ops.lean does, said once: the bytes it leaves in the buffers, and the
cases of the Prologue. -/

namespace Sys2Proof.Machine

/-! ### Where a buffer byte comes from -/

theorem bufByte_of_read {s : State} {a : Nat} {b : Byte} (h : Memory.read s.mem a = some b) : bufByte s a = b := by
  simp [bufByte, h]

/-- A FRAME_BUF byte depends only on its cell and on the draw of FRAME_BUF. -/
theorem bufByte_congr_frame {s t : State} {a : Nat} (ha : a < ptBase)
    (hm : Memory.read t.mem a = Memory.read s.mem a) (hd : t.frameDraw = s.frameDraw) : bufByte t a = bufByte s a := by
  simp [bufByte, hm, ha, hd]

/-- A PT_BUF or REC_TABLE byte depends only on its cell and on the draw of the results. -/
theorem bufByte_congr_result {s t : State} {a : Nat} (ha : ptBase ≤ a)
    (hm : Memory.read t.mem a = Memory.read s.mem a) (hd : t.resultDraw = s.resultDraw) :
    bufByte t a = bufByte s a := by
  have : ¬ a < ptBase := by omega
  simp [bufByte, hm, this, hd]

@[simp] theorem frameBytes_length (s : State) : (frameBytes s).length = s.frameLen.toNat := by simp [frameBytes]

@[simp] theorem ptBytes_length (s : State) : (ptBytes s).length = s.ptLen.toNat := by simp [ptBytes]

theorem frameBytes_getD (s : State) {i : Nat} (h : i < s.frameLen.toNat) : byteAt (frameBytes s) i = frameByte s i := by
  simp [byteAt, frameBytes, List.getD_eq_getElem?_getD, h]

/-- What FB[0..FRAME_LEN) depends on, for a length FRAME_BUF has. -/
theorem frameBytes_congr {s t : State} (hl : t.frameLen = s.frameLen) (hn : s.frameLen.toNat ≤ Config.pFrameMax)
    (hm : ∀ a, a < ptBase → Memory.read t.mem a = Memory.read s.mem a) (hd : t.frameDraw = s.frameDraw) :
    frameBytes t = frameBytes s := by
  simp only [frameBytes, hl]
  refine List.map_congr_left fun i hi => ?_
  have : frameBase + i < ptBase := by
    have := List.mem_range.1 hi
    simp only [Config.pFrameMax] at hn
    simp only [frameBase, ptBase]
    omega
  exact bufByte_congr_frame this (hm _ this) hd

/-- PT[0..PT_LEN) is the byte sequence whose bytes are its cells. -/
theorem ptBytes_of_read {s : State} {p : List Byte} (hl : s.ptLen.toNat = p.length)
    (hm : ∀ i (hi : i < p.length), Memory.read s.mem (ptBase + i) = some p[i]) : ptBytes s = p := by
  refine List.ext_getElem (by simp [hl]) fun i h1 h2 => ?_
  simp only [ptBytes, List.getElem_map, List.getElem_range]
  exact bufByte_of_read (hm i h2)

/-! ### writePt -/

theorem read_writePt (p : List Byte) (s : State) (hp : p.length ≤ Config.pPtMax) (a : Nat) :
    Memory.read (writePt p s).mem a =
      if ptBase ≤ a ∧ a < ptBase + Config.pPtMax then p[a - ptBase]? else Memory.read s.mem a := by
  simp only [writePt_mem, Memory.read_writeBytes, Memory.read_forget]
  by_cases h : ptBase ≤ a ∧ a < ptBase + p.length
  · have : ptBase ≤ a ∧ a < ptBase + Config.pPtMax := by omega
    simp [h, this]
  · rw [if_neg h]
    split
    · rw [List.getElem?_eq_none (by omega)]
    · rfl

theorem writePt_toNat_ptLen (p : List Byte) (s : State) (hp : p.length ≤ Config.pPtMax) :
    (writePt p s).ptLen.toNat = p.length := by
  simp only [Config.pPtMax] at hp
  simp only [writePt_ptLen, BitVec.toNat_ofNat]
  omega

/-- PT[0..PT_LEN) after `writePt p` is `p`, also in any later state with the same cells and length. -/
theorem ptBytes_of_writePt {t s : State} {p : List Byte} (hp : p.length ≤ Config.pPtMax)
    (hl : t.ptLen = (writePt p s).ptLen)
    (hm : ∀ a, ptBase ≤ a → a < ptBase + Config.pPtMax → Memory.read t.mem a = Memory.read (writePt p s).mem a) :
    ptBytes t = p := by
  refine ptBytes_of_read (by rw [hl, writePt_toNat_ptLen p s hp]) fun i hi => ?_
  rw [hm _ (by omega) (by omega), read_writePt p s hp, if_pos (by omega)]
  simp [hi]

@[simp] theorem ptBytes_writePt (p : List Byte) (s : State) (hp : p.length ≤ Config.pPtMax) :
    ptBytes (writePt p s) = p := ptBytes_of_writePt hp rfl fun _ _ _ => rfl

/-! ### clearWork and the Prologue -/

theorem read_clearWork (s : State) (a : Nat) :
    Memory.read (clearWork s).mem a = if ptBase ≤ a ∧ a < recEnd then none else Memory.read s.mem a := by
  simp [Memory.read_forget]

@[simp] theorem clearResults_none (s : State) : clearResults .none s = s := rfl

@[simp] theorem clearResults_frame (s : State) :
    clearResults .frame s = { clearWork s with info := FrameInfo.cleared } := rfl

@[simp] theorem clearResults_cipher (s : State) : clearResults .cipher s = clearWork s := rfl

@[simp] theorem clearResults_records (s : State) : clearResults .records s = clearWork s := rfl

@[simp] theorem clearResults_frameLen (scope : Scope) (s : State) :
    (clearResults scope s).frameLen = s.frameLen := by cases scope <;> rfl

@[simp] theorem clearResults_frameDraw (scope : Scope) (s : State) :
    (clearResults scope s).frameDraw = s.frameDraw := by cases scope <;> rfl

@[simp] theorem clearResults_keyLen (scope : Scope) (s : State) :
    (clearResults scope s).keyLen = s.keyLen := by cases scope <;> rfl

theorem read_clearResults_frame_part (scope : Scope) (s : State) {a : Nat} (ha : a < ptBase) :
    Memory.read (clearResults scope s).mem a = Memory.read s.mem a := by
  have h : ¬ (ptBase ≤ a ∧ a < recEnd) := by omega
  cases scope
  · rfl
  all_goals exact (read_clearWork s a).trans (if_neg h)

/-- The Prologue leaves the telegram alone. -/
theorem frameBytes_clearResults (scope : Scope) (s : State) (hn : s.frameLen.toNat ≤ Config.pFrameMax) :
    frameBytes (clearResults scope s) = frameBytes s :=
  frameBytes_congr (by simp) hn (fun _ ha => read_clearResults_frame_part scope s ha) (by simp)

/-- The Prologue of scope NONE does nothing (R342, R343). -/
@[simp] theorem prologue_none (rest : State → State) (s : State) : prologue .none rest s = rest s := by
  simp [prologue]

/-- The Prologue of any other scope on a telegram that is too long (R342). -/
theorem prologue_of_tooLong {scope : Scope} (h : scope ≠ .none) (rest : State → State) {s : State}
    (hn : Config.pFrameMax < s.frameLen.toNat) :
    prologue scope rest s = finish .fatal .frameLenRange (clearResults scope s) := by
  simp [prologue, h, hn]

/-- The Prologue on a telegram that fits FRAME_BUF (R342). -/
theorem prologue_of_fits (scope : Scope) (rest : State → State) {s : State}
    (hn : s.frameLen.toNat ≤ Config.pFrameMax) : prologue scope rest s = rest (clearResults scope s) := by
  have : ¬ Config.pFrameMax < s.frameLen.toNat := by omega
  simp [prologue, this]

end Sys2Proof.Machine
end

