-- ==== Sys2Proof/Laws/Records.lean ====
section
/-! SUPPORT. The record iterator, said once: what a chain, a data field and a record read consume (R271, R281), that the
fuel of `iterateFrom` never shows, and the size of a slot (R52). -/

namespace Sys2Proof.Machine

open Config (Params)

/-! ### One record -/

/-- A chain that ends reads some bytes `ds` beyond what it had, at most up to its limit (R284). -/
theorem readChain_ok {limit : Nat} {u o : RecStop} {ext : Bool} {chain rest c r : List Byte}
    (h : readChain limit u o ext chain rest = .ok (c, r)) :
    ∃ ds, c = chain ++ ds ∧ rest = ds ++ r ∧ (chain.length ≤ limit → c.length ≤ limit) := by
  induction rest generalizing ext chain with
  | nil =>
    cases ext with
    | false => obtain ⟨rfl, rfl⟩ := by simpa [readChain] using h
               exact ⟨[], by simp⟩
    | true => simp [readChain] at h
  | cons d rest ih =>
    cases ext with
    | false => obtain ⟨rfl, rfl⟩ := by simpa [readChain] using h
               exact ⟨[], by simp⟩
    | true =>
      simp only [readChain] at h
      split at h
      · cases h
      · obtain ⟨ds, rfl, rfl, hl⟩ := ih h
        refine ⟨d :: ds, by simp, rfl, fun hc => hl ?_⟩
        simp
        omega

/-- Why a chain stops: at the end of the payload or at its limit (R284). -/
theorem readChain_error {limit : Nat} {u o : RecStop} {ext : Bool} {chain rest : List Byte} {e : RecStop}
    (h : readChain limit u o ext chain rest = .error e) : e = u ∨ e = o := by
  induction rest generalizing ext chain with
  | nil => cases ext <;> simp [readChain] at h; exact .inl h.symm
  | cons d rest ih =>
    cases ext with
    | false => simp [readChain] at h
    | true =>
      simp only [readChain] at h
      split at h
      · cases h; exact .inr rfl
      · exact ih h

/-- The length step reads at most one byte (R290). -/
theorem readLength_some {l : Config.DataLen} {rest r : List Byte} {len : Nat} {lvar : Bool}
    (h : readLength l rest = some (len, lvar, r)) :
    (l = .fixed len ∧ lvar = false ∧ r = rest) ∨ (∃ b, l = .var ∧ lvar = true ∧ rest = b :: r ∧ len = b.toNat) := by
  cases l with
  | fixed n => simp [readLength] at h; obtain ⟨rfl, rfl, rfl⟩ := h; simp
  | var =>
    cases rest with
    | nil => simp [readLength] at h
    | cons b rest => simp [readLength] at h; obtain ⟨rfl, rfl, rfl⟩ := h; simp

/-- A finished record took its data off the front of what was left after the length step (R271 step 6). -/
theorem readData_record {P : Params} {n start : Nat} {dif vif : Byte} {difes vifes rest r : List Byte}
    {slot : RecordSlot} (h : readData P n start dif difes vif vifes rest = .record slot r) :
    ∃ len lvar after, readLength (P.difTable (difDataField dif)).len rest = some (len, lvar, after) ∧
      len ≤ after.length ∧ after.length ≤ rest.length ∧ r = after.drop len ∧
      slot = fillSlot P start dif difes vif vifes lvar (n - after.length) (after.take len) := by
  unfold readData at h
  cases hl : readLength (P.difTable (difDataField dif)).len rest with
  | none => rw [hl] at h; cases h
  | some x =>
    obtain ⟨len, lvar, after⟩ := x
    rw [hl] at h
    dsimp only at h
    split at h
    · cases h
    · cases h
      refine ⟨len, lvar, after, rfl, by omega, ?_, rfl, rfl⟩
      rcases readLength_some hl with ⟨_, _, rfl⟩ | ⟨b, _, _, rfl, _⟩ <;> simp

/-- Everything a record read that finishes did (R271): the bytes are DIF, DIFEs, VIF, VIFEs, then what the length step
and the data take. -/
theorem readRecord_record {P : Params} {n : Nat} {rest r : List Byte} {slot : RecordSlot}
    (h : readRecord P n rest = .record slot r) :
    ∃ dif difes vif vifes tail len lvar after, rest = dif :: (difes ++ vif :: (vifes ++ tail)) ∧
      difes.length ≤ Config.pMaxDife ∧ vifes.length ≤ Config.pMaxVife ∧
      readLength (P.difTable (difDataField dif)).len tail = some (len, lvar, after) ∧
      len ≤ after.length ∧ after.length ≤ tail.length ∧ r = after.drop len ∧
      slot = fillSlot P (n - rest.length) dif difes vif vifes lvar (n - after.length) (after.take len) := by
  match rest with
  | [] => cases h
  | [_] => cases h
  | dif :: next :: rest =>
    simp only [readRecord] at h
    split at h
    · cases h
    · split at h
      · cases h
      · split at h
        · cases h
        · rename_i difes after1 h1
          obtain ⟨ds, hds, hrest, hlim⟩ := readChain_ok h1
          simp only [List.nil_append] at hds
          subst hds
          cases after1 with
          | nil => cases h
          | cons vif after2 =>
            simp only [readVif] at h
            split at h
            · cases h
            · rename_i vifes after3 h3
              obtain ⟨vs, hvs, hrest2, hlim2⟩ := readChain_ok h3
              simp only [List.nil_append] at hvs
              subst hvs
              obtain ⟨len, lvar, after, hl, h5, h6, h7, h8⟩ := readData_record h
              refine ⟨dif, difes, vif, vifes, after3, len, lvar, after, ?_, ?_, ?_, hl, h5, h6, h7, ?_⟩
              · rw [hrest, hrest2]
              · exact hlim (Nat.zero_le _)
              · exact hlim2 (Nat.zero_le _)
              · rw [h8]; rfl

theorem readRecord_record_length {P : Params} {n : Nat} {rest r : List Byte} {slot : RecordSlot}
    (h : readRecord P n rest = .record slot r) : r.length + 2 ≤ rest.length := by
  obtain ⟨dif, difes, vif, vifes, tail, len, lvar, after, rfl, _, _, _, h5, h6, rfl, _⟩ := readRecord_record h
  simp
  omega

theorem readRecord_filler {P : Params} {n : Nat} {rest r : List Byte} (h : readRecord P n rest = .filler r) :
    rest = 0x2F#8 :: r ∧ P.specialDif = .en13757 := by
  match rest with
  | [] => cases h
  | [_] => cases h
  | dif :: next :: rest =>
    simp only [readRecord] at h
    split at h
    · rename_i hc; obtain ⟨h1, rfl⟩ := hc; cases h; exact ⟨rfl, h1⟩
    · split at h
      · cases h
      · split at h
        · cases h
        · rename_i difes after1 h1
          cases after1 with
          | nil => cases h
          | cons vif after2 =>
            simp only [readVif] at h
            split at h
            · cases h
            · simp only [readData] at h
              split at h
              · cases h
              · split at h <;> cases h

/-! ### The loop -/

/-- Fuel beyond the bytes left never shows (R281). -/
theorem iterateFrom_fuel (P : Params) (n : Nat) {fuel fuel' : Nat} {rest : List Byte} (h : rest.length ≤ fuel)
    (h' : rest.length ≤ fuel') : iterateFrom P n fuel rest = iterateFrom P n fuel' rest := by
  induction fuel generalizing fuel' rest with
  | zero =>
    have : rest = [] := List.length_eq_zero_iff.1 (by omega)
    subst this
    cases fuel' <;> simp [iterateFrom, readRecord]
  | succ k ih =>
    cases fuel' with
    | zero =>
      have : rest = [] := List.length_eq_zero_iff.1 (by omega)
      subst this
      simp [iterateFrom, readRecord]
    | succ k' =>
      simp only [iterateFrom]
      cases hr : readRecord P n rest with
      | stop r => rfl
      | filler r =>
        obtain ⟨rfl, _⟩ := readRecord_filler hr
        simp only [List.length_cons] at h h'
        exact ih (by omega) (by omega)
      | record slot r =>
        have := readRecord_record_length hr
        dsimp only
        rw [ih (fuel' := k') (by omega) (by omega)]

/-- The loop as its one trip (R271). -/
theorem iterateFrom_unfold (P : Params) (n : Nat) (rest : List Byte) :
    iterateFrom P n rest.length rest =
      match readRecord P n rest with
      | .stop r => ([], r)
      | .filler rest' => iterateFrom P n rest'.length rest'
      | .record slot rest' =>
        (slot :: (iterateFrom P n rest'.length rest').1, (iterateFrom P n rest'.length rest').2) := by
  rw [iterateFrom_fuel P n (le_refl _) (Nat.le_succ _)]
  simp only [iterateFrom]
  cases hr : readRecord P n rest with
  | stop r => rfl
  | filler r =>
    obtain ⟨rfl, _⟩ := readRecord_filler hr
    exact iterateFrom_fuel P n (by simp) (le_refl _)
  | record slot r =>
    have := readRecord_record_length hr
    dsimp only
    rw [iterateFrom_fuel P n (fuel' := r.length) (by omega) (le_refl _)]

/-- Two bytes at least for each record. -/
theorem iterateFrom_length (P : Params) (n : Nat) (fuel : Nat) (rest : List Byte) :
    2 * (iterateFrom P n fuel rest).1.length ≤ rest.length := by
  induction fuel generalizing rest with
  | zero => simp [iterateFrom]
  | succ k ih =>
    simp only [iterateFrom]
    cases hr : readRecord P n rest with
    | stop r => simp
    | filler r =>
      obtain ⟨rfl, _⟩ := readRecord_filler hr
      have := ih r
      simp only [List.length_cons]
      omega
    | record slot r =>
      have := readRecord_record_length hr
      have := ih r
      dsimp only
      simp only [List.length_cons]
      omega

theorem iterate_length_le (P : Params) {p : List Byte} (h : p.length ≤ Config.pPtMax) :
    (iterate P p).1.length ≤ Config.pMaxRecords := by
  have := iterateFrom_length P p.length p.length p
  simp only [Config.pPtMax] at h
  simp only [iterate, Config.pMaxRecords]
  omega

theorem readRecord_stop_ne_notRun {P : Params} {n : Nat} {rest : List Byte} {r : RecStop}
    (h : readRecord P n rest = .stop r) : r ≠ .notRun := by
  rintro rfl
  match rest with
  | [] => cases h
  | [_] => cases h
  | dif :: next :: rest =>
    simp only [readRecord] at h
    split at h
    · cases h
    · split at h
      · cases h
      · split at h
        · rename_i e he
          cases h
          rcases readChain_error he with h | h <;> cases h
        · rename_i difes after1 h1
          cases after1 with
          | nil => cases h
          | cons vif after2 =>
            simp only [readVif] at h
            split at h
            · rename_i e he
              cases h
              rcases readChain_error he with h | h <;> cases h
            · simp only [readData] at h
              split at h
              · cases h
              · split at h <;> cases h

/-- An iteration that ran has a stop reason (R282). -/
theorem iterateFrom_stop_ne_notRun (P : Params) (n fuel : Nat) (rest : List Byte) :
    (iterateFrom P n fuel rest).2 ≠ .notRun := by
  induction fuel generalizing rest with
  | zero => simp [iterateFrom]
  | succ k ih =>
    simp only [iterateFrom]
    cases hr : readRecord P n rest with
    | stop r => exact readRecord_stop_ne_notRun hr
    | filler r => exact ih r
    | record slot r => exact ih r

/-! ### The bytes of the table (R52, R55) -/

@[simp] theorem chainBytes_length (bs : List Byte) : (chainBytes bs).length = 10 := by
  simp [chainBytes]

@[simp] theorem slotBytes_length (r : RecordSlot) : (slotBytes r).length = slotSize := by
  simp [slotBytes, slotWords, wordBytes, slotSize]

theorem flatMap_slotBytes_length (slots : List RecordSlot) :
    (slots.flatMap slotBytes).length = slotSize * slots.length := by
  induction slots with
  | nil => rfl
  | cons r slots ih => simp [ih, Nat.mul_add]; omega

theorem flatMap_slotBytes_getElem? (slots : List RecordSlot) (k j : Nat) (hj : j < slotSize) :
    (slots.flatMap slotBytes)[slotSize * k + j]? = (slots[k]?).bind (fun r => (slotBytes r)[j]?) := by
  induction slots generalizing k with
  | nil => simp
  | cons r slots ih =>
    rw [List.flatMap_cons]
    cases k with
    | zero =>
      rw [List.getElem?_append_left (by simpa using hj)]
      simp
    | succ k =>
      rw [List.getElem?_append_right (by simp [Nat.mul_add]; omega)]
      have : slotSize * (k + 1) + j - (slotBytes r).length = slotSize * k + j := by simp [Nat.mul_add]; omega
      rw [this, ih]
      simp

/-- What a read of the memory finds after the iterator wrote its slots: their bytes in the table, nothing above them, and
the old byte outside the table. -/
theorem read_writeRecords (slots : List RecordSlot) (r : RecStop) (s : State)
    (h : slots.length ≤ Config.pMaxRecords) (a : Nat) :
    Memory.read (writeRecords slots r s).mem a =
      if recBase ≤ a ∧ a < recEnd then (slots.flatMap slotBytes)[a - recBase]? else Memory.read s.mem a := by
  have hlen := flatMap_slotBytes_length slots
  simp only [Config.pMaxRecords] at h
  simp only [slotSize] at hlen
  simp only [writeRecords_mem, Memory.read_writeBytes, Memory.read_forget]
  by_cases hin : recBase ≤ a ∧ a < recBase + (slots.flatMap slotBytes).length
  · have : recBase ≤ a ∧ a < recEnd := by simp only [recBase, recEnd] at *; omega
    rw [if_pos hin, if_pos this]
  · rw [if_neg hin]
    split
    · rw [List.getElem?_eq_none (by omega)]
    · rfl

end Sys2Proof.Machine
end

