-- ==== Sys2Proof/Laws/Step.lean ====
section
/-! SUPPORT. What a step can do, said once, and each arm of `exec` as the state function of its command. -/

namespace Sys2Proof.Machine

@[simp] theorem exec_nop (s : State) : exec .nop s = .next (finish .ok .none s) := rfl

@[simp] theorem exec_decode (s : State) : exec .decode s = .next (decodeCommand defaultParams s) := rfl

@[simp] theorem exec_parseFrame (s : State) : exec .parseFrame s = .next (parseFrame s) := rfl

@[simp] theorem exec_deriveIv (s : State) : exec .deriveIv s = .next (deriveIvCommand s) := rfl

@[simp] theorem exec_decrypt (s : State) : exec .decrypt s = .next (decryptCommand s) := rfl

@[simp] theorem exec_iterate (s : State) : exec .iterate s = .next (iterateCommand defaultParams s) := rfl

/-- A step that answers a next state is a host access in IDLE, a host access in a bus slot of a running command, the
completion of a command, or the completion of an illegal word. -/
theorem step_cases {s t : State} (h : step s = .next t) :
    (s.phase = .idle ∧ t = hostStep s) ∨
    (∃ w left, s.phase = .busy w (left + 1) ∧ t = hostStep { s with phase := .busy w left }) ∨
    (∃ w i, s.phase = .busy w 0 ∧ decode w = .ok i ∧ exec i s = .next t) ∨
    (∃ w e, s.phase = .busy w 0 ∧ decode w = .error e ∧ t = illegalCommand s) := by
  unfold step at h
  split at h
  · rename_i hp; cases h; exact .inl ⟨hp, rfl⟩
  · rename_i w hp
    unfold complete at h
    split at h
    · rename_i i hi; exact .inr (.inr (.inl ⟨w, i, hp, hi, h⟩))
    · rename_i e he; cases h; exact .inr (.inr (.inr ⟨w, e, hp, he, rfl⟩))
  · rename_i w left hp; cases h; exact .inr (.inl ⟨w, left, hp, rfl⟩)

/-- What the host's next entry does: nothing, a read of any kind, a write, or a reset. -/
theorem hostStep_cases (s : State) :
    (s.hostQueue = [] ∧ hostStep s = s) ∨
    (∃ size off rest q, s.hostQueue = rest ∧ hostStep s = hostRead size off { s with hostQueue := q }) ∨
    (∃ size off v rest, s.hostQueue = .write size off v :: rest ∧
      hostStep s = hostWrite size off v { s with hostQueue := rest }) ∨
    (∃ rest, s.hostQueue = .hardReset :: rest ∧ hostStep s = blockReset { s with hostQueue := rest }) := by
  unfold hostStep
  cases h : s.hostQueue with
  | nil => exact .inl ⟨rfl, rfl⟩
  | cons op rest =>
    cases op with
    | read size off => exact .inr (.inl ⟨size, off, _, rest, rfl, rfl⟩)
    | write size off v => exact .inr (.inr (.inl ⟨size, off, v, rest, rfl, rfl⟩))
    | poll => exact .inr (.inl ⟨.word, 0x00C#14, _, _, rfl, rfl⟩)
    | hardReset => exact .inr (.inr (.inr ⟨rest, rfl, rfl⟩))

/-- A read, refused or not, changes only the bus answer, BUS_ERR and the draw counter (R104, R106, R421). -/
theorem hostRead_cases (size : AccessSize) (off : BitVec 14) (s : State) :
    hostRead size off s = refuseAccess s ∨
      ∃ data d, s.draw ≤ d ∧ hostRead size off s = { s with resp := ⟨data, false⟩, draw := d } := by
  unfold hostRead
  split
  · right
    unfold readWord
    cases hp : s.phase with
    | idle => exact ⟨_, s.draw, le_refl _, rfl⟩
    | busy w left => exact ⟨_, s.draw + 1, Nat.le_succ _, rfl⟩
  · exact .inl rfl

/-- A write, refused or not: what the block does with it, by the register it meets (R32 to R35, R420). -/
theorem hostWrite_cases (size : AccessSize) (off : BitVec 14) (v : Word) (s : State) :
    hostWrite size off v s = refuseAccess s ∨
    ∃ u, hostWrite size off v s = { u with resp := ⟨0#32, false⟩ } ∧
      (u = s ∨ u = blockReset s ∨ u = setWrIgnored s ∨ u = setCmdOverrun s ∨ u = writeStatus v s ∨
        (busy s = false ∧ u = issue v s) ∨ (busy s = false ∧ u = { s with irqEn := v.getLsbD 0 }) ∨
        (busy s = false ∧ off.toNat % 4 = 0 ∧ u = writeInput off.toNat v s)) := by
  unfold hostWrite
  split
  · rename_i hacc
    have hal : off.toNat % 4 = 0 := by
      simp only [acceptable, Bool.and_eq_true, beq_iff_eq] at hacc
      exact hacc.2
    right
    refine ⟨writeEffect off.toNat v s, rfl, ?_⟩
    unfold writeEffect
    split
    · unfold writeCtrl
      split
      · simp
      · cases hb : busy s <;> simp
    · cases hb : busy s <;> simp
    · simp
    · split
      · cases hb : busy s <;> simp [hal]
      · simp
  · exact .inl rfl

end Sys2Proof.Machine
end

