-- ==== Sys2Proof/Laws/Commands.lean ====
section
/-! SUPPORT. What the stages of the commands leave, said once each: the frame stage's verdicts, the cleared results, the
written plaintext, the record stage, and the forms PARSE_FRAME, DECRYPT, ITERATE and DECODE take in each of their
cases. -/

namespace Sys2Proof.Machine

/-! ### The frame stage -/

theorem frameStage_of_short {F : List Byte} (h : F.length < 10) : frameStage F = (.malformed, FrameInfo.cleared) := by
  simp [frameStage, h]

theorem frameStage_malformed_iff (F : List Byte) : (frameStage F).1 = .malformed ↔ F.length < 10 := by
  simp only [frameStage]
  split
  · simp_all
  · split
    · simp_all
    · split <;> simp_all

/-- PAYLOAD_OFF and PAYLOAD_LEN split the telegram (R169). -/
theorem frameStage_payload {F : List Byte} (h : (frameStage F).1 = .ok) (hn : F.length ≤ 256) :
    (frameStage F).2.payloadOff.toNat + (frameStage F).2.payloadLen.toNat = F.length := by
  simp only [frameStage] at h ⊢
  split at h
  · cases h
  · split at h
    · simp_all
    · split at h
      · cases h
      · rename_i h3 h4 h5
        simp only [h3, h4, h5, if_false]
        generalize tplKindOfCi (byteAt F 10) = k at *
        cases k <;> simp [payloadOffset] at * <;> omega

/-- A truncated TPL is not extracted: SEC_STATUS stays NONE (R166). -/
theorem frameSecStatus_of_truncated {F : List Byte} (h : (frameStage F).1 = .truncated) :
    frameSecStatus (frameStage F).2 = .none := by
  simp only [frameStage] at h ⊢
  split at h
  · cases h
  · split at h
    · cases h
    · split at h
      · rename_i h3 h4 h5
        simp [h3, h4, h5, frameSecStatus, dllHeader, FrameInfo.cleared]
      · cases h

/-- The ENCRYPTED bit means a valid TPL (R46, R168). -/
theorem tplValid_of_encrypted {F : List Byte} (h : (frameStage F).2.encrypted = true) :
    (frameStage F).2.tplValid = true := by
  simp only [frameStage] at h ⊢
  split at h
  · cases h
  · split at h
    · cases h
    · split at h
      · cases h
      · rename_i h3 h4 h5
        simp only [h3, h4, h5, if_false]
        generalize tplKindOfCi (byteAt F 10) = k at *
        cases k <;> simp [securityTest, extractTpl, dllHeader, FrameInfo.cleared] at *

/-! ### Cleared results -/

theorem noResults_finish_clearResults {scope : Scope} (h : scope ≠ .none) (s : State) (o : OutcomeClass)
    (e : ErrCode) : NoResults (finish o e (clearResults scope s)) := by
  cases scope
  · exact absurd rfl h
  all_goals exact ⟨rfl, rfl, fun a h1 h2 => (read_clearWork s a).trans (if_pos ⟨h1, h2⟩)⟩

/-- Only the lengths and the cells of the result buffers matter. -/
theorem NoResults.congr {s t : State} (h : NoResults s) (hl : t.ptLen = s.ptLen) (hr : t.recCount = s.recCount)
    (hm : t.mem = s.mem) : NoResults t := by
  simpa only [NoResults, hl, hr, hm] using h

theorem noResults_clearResults {scope : Scope} (h : scope ≠ .none) (s : State) :
    NoResults (clearResults scope s) :=
  (noResults_finish_clearResults h s .ok .none).congr rfl rfl rfl

/-- The payload after the frame stage's writes (R169). -/
theorem payloadBytes_setInfo (f : FrameInfo) (scope : Scope) {s : State}
    (hn : s.frameLen.toNat ≤ Config.pFrameMax) :
    payloadBytes (setInfo f (clearResults scope s)) = (frameBytes s).drop f.payloadOff.toNat :=
  congrArg (List.drop f.payloadOff.toNat) (frameBytes_clearResults scope s hn)

/-! ### The marker -/

theorem markerOf_iff (p : List Byte) : markerOf p = true ↔ ∃ rest, p = 0x2F#8 :: 0x2F#8 :: rest := by
  rcases p with _ | ⟨a, _ | ⟨b, rest⟩⟩ <;> simp [markerOf, byteAt]

/-! ### The record stage -/

theorem iterateAndFinish_eq (P : Config.Params) (s : State) :
    iterateAndFinish P s =
      finish (stopOutcome (iterate P (ptBytes s)).2).1 (stopOutcome (iterate P (ptBytes s)).2).2
        (writeRecords (iterate P (ptBytes s)).1 (iterate P (ptBytes s)).2 s) := rfl

theorem writeRecords_toNat_recCount (slots : List RecordSlot) (r : RecStop) (s : State)
    (h : slots.length ≤ Config.pMaxRecords) : (writeRecords slots r s).recCount.toNat = slots.length := by
  simp only [Config.pMaxRecords] at h
  show (BitVec.ofNat 8 slots.length).toNat = _
  simp only [BitVec.toNat_ofNat]
  omega

theorem tableHolds_writeRecords (slots : List RecordSlot) (r : RecStop) (s : State)
    (h : slots.length ≤ Config.pMaxRecords) : TableHolds (writeRecords slots r s) slots := by
  refine ⟨writeRecords_toNat_recCount slots r s h, fun k hk j hj => ?_⟩
  have hb : recBase ≤ 0x400 + 64 * k + j ∧ 0x400 + 64 * k + j < recEnd := by
    simp only [Config.pMaxRecords] at h
    simp only [recBase, recEnd]
    omega
  rw [read_writeRecords slots r s h, if_pos hb,
    show 0x400 + 64 * k + j - recBase = slotSize * k + j by simp only [recBase, slotSize]; omega,
    flatMap_slotBytes_getElem? slots k j hj, List.getElem?_eq_getElem hk]
  rfl

/-- The record stage on a plaintext that was just written: its outcome, table, stop reason and the plaintext itself. -/
theorem iterateAndFinish_writePt (P : Config.Params) (p : List Byte) (s : State) (hp : p.length ≤ Config.pPtMax) :
    Finished (stopOutcome (iterate P p).2).1 (stopOutcome (iterate P p).2).2 (iterateAndFinish P (writePt p s)) ∧
    (iterateAndFinish P (writePt p s)).status.recStop = (iterate P p).2 ∧
    (iterateAndFinish P (writePt p s)).ptLen.toNat = p.length ∧
    ptBytes (iterateAndFinish P (writePt p s)) = p ∧
    TableHolds (iterateAndFinish P (writePt p s)) (iterate P p).1 := by
  have hr := iterate_length_le P hp
  rw [iterateAndFinish_eq, ptBytes_writePt p s hp]
  refine ⟨⟨rfl, rfl, rfl, rfl⟩, rfl, writePt_toNat_ptLen p s hp, ?_, tableHolds_writeRecords _ (iterate P p).2 _ hr⟩
  refine ptBytes_of_writePt (s := s) hp rfl fun a h1 h2 => ?_
  refine (read_writeRecords _ (iterate P p).2 _ hr a).trans (if_neg ?_)
  simp only [ptBase, Config.pPtMax] at h2
  simp only [recBase]
  omega

/-! ### Words and bytes of the IV -/

/-- A word built from bytes is their little-endian number (R17, R101). -/
theorem wordOfBytes_toNat (b0 b1 b2 b3 : Byte) :
    (wordOfBytes b0 b1 b2 b3).toNat = b0.toNat + 256 * (b1.toNat + 256 * (b2.toNat + 256 * b3.toNat)) := by
  have h0 := b0.isLt; have h1 := b1.isLt; have h2 := b2.isLt; have h3 := b3.isLt
  show (b3 ++ b2 ++ b1 ++ b0).toNat = _
  rw [BitVec.toNat_append, BitVec.toNat_append, BitVec.toNat_append]
  rw [Nat.shiftLeft_eq, Nat.shiftLeft_eq, Nat.shiftLeft_eq]
  rw [Nat.mul_comm, ← Nat.two_pow_add_eq_or_of_lt h0, Nat.mul_comm _ (2 ^ 8), ← Nat.two_pow_add_eq_or_of_lt h1,
    Nat.mul_comm _ (2 ^ 8), ← Nat.two_pow_add_eq_or_of_lt h2]
  omega

/-- Lane `m` of a word built from bytes is byte `m` (R101). -/
theorem lane_wordOfBytes (b0 b1 b2 b3 : Byte) :
    lane (wordOfBytes b0 b1 b2 b3) 0 = b0 ∧ lane (wordOfBytes b0 b1 b2 b3) 1 = b1 ∧
    lane (wordOfBytes b0 b1 b2 b3) 2 = b2 ∧ lane (wordOfBytes b0 b1 b2 b3) 3 = b3 := by
  have h0 := b0.isLt; have h1 := b1.isLt; have h2 := b2.isLt; have h3 := b3.isLt
  refine ⟨?_, ?_, ?_, ?_⟩ <;> apply BitVec.eq_of_toNat_eq <;>
    simp only [lane, BitVec.extractLsb'_toNat, wordOfBytes_toNat, Nat.shiftRight_eq_div_pow] <;> omega

@[simp] theorem wordBytes_wordOfBytes (b0 b1 b2 b3 : Byte) :
    wordBytes (wordOfBytes b0 b1 b2 b3) = [b0, b1, b2, b3] := by
  obtain ⟨h0, h1, h2, h3⟩ := lane_wordOfBytes b0 b1 b2 b3
  simp only [wordBytes, h0, h1, h2, h3]

@[simp] theorem colOfWord_wordOfBytes (b0 b1 b2 b3 : Byte) :
    colOfWord (wordOfBytes b0 b1 b2 b3) = ⟨b0, b1, b2, b3⟩ := by
  obtain ⟨h0, h1, h2, h3⟩ := lane_wordOfBytes b0 b1 b2 b3
  simp only [colOfWord, h0, h1, h2, h3]

/-- The IV registers after `IV[0..16) <- v` hold the block whose bytes are `v` (R42). -/
theorem ivBlock_writeIv {v : List Byte} {b : Block} (h : IsBlock v b) (s : State) : ivBlock (writeIv v s) = b := by
  cases h
  simp [ivBlock, writeIv, blockBytes, colBytes, byteAt]

theorem ivBytes_writeIv {v : List Byte} {b : Block} (h : IsBlock v b) (s : State) : ivBytes (writeIv v s) = v := by
  cases h
  simp [ivBytes, writeIv, blockBytes, colBytes, byteAt]

/-! ### The cipher stage (R216) -/

theorem cipherStage_of_noKey (P : Config.Params) (c : List Byte) {s : State} (hk : s.keyLen = 0#8) :
    cipherStage P c s = (.degraded, .noKey, setSecStatus .encrypted s) := by
  simp only [cipherStage, hk, if_true]

theorem cipherStage_of_badKey (P : Config.Params) (c : List Byte) {s : State} (h0 : s.keyLen ≠ 0#8)
    (hk : s.keyLen ≠ 16#8) : cipherStage P c s = (.fatal, .invalidKeyLength, s) := by
  rw [cipherStage, if_neg h0, if_pos hk]

theorem cipherStage_of_badLength (P : Config.Params) {c : List Byte} {s : State} (hk : s.keyLen = 16#8)
    (hc : c.length % 16 ≠ 0) :
    cipherStage P c s =
      (.degraded, .cipherLength, setSecStatus .undecryptable (writeIv (ivForDecode P s.info) s)) := by
  rw [cipherStage, if_neg (by rw [hk]; decide), if_neg (not_not.2 hk)]
  exact if_pos hc

theorem cipherStage_of_noMarker (P : Config.Params) {c : List Byte} {s : State} (hk : s.keyLen = 16#8)
    (hc : c.length % 16 = 0) (hm : markerOf (decryptBytes (writeIv (ivForDecode P s.info) s) c) = false) :
    cipherStage P c s =
      (.degraded, .decryptionIntegrity,
        setSecStatus .undecryptable (setMarker false (writeIv (ivForDecode P s.info) s))) := by
  rw [cipherStage, if_neg (by rw [hk]; decide), if_neg (not_not.2 hk)]
  simp only [if_neg (not_not.2 hc), hm]
  rfl

theorem cipherStage_of_marker (P : Config.Params) {c : List Byte} {s : State} (hk : s.keyLen = 16#8)
    (hc : c.length % 16 = 0) (hm : markerOf (decryptBytes (writeIv (ivForDecode P s.info) s) c) = true) :
    cipherStage P c s =
      (.ok, .none, writePt ((decryptBytes (writeIv (ivForDecode P s.info) s) c).drop 2)
        (setSecStatus .decrypted (setMarker true (writeIv (ivForDecode P s.info) s)))) := by
  rw [cipherStage, if_neg (by rw [hk]; decide), if_neg (not_not.2 hk)]
  simp only [if_neg (not_not.2 hc), hm, if_true]

/-! ### The forms of the commands -/

theorem parseFrame_of_tooLong {s : State} (h : Config.pFrameMax < s.frameLen.toNat) :
    parseFrame s = finish .fatal .frameLenRange (clearResults .frame s) := prologue_of_tooLong (by decide) _ h

theorem parseFrame_of_malformed {s : State} (h : s.frameLen.toNat < 10) :
    parseFrame s = finish .fatal .malformedFrame (clearResults .frame s) := by
  have hn : s.frameLen.toNat ≤ Config.pFrameMax := by simp only [Config.pFrameMax]; omega
  rw [parseFrame, prologue_of_fits _ _ hn, frameBytes_clearResults _ _ hn,
    frameStage_of_short (by simpa using h)]

theorem parseFrame_of_truncated {s : State} (hn : s.frameLen.toNat ≤ Config.pFrameMax)
    (h : (frameStage (frameBytes s)).1 = .truncated) :
    parseFrame s =
      finish .degraded .payloadTruncated (setInfo (frameStage (frameBytes s)).2 (clearResults .frame s)) := by
  rw [parseFrame, prologue_of_fits _ _ hn, frameBytes_clearResults _ _ hn]
  rcases hv : frameStage (frameBytes s) with ⟨v, f⟩
  rw [hv] at h
  cases h
  rfl

theorem parseFrame_of_ok {s : State} (hn : s.frameLen.toNat ≤ Config.pFrameMax)
    (h : (frameStage (frameBytes s)).1 = .ok) :
    parseFrame s =
      finish .ok .none (writePt ((frameBytes s).drop (frameStage (frameBytes s)).2.payloadOff.toNat)
        (setInfo (frameStage (frameBytes s)).2 (clearResults .frame s))) := by
  rw [parseFrame, prologue_of_fits _ _ hn, frameBytes_clearResults _ _ hn]
  rcases hv : frameStage (frameBytes s) with ⟨v, f⟩
  rw [hv] at h
  cases h
  show finish .ok .none (writePt (payloadBytes (setInfo f (clearResults .frame s))) _) = _
  rw [payloadBytes_setInfo f .frame hn]

theorem decodeCommand_of_tooLong (P : Config.Params) {s : State} (h : Config.pFrameMax < s.frameLen.toNat) :
    decodeCommand P s = finish .fatal .frameLenRange (clearResults .frame s) := prologue_of_tooLong (by decide) _ h

theorem decodeCommand_of_malformed (P : Config.Params) {s : State} (h : s.frameLen.toNat < 10) :
    decodeCommand P s = finish .fatal .malformedFrame (clearResults .frame s) := by
  have hn : s.frameLen.toNat ≤ Config.pFrameMax := by simp only [Config.pFrameMax]; omega
  rw [decodeCommand, prologue_of_fits _ _ hn, frameBytes_clearResults _ _ hn,
    frameStage_of_short (by simpa using h)]

theorem decodeCommand_of_truncated (P : Config.Params) {s : State} (hn : s.frameLen.toNat ≤ Config.pFrameMax)
    (h : (frameStage (frameBytes s)).1 = .truncated) :
    decodeCommand P s =
      finish .degraded .payloadTruncated (setInfo (frameStage (frameBytes s)).2 (clearResults .frame s)) := by
  rw [decodeCommand, prologue_of_fits _ _ hn, frameBytes_clearResults _ _ hn]
  rcases hv : frameStage (frameBytes s) with ⟨v, f⟩
  rw [hv] at h
  cases h
  rfl

/-- DECODE of an unencrypted telegram: the record stage on the raw payload (R214, R346). -/
theorem decodeCommand_of_unencrypted (P : Config.Params) {s : State} (hn : s.frameLen.toNat ≤ Config.pFrameMax)
    (h : (frameStage (frameBytes s)).1 = .ok) (he : (frameStage (frameBytes s)).2.encrypted = false) :
    decodeCommand P s =
      iterateAndFinish P (writePt ((frameBytes s).drop (frameStage (frameBytes s)).2.payloadOff.toNat)
        (setInfo (frameStage (frameBytes s)).2 (clearResults .frame s))) := by
  rw [decodeCommand, prologue_of_fits _ _ hn, frameBytes_clearResults _ _ hn]
  rcases hv : frameStage (frameBytes s) with ⟨v, f⟩
  rw [hv] at h he
  cases h
  have hi : (setInfo f (clearResults .frame s)).info.encrypted = false := he
  show decodePayload P (setInfo f (clearResults .frame s)) = _
  rw [decodePayload, if_neg (by rw [hi]; decide), payloadBytes_setInfo f .frame hn]

/-- DECODE of an encrypted telegram: the cipher stage on the payload (R346). -/
theorem decodeCommand_of_encrypted (P : Config.Params) {s : State} (hn : s.frameLen.toNat ≤ Config.pFrameMax)
    (h : (frameStage (frameBytes s)).1 = .ok) (he : (frameStage (frameBytes s)).2.encrypted = true) :
    decodeCommand P s =
      afterCipher P (cipherStage P ((frameBytes s).drop (frameStage (frameBytes s)).2.payloadOff.toNat)
        (setInfo (frameStage (frameBytes s)).2 (clearResults .frame s))) := by
  rw [decodeCommand, prologue_of_fits _ _ hn, frameBytes_clearResults _ _ hn]
  rcases hv : frameStage (frameBytes s) with ⟨v, f⟩
  rw [hv] at h he
  cases h
  have hi : (setInfo f (clearResults .frame s)).info.encrypted = true := he
  show decodePayload P (setInfo f (clearResults .frame s)) = _
  rw [decodePayload, if_pos hi, payloadBytes_setInfo f .frame hn]

theorem decryptCommand_of_tooLong {s : State} (h : Config.pFrameMax < s.frameLen.toNat) :
    decryptCommand s = finish .fatal .frameLenRange (clearResults .cipher s) := prologue_of_tooLong (by decide) _ h

theorem decryptCommand_of_badKey {s : State} (hn : s.frameLen.toNat ≤ Config.pFrameMax) (hk : s.keyLen ≠ 16#8) :
    decryptCommand s = finish .fatal .invalidKeyLength (clearResults .cipher s) := by
  rw [decryptCommand, prologue_of_fits _ _ hn, clearResults_keyLen, if_pos hk]

theorem decryptCommand_of_badLength {s : State} (hn : s.frameLen.toNat ≤ Config.pFrameMax) (hk : s.keyLen = 16#8)
    (hm : s.frameLen.toNat % 16 ≠ 0) :
    decryptCommand s = finish .fatal .cipherLength (clearResults .cipher s) := by
  rw [decryptCommand, prologue_of_fits _ _ hn, clearResults_keyLen, if_neg (not_not.2 hk), clearResults_frameLen,
    if_pos hm]

theorem decryptCommand_of_ok {s : State} (hn : s.frameLen.toNat ≤ Config.pFrameMax) (hk : s.keyLen = 16#8)
    (hm : s.frameLen.toNat % 16 = 0) :
    decryptCommand s =
      finish .ok .none (setMarker (markerOf (decryptBytes s (frameBytes s)))
        (writePt (decryptBytes s (frameBytes s)) (clearResults .cipher s))) := by
  rw [decryptCommand, prologue_of_fits _ _ hn, clearResults_keyLen, if_neg (not_not.2 hk), clearResults_frameLen,
    if_neg (not_not.2 hm), frameBytes_clearResults _ _ hn]
  rfl

theorem iterateCommand_of_tooLong (P : Config.Params) {s : State} (h : Config.pFrameMax < s.frameLen.toNat) :
    iterateCommand P s = finish .fatal .frameLenRange (clearResults .records s) := prologue_of_tooLong (by decide) _ h

theorem iterateCommand_of_fits (P : Config.Params) {s : State} (hn : s.frameLen.toNat ≤ Config.pFrameMax) :
    iterateCommand P s = iterateAndFinish P (writePt (frameBytes s) (clearResults .records s)) := by
  rw [iterateCommand, prologue_of_fits _ _ hn, frameBytes_clearResults _ _ hn]

end Sys2Proof.Machine
end

