-- ==== Sys2Proof/Laws/Bus.lean ====
section
/-! SUPPORT. The register map by ranges of offsets, and the forms a host access takes. -/

namespace Sys2Proof.Machine

/-! ### The register map (R31) -/

/-- From 0x070 on the map is the three buffers and reserved offsets. -/
theorem regAt_of_ge {n : Nat} (h : 0x070 ≤ n) :
    regAt n =
      if 0x100 ≤ n ∧ n < 0x200 then .frameBuf
      else if 0x200 ≤ n ∧ n < 0x300 then .ptBuf
      else if 0x400 ≤ n ∧ n < 0x2400 then .recTable
      else .reserved := by
  unfold regAt
  split <;> first | omega | rfl

theorem regAt_frameBuf {n : Nat} (h1 : 0x100 ≤ n) (h2 : n < 0x200) : regAt n = .frameBuf := by
  rw [regAt_of_ge (by omega), if_pos ⟨h1, h2⟩]

theorem regAt_ptBuf {n : Nat} (h1 : 0x200 ≤ n) (h2 : n < 0x300) : regAt n = .ptBuf := by
  rw [regAt_of_ge (by omega), if_neg (by omega), if_pos ⟨h1, h2⟩]

theorem regAt_recTable {n : Nat} (h1 : 0x400 ≤ n) (h2 : n < 0x2400) : regAt n = .recTable := by
  rw [regAt_of_ge (by omega), if_neg (by omega), if_neg (by omega), if_pos ⟨h1, h2⟩]

theorem regAt_reserved {n : Nat} (h : 0x070 ≤ n ∧ n < 0x100 ∨ 0x300 ≤ n ∧ n < 0x400 ∨ 0x2400 ≤ n) :
    regAt n = .reserved := by
  rw [regAt_of_ge (by omega), if_neg (by omega), if_neg (by omega), if_neg (by omega)]

/-- Only offset 4 is CTRL. -/
theorem eq_of_regAt_ctrl {n : Nat} (h : regAt n = .ctrl) : n = 0x004 := by
  unfold regAt at h
  split at h <;> first | rfl | cases h | skip
  split at h <;> [cases h; split at h <;> [cases h; split at h <;> cases h]]

/-! ### The forms of an access (R104) -/

theorem acceptable_word {off : BitVec 14} (h : off.toNat % 4 = 0) : acceptable .word off = true := by
  simp [acceptable, h]

theorem acceptable_eq_false {size : AccessSize} {off : BitVec 14} (h : size ≠ .word ∨ off.toNat % 4 ≠ 0) :
    acceptable size off = false := by
  simp only [acceptable, Bool.and_eq_false_iff, beq_eq_false_iff_ne]
  exact h

theorem hostRead_word {off : BitVec 14} (h : off.toNat % 4 = 0) (s : State) :
    hostRead .word off s = readWord off.toNat s := by
  rw [hostRead, if_pos (acceptable_word h)]

theorem hostWrite_word {off : BitVec 14} (h : off.toNat % 4 = 0) (v : Word) (s : State) :
    hostWrite .word off v s = writeWord off.toNat v s := by
  rw [hostWrite, if_pos (acceptable_word h)]

theorem busy_of_idle {s : State} (h : s.phase = .idle) : busy s = false := by simp [busy, h]

theorem busy_of_busy {s : State} {w : Word} {left : Nat} (h : s.phase = .busy w left) : busy s = true := by
  simp [busy, h]

/-! ### Words and their lanes (R101) -/

/-- A word is the word of its lanes. -/
@[simp] theorem wordOfBytes_lanes (v : Word) : wordOfBytes (lane v 0) (lane v 1) (lane v 2) (lane v 3) = v := by
  apply BitVec.eq_of_toNat_eq
  have := v.isLt
  simp only [wordOfBytes_toNat, lane, BitVec.extractLsb'_toNat, Nat.shiftRight_eq_div_pow]
  omega

/-- Storing a word's lanes, read back byte by byte. -/
theorem read_writeBytes_wordBytes (m : List Host.Cell) (off : Nat) (v : Word) {i : Nat} (hi : i < 4) :
    Memory.read (Memory.writeBytes m off (wordBytes v)) (off + i) = some (lane v i) := by
  rw [Memory.read_writeBytes_inside m off i (wordBytes v) hi]
  interval_cases i <;> rfl

/-! ### Host statements (R136) -/

/-- Access `j` of a FILL: the word at `off + 4j`, missing bytes 0, as far as the bytes and the window go (entry 18). -/
theorem hostFill_getElem? (off : BitVec 14) (bs : List Byte) (j : Nat) :
    (hostFill off bs)[j]? =
      if 4 * j < bs.length ∧ (j = 0 ∨ off.toNat + 4 * j < 0x4000) then
        some (.write .word (off + BitVec.ofNat 14 (4 * j))
          (wordOfBytes (byteAt bs (4 * j)) (byteAt bs (4 * j + 1)) (byteAt bs (4 * j + 2)) (byteAt bs (4 * j + 3))))
      else none := by
  match bs with
  | [] => simp [hostFill]
  | [b0] => cases j <;> simp [hostFill, hostW, byteAt]
  | [b0, b1] => (cases j <;> simp [hostFill, hostW, byteAt]); omega
  | [b0, b1, b2] => (cases j <;> simp [hostFill, hostW, byteAt]); omega
  | b0 :: b1 :: b2 :: b3 :: bs =>
    cases j with
    | zero => simp [hostFill, hostW, byteAt]
    | succ j =>
      have hoff := off.isLt
      simp only [hostFill, hostW, List.cons_append, List.nil_append, List.getElem?_cons_succ]
      split
      · rename_i h
        have h4 : (off + 4#14).toNat = off.toNat + 4 := by
          simp only [BitVec.toNat_add, BitVec.toNat_ofNat]; omega
        have hadd : off + 4#14 + BitVec.ofNat 14 (4 * j) = off + BitVec.ofNat 14 (4 * (j + 1)) := by
          apply BitVec.eq_of_toNat_eq
          simp only [BitVec.toNat_add, BitVec.toNat_ofNat]
          omega
        have hb : ∀ k, byteAt (b0 :: b1 :: b2 :: b3 :: bs) (4 * (j + 1) + k) = byteAt bs (4 * j + k) := by
          intro k
          have : 4 * (j + 1) + k = 4 * j + k + 1 + 1 + 1 + 1 := by omega
          simp [byteAt, this]
        have hc : (4 * j < bs.length ∧ (j = 0 ∨ off.toNat + 4 + 4 * j < 0x4000)) ↔
            (4 * (j + 1) < bs.length + 1 + 1 + 1 + 1 ∧ (j + 1 = 0 ∨ off.toNat + 4 * (j + 1) < 0x4000)) := by
          omega
        have h0 := hb 0
        simp only [Nat.add_zero] at h0
        rw [hostFill_getElem? (off + 4#14) bs j]
        simp only [h4, hadd, hb, h0, hc, List.length_cons]
      · rename_i h
        rw [List.getElem?_nil, if_neg]
        simp only [List.length_cons]
        omega

end Sys2Proof.Machine
end

