-- ==== Sys2Proof/Laws/Frames.lean ====
section
/-! SUPPORT. What the stages of the commands leave alone: `SameInputs` as a relation that every shared operation keeps,
and one case analysis per command that says everything it can leave. -/

namespace Sys2Proof.Machine

/-! ### SameInputs is kept by every operation -/

theorem SameInputs.refl (s : State) : SameInputs s s := by constructor <;> intros <;> rfl

theorem SameInputs.trans {s t u : State} (h : SameInputs s t) (g : SameInputs t u) : SameInputs s u where
  irqEn := g.irqEn.trans h.irqEn
  frameLen := g.frameLen.trans h.frameLen
  keyLen := g.keyLen.trans h.keyLen
  key0 := g.key0.trans h.key0
  key1 := g.key1.trans h.key1
  key2 := g.key2.trans h.key2
  key3 := g.key3.trans h.key3
  ivinM := g.ivinM.trans h.ivinM
  ivinA := g.ivinA.trans h.ivinA
  ivinAcc := g.ivinAcc.trans h.ivinAcc
  ivinFc := g.ivinFc.trans h.ivinFc
  frameBuf := fun a h1 h2 => (g.frameBuf a h1 h2).trans (h.frameBuf a h1 h2)
  outside := fun a ha => (g.outside a ha).trans (h.outside a ha)
  cmdOverrun := g.cmdOverrun.trans h.cmdOverrun
  wrIgnored := g.wrIgnored.trans h.wrIgnored
  busErr := g.busErr.trans h.busErr
  lastOp := g.lastOp.trans h.lastOp
  hostQueue := g.hostQueue.trans h.hostQueue
  resp := g.resp.trans h.resp
  latencies := g.latencies.trans h.latencies
  frameDraw := g.frameDraw.trans h.frameDraw

/-- An update that keeps the listed fields and the bytes outside PT_BUF and REC_TABLE keeps `SameInputs`. -/
theorem SameInputs.of_mem {s t : State}
    (hm : ∀ a, a < ptBase ∨ recEnd ≤ a → Memory.read t.mem a = Memory.read s.mem a)
    (hf : t.frameDraw = s.frameDraw)
    (hr : t.irqEn = s.irqEn ∧ t.frameLen = s.frameLen ∧ t.keyLen = s.keyLen ∧ t.key0 = s.key0 ∧ t.key1 = s.key1 ∧
      t.key2 = s.key2 ∧ t.key3 = s.key3 ∧ t.ivinM = s.ivinM ∧ t.ivinA = s.ivinA ∧ t.ivinAcc = s.ivinAcc ∧
      t.ivinFc = s.ivinFc)
    (hs : t.status.cmdOverrun = s.status.cmdOverrun ∧ t.status.wrIgnored = s.status.wrIgnored ∧
      t.status.busErr = s.status.busErr ∧ t.status.lastOp = s.status.lastOp)
    (hh : t.hostQueue = s.hostQueue ∧ t.resp = s.resp ∧ t.latencies = s.latencies) : SameInputs s t := by
  obtain ⟨r1, r2, r3, r4, r5, r6, r7, r8, r9, r10, r11⟩ := hr
  obtain ⟨s1, s2, s3, s4⟩ := hs
  obtain ⟨h1, h2, h3⟩ := hh
  exact ⟨r1, r2, r3, r4, r5, r6, r7, r8, r9, r10, r11,
    fun a _ ha => bufByte_congr_frame (by simp only [ptBase]; omega) (hm a (.inl (by simp only [ptBase]; omega))) hf,
    hm, s1, s2, s3, s4, h1, h2, h3, hf⟩

theorem sameInputs_clearResults (scope : Scope) (s : State) : SameInputs s (clearResults scope s) := by
  have h : SameInputs s (clearWork s) := by
    refine .of_mem (fun a ha => ?_) rfl ⟨rfl, rfl, rfl, rfl, rfl, rfl, rfl, rfl, rfl, rfl, rfl⟩
      ⟨rfl, rfl, rfl, rfl⟩ ⟨rfl, rfl, rfl⟩
    exact (read_clearWork s a).trans (if_neg (by omega))
  cases scope
  · exact .refl s
  · exact h.trans ⟨rfl, rfl, rfl, rfl, rfl, rfl, rfl, rfl, rfl, rfl, rfl, fun _ _ _ => rfl, fun _ _ => rfl, rfl, rfl,
      rfl, rfl, rfl, rfl, rfl, rfl⟩
  · exact h
  · exact h

theorem sameInputs_finish (o : OutcomeClass) (e : ErrCode) (s : State) : SameInputs s (finish o e s) :=
  .of_mem (fun _ _ => rfl) rfl ⟨rfl, rfl, rfl, rfl, rfl, rfl, rfl, rfl, rfl, rfl, rfl⟩ ⟨rfl, rfl, rfl, rfl⟩
    ⟨rfl, rfl, rfl⟩

theorem sameInputs_setInfo (f : FrameInfo) (s : State) : SameInputs s (setInfo f s) :=
  .of_mem (fun _ _ => rfl) rfl ⟨rfl, rfl, rfl, rfl, rfl, rfl, rfl, rfl, rfl, rfl, rfl⟩ ⟨rfl, rfl, rfl, rfl⟩
    ⟨rfl, rfl, rfl⟩

theorem sameInputs_setSecStatus (v : SecStatus) (s : State) : SameInputs s (setSecStatus v s) :=
  .of_mem (fun _ _ => rfl) rfl ⟨rfl, rfl, rfl, rfl, rfl, rfl, rfl, rfl, rfl, rfl, rfl⟩ ⟨rfl, rfl, rfl, rfl⟩
    ⟨rfl, rfl, rfl⟩

theorem sameInputs_setMarker (v : Bool) (s : State) : SameInputs s (setMarker v s) :=
  .of_mem (fun _ _ => rfl) rfl ⟨rfl, rfl, rfl, rfl, rfl, rfl, rfl, rfl, rfl, rfl, rfl⟩ ⟨rfl, rfl, rfl, rfl⟩
    ⟨rfl, rfl, rfl⟩

theorem sameInputs_writeIv (v : List Byte) (s : State) : SameInputs s (writeIv v s) :=
  .of_mem (fun _ _ => rfl) rfl ⟨rfl, rfl, rfl, rfl, rfl, rfl, rfl, rfl, rfl, rfl, rfl⟩ ⟨rfl, rfl, rfl, rfl⟩
    ⟨rfl, rfl, rfl⟩

theorem sameInputs_writePt {p : List Byte} (hp : p.length ≤ Config.pPtMax) (s : State) :
    SameInputs s (writePt p s) := by
  refine .of_mem (fun a ha => ?_) rfl ⟨rfl, rfl, rfl, rfl, rfl, rfl, rfl, rfl, rfl, rfl, rfl⟩
    ⟨rfl, rfl, rfl, rfl⟩ ⟨rfl, rfl, rfl⟩
  refine (read_writePt p s hp a).trans (if_neg ?_)
  simp only [ptBase, recEnd, Config.pPtMax] at *
  omega

theorem sameInputs_writeRecords {slots : List RecordSlot} (h : slots.length ≤ Config.pMaxRecords) (r : RecStop)
    (s : State) : SameInputs s (writeRecords slots r s) := by
  refine .of_mem (fun a ha => ?_) rfl ⟨rfl, rfl, rfl, rfl, rfl, rfl, rfl, rfl, rfl, rfl, rfl⟩
    ⟨rfl, rfl, rfl, rfl⟩ ⟨rfl, rfl, rfl⟩
  refine (read_writeRecords slots r s h a).trans (if_neg ?_)
  simp only [ptBase, recBase, recEnd] at *
  omega

theorem sameInputs_iterateAndFinish_writePt (P : Config.Params) {p : List Byte} (hp : p.length ≤ Config.pPtMax)
    (s : State) : SameInputs s (iterateAndFinish P (writePt p s)) := by
  rw [iterateAndFinish_eq, ptBytes_writePt p s hp]
  exact ((sameInputs_writePt hp s).trans (sameInputs_writeRecords (iterate_length_le P hp) _ _)).trans
    (sameInputs_finish _ _ _)

/-! ### Everything a command can leave -/

/-- The cases of `CipherStage` (R216), the plaintext no longer than the ciphertext. -/
theorem cipherStage_cases (P : Config.Params) (c : List Byte) (s : State) :
    (s.keyLen = 0#8 ∧ cipherStage P c s = (.degraded, .noKey, setSecStatus .encrypted s)) ∨
    (s.keyLen ≠ 0#8 ∧ s.keyLen ≠ 16#8 ∧ cipherStage P c s = (.fatal, .invalidKeyLength, s)) ∨
    (s.keyLen = 16#8 ∧ c.length % 16 ≠ 0 ∧ cipherStage P c s =
      (.degraded, .cipherLength, setSecStatus .undecryptable (writeIv (ivForDecode P s.info) s))) ∨
    (s.keyLen = 16#8 ∧ c.length % 16 = 0 ∧
      markerOf (decryptBytes (writeIv (ivForDecode P s.info) s) c) = false ∧ cipherStage P c s =
      (.degraded, .decryptionIntegrity,
        setSecStatus .undecryptable (setMarker false (writeIv (ivForDecode P s.info) s)))) ∨
    (s.keyLen = 16#8 ∧ c.length % 16 = 0 ∧
      markerOf (decryptBytes (writeIv (ivForDecode P s.info) s) c) = true ∧
      ((decryptBytes (writeIv (ivForDecode P s.info) s) c).drop 2).length ≤ c.length ∧ cipherStage P c s =
      (.ok, .none, writePt ((decryptBytes (writeIv (ivForDecode P s.info) s) c).drop 2)
        (setSecStatus .decrypted (setMarker true (writeIv (ivForDecode P s.info) s))))) := by
  by_cases h0 : s.keyLen = 0#8
  · exact .inl ⟨h0, cipherStage_of_noKey P c h0⟩
  by_cases hk : s.keyLen = 16#8
  · by_cases hc : c.length % 16 = 0
    · cases hm : markerOf (decryptBytes (writeIv (ivForDecode P s.info) s) c)
      · exact .inr (.inr (.inr (.inl ⟨hk, hc, rfl, cipherStage_of_noMarker P hk hc hm⟩)))
      · refine .inr (.inr (.inr (.inr ⟨hk, hc, rfl, ?_, cipherStage_of_marker P hk hc hm⟩)))
        have := decryptBytes_length_le (writeIv (ivForDecode P s.info) s) hc
        rw [List.length_drop]
        omega
    · exact .inr (.inr (.inl ⟨hk, hc, cipherStage_of_badLength P hk hc⟩))
  · exact .inr (.inl ⟨h0, hk, cipherStage_of_badKey P c h0 hk⟩)

/-- What the frame results and the STATUS fields of DECODE say of each other (the part of `BlockInv` that no length and no
byte enters). -/
structure InfoStatusOk (s : State) : Prop where
  info_ok : FrameInfoOk s.info
  sec_valid : s.status.secStatus ≠ .none → s.info.tplValid = true
  sec_encrypted : s.status.secStatus ≠ .none →
    (s.status.secStatus = .unencrypted ↔ s.info.encrypted = false)
  marker_of_decrypted : s.status.secStatus = .decrypted → s.status.marker = true
  sec_of_marker : s.status.marker = true → s.status.secStatus = .none ∨ s.status.secStatus = .decrypted

theorem InfoStatusOk.of_none {s : State} (hi : FrameInfoOk s.info) (hs : s.status.secStatus = .none) :
    InfoStatusOk s :=
  ⟨hi, fun h => absurd hs h, fun h => absurd hs h, fun h => (by rw [hs] at h; cases h), fun _ => .inl hs⟩

theorem frameInfoOk_cleared : FrameInfoOk FrameInfo.cleared := by constructor <;> decide

/-- The frame stage leaves consistent frame results (R163 to R169). -/
theorem frameInfoOk_frameStage {F : List Byte} (hn : F.length ≤ 256) : FrameInfoOk (frameStage F).2 := by
  simp only [frameStage]
  split
  · exact frameInfoOk_cleared
  · split
    · constructor <;> simp [dllHeader, FrameInfo.cleared]
    · split
      · constructor <;> simp [dllHeader, FrameInfo.cleared, tplKindOfCi]
      · rename_i h
        generalize hk : tplKindOfCi (byteAt F 10) = k at *
        cases k <;> constructor <;>
          simp [securityTest, extractTpl, dllHeader, FrameInfo.cleared, encryptedMode, cfgSecMode, payloadOffset, hk]
            at * <;> omega

/-- The frame stage's writes are consistent before the cipher stage, whatever the cleared STATUS holds (R168). -/
theorem infoStatusOk_setInfo {F : List Byte} (hn : F.length ≤ 256) {s : State} (hm : s.status.marker = false) :
    InfoStatusOk (setInfo (frameStage F).2 s) := by
  have hi := frameInfoOk_frameStage hn
  generalize (frameStage F).2 = f at *
  have hs : (setInfo f s).status.secStatus = frameSecStatus f := rfl
  have hf : (setInfo f s).info = f := rfl
  refine ⟨hi, ?_, ?_, ?_, ?_⟩
  · rw [hs, hf]
    unfold frameSecStatus
    cases f.tplValid <;> simp
  · rw [hs, hf]
    unfold frameSecStatus
    cases f.tplValid <;> cases f.encrypted <;> simp
  · rw [hs]
    unfold frameSecStatus
    cases f.tplValid <;> cases f.encrypted <;> simp
  · intro h
    rw [show (setInfo f s).status.marker = s.status.marker from rfl, hm] at h
    cases h

/-- The cipher stage's writes are consistent on an encrypted telegram (R216). -/
theorem InfoStatusOk.of_encrypted {s : State} (hi : FrameInfoOk s.info) (he : s.info.encrypted = true)
    (hu : s.status.secStatus ≠ .unencrypted) (hm : s.status.marker = true ↔ s.status.secStatus = .decrypted) :
    InfoStatusOk s :=
  ⟨hi, fun _ => (hi.encrypted_iff.1 he).1, fun _ => by simp [he, hu], hm.2, fun h => .inr (hm.1 h)⟩

/-- Everything a command can leave, over a state `u` that its stages built without touching the host's inputs: nothing
new, an IV, no result at all, a plaintext, or a plaintext and its records. -/
inductive Leaves (s t : State) : Prop
  /-- NOP, and an illegal word. -/
  | kept (o : OutcomeClass) (e : ErrCode) (h : t = finish o e s)
  /-- DERIVE_IV. -/
  | iv (v : List Byte) (h : t = finish .ok .none (writeIv v s))
  /-- A command that ends before it has a plaintext. -/
  | none (scope : Scope) (hscope : scope ≠ .none) (u : State) (o : OutcomeClass) (e : ErrCode)
      (hu : SameInputs s u) (hd : u.draw = s.draw) (hm : u.mem = (clearResults scope s).mem) (hp : u.ptLen = 0#9)
      (hr : u.recCount = 0#8) (hi : FrameInfoOk s.info → InfoStatusOk u) (h : t = finish o e u)
  /-- PARSE_FRAME or DECRYPT: a plaintext that is not iterated. -/
  | plain (scope : Scope) (hscope : scope ≠ .none) (u : State) (p : List Byte) (m : Bool)
      (hl : p.length ≤ Config.pPtMax) (hu : SameInputs s u) (hd : u.draw = s.draw)
      (hm : u.mem = (clearResults scope s).mem) (hr : u.recCount = 0#8) (hs : u.status.secStatus ≠ .undecryptable)
      (hi : FrameInfoOk s.info → InfoStatusOk (setMarker m u)) (h : t = finish .ok .none (setMarker m (writePt p u)))
  /-- DECODE or ITERATE: a plaintext and its records. -/
  | records (scope : Scope) (hscope : scope ≠ .none) (P : Config.Params) (u : State) (p : List Byte)
      (hl : p.length ≤ Config.pPtMax) (hu : SameInputs s u) (hd : u.draw = s.draw)
      (hm : u.mem = (clearResults scope s).mem) (hs : u.status.secStatus ≠ .undecryptable)
      (hi : FrameInfoOk s.info → InfoStatusOk u) (h : t = iterateAndFinish P (writePt p u))

theorem leaves_parseFrame (s : State) : Leaves s (parseFrame s) := by
  have hc := sameInputs_clearResults .frame s
  by_cases hn : s.frameLen.toNat ≤ Config.pFrameMax
  · have hF : (frameBytes s).length ≤ 256 := (frameBytes_length s).trans_le hn
    cases hv : (frameStage (frameBytes s)).1
    · rw [parseFrame_of_ok hn hv]
      refine .plain .frame (by decide) (setInfo (frameStage (frameBytes s)).2 (clearResults .frame s)) _ false ?_
        (hc.trans (sameInputs_setInfo _ _)) rfl rfl rfl ?_ (fun _ => infoStatusOk_setInfo hF rfl) rfl
      · rw [List.length_drop]
        exact (Nat.sub_le _ _).trans hF
      · show frameSecStatus _ ≠ _
        unfold frameSecStatus
        split <;> [split; skip] <;> decide
    · have h10 : s.frameLen.toNat < 10 := by simpa using (frameStage_malformed_iff _).1 hv
      rw [parseFrame_of_malformed h10]
      exact .none .frame (by decide) _ _ _ hc rfl rfl rfl rfl (fun _ => .of_none frameInfoOk_cleared rfl) rfl
    · rw [parseFrame_of_truncated hn hv]
      exact .none .frame (by decide) (setInfo (frameStage (frameBytes s)).2 _) _ _
        (hc.trans (sameInputs_setInfo _ _)) rfl rfl rfl rfl (fun _ => infoStatusOk_setInfo hF rfl) rfl
  · rw [parseFrame_of_tooLong (by omega)]
    exact .none .frame (by decide) _ _ _ hc rfl rfl rfl rfl (fun _ => .of_none frameInfoOk_cleared rfl) rfl

theorem leaves_decryptCommand (s : State) : Leaves s (decryptCommand s) := by
  have hc := sameInputs_clearResults .cipher s
  by_cases hn : s.frameLen.toNat ≤ Config.pFrameMax
  · by_cases hk : s.keyLen = 16#8
    · by_cases hm : s.frameLen.toNat % 16 = 0
      · rw [decryptCommand_of_ok hn hk hm]
        have hl := decryptBytes_length_le s (c := frameBytes s) (by simpa using hm)
        rw [frameBytes_length] at hl
        exact .plain .cipher (by decide) _ _ _ (hl.trans hn) hc rfl rfl rfl (by simp)
          (fun hi => .of_none hi rfl) rfl
      · rw [decryptCommand_of_badLength hn hk hm]
        exact .none .cipher (by decide) _ _ _ hc rfl rfl rfl rfl (fun hi => .of_none hi rfl) rfl
    · rw [decryptCommand_of_badKey hn hk]
      exact .none .cipher (by decide) _ _ _ hc rfl rfl rfl rfl (fun hi => .of_none hi rfl) rfl
  · rw [decryptCommand_of_tooLong (by omega)]
    exact .none .cipher (by decide) _ _ _ hc rfl rfl rfl rfl (fun hi => .of_none hi rfl) rfl

theorem leaves_iterateCommand (P : Config.Params) (s : State) : Leaves s (iterateCommand P s) := by
  have hc := sameInputs_clearResults .records s
  by_cases hn : s.frameLen.toNat ≤ Config.pFrameMax
  · rw [iterateCommand_of_fits P hn]
    exact .records .records (by decide) P _ _ ((frameBytes_length s).trans_le hn) hc rfl rfl (by simp)
      (fun hi => .of_none hi rfl) rfl
  · rw [iterateCommand_of_tooLong P (by omega)]
    exact .none .records (by decide) _ _ _ hc rfl rfl rfl rfl (fun hi => .of_none hi rfl) rfl

theorem leaves_decodeCommand (P : Config.Params) (s : State) : Leaves s (decodeCommand P s) := by
  have hc := sameInputs_clearResults .frame s
  by_cases hn : s.frameLen.toNat ≤ Config.pFrameMax
  · have hF : (frameBytes s).length ≤ 256 := (frameBytes_length s).trans_le hn
    have hp : ((frameBytes s).drop (frameStage (frameBytes s)).2.payloadOff.toNat).length ≤ 256 := by
      rw [List.length_drop]
      exact (Nat.sub_le _ _).trans hF
    have hf := frameInfoOk_frameStage hF
    have hu := hc.trans (sameInputs_setInfo (frameStage (frameBytes s)).2 _)
    cases hv : (frameStage (frameBytes s)).1
    · cases he : (frameStage (frameBytes s)).2.encrypted
      · rw [decodeCommand_of_unencrypted P hn hv he]
        refine .records .frame (by decide) P _ _ hp hu rfl rfl ?_ (fun _ => infoStatusOk_setInfo hF rfl) rfl
        show frameSecStatus _ ≠ _
        unfold frameSecStatus
        split <;> [split; skip] <;> decide
      · rw [decodeCommand_of_encrypted P hn hv he]
        generalize ((frameBytes s).drop (frameStage (frameBytes s)).2.payloadOff.toNat) = c at *
        generalize (frameStage (frameBytes s)).2 = f at *
        rcases cipherStage_cases P c (setInfo f (clearResults .frame s)) with
          ⟨_, h⟩ | ⟨_, _, h⟩ | ⟨_, _, h⟩ | ⟨_, _, _, h⟩ | ⟨_, _, _, hl, h⟩ <;> rw [h]
        · exact .none .frame (by decide) _ _ _ (hu.trans (sameInputs_setSecStatus _ _)) rfl rfl rfl rfl
            (fun _ => .of_encrypted hf he (by simp) (by simp)) rfl
        · exact .none .frame (by decide) (clearResults .frame (setInfo f (clearResults .frame s))) _ _
            (hu.trans (sameInputs_clearResults _ _)) rfl (by simp [Memory.forget]) rfl rfl
            (fun _ => .of_none frameInfoOk_cleared rfl) rfl
        · exact .none .frame (by decide) _ _ _
            ((hu.trans (sameInputs_writeIv _ _)).trans (sameInputs_setSecStatus _ _)) rfl rfl rfl rfl
            (fun _ => .of_encrypted hf he (by simp) (by simp)) rfl
        · exact .none .frame (by decide) _ _ _
            (((hu.trans (sameInputs_writeIv _ _)).trans (sameInputs_setMarker _ _)).trans
              (sameInputs_setSecStatus _ _)) rfl rfl rfl rfl
            (fun _ => .of_encrypted hf he (by simp) (by simp)) rfl
        · exact .records .frame (by decide) P _ _ (hl.trans hp)
            (((hu.trans (sameInputs_writeIv _ _)).trans (sameInputs_setMarker _ _)).trans
              (sameInputs_setSecStatus _ _)) rfl rfl (by simp)
            (fun _ => .of_encrypted hf he (by simp) (by simp)) rfl
    · have h10 : s.frameLen.toNat < 10 := by simpa using (frameStage_malformed_iff _).1 hv
      rw [decodeCommand_of_malformed P h10]
      exact .none .frame (by decide) _ _ _ hc rfl rfl rfl rfl (fun _ => .of_none frameInfoOk_cleared rfl) rfl
    · rw [decodeCommand_of_truncated P hn hv]
      exact .none .frame (by decide) (setInfo (frameStage (frameBytes s)).2 _) _ _ hu rfl rfl rfl rfl (fun _ => infoStatusOk_setInfo hF rfl) rfl
  · rw [decodeCommand_of_tooLong P (by omega)]
    exact .none .frame (by decide) _ _ _ hc rfl rfl rfl rfl (fun _ => .of_none frameInfoOk_cleared rfl) rfl

/-- What any command can leave. -/
theorem leaves_exec {i : Instr} {s t : State} (h : exec i s = .next t) : Leaves s t := by
  cases i <;> simp only [exec_nop, exec_decode, exec_parseFrame, exec_deriveIv, exec_decrypt, exec_iterate,
    Host.Outcome.next.injEq] at h <;> subst h
  · exact .kept _ _ rfl
  · exact leaves_decodeCommand _ s
  · exact leaves_parseFrame s
  · exact .iv _ rfl
  · exact leaves_decryptCommand s
  · exact leaves_iterateCommand _ s

end Sys2Proof.Machine
end

