-- ==== Sys2Proof/Laws/PerInstr.lean ====
section
/-! SUPPORT. Statements made per command of spec/opcode_table.json. -/

namespace Sys2Proof.Laws

/-- The word of a command is well formed (R130, R132) and its bytes on the bus are its lanes (R101). -/
def CommandWord.Statement (i : Instr) : Prop :=
  commandWordWellFormed (encode i) = true ∧ encodeBytes i = [(encode i).extractLsb' 0 8, 0#8, 0#8, 0#8]

theorem CommandWord.nop : CommandWord.Statement .nop := by unfold CommandWord.Statement; decide

theorem CommandWord.decode : CommandWord.Statement .decode := by unfold CommandWord.Statement; decide

theorem CommandWord.parseFrame : CommandWord.Statement .parseFrame := by unfold CommandWord.Statement; decide

theorem CommandWord.deriveIv : CommandWord.Statement .deriveIv := by unfold CommandWord.Statement; decide

theorem CommandWord.decrypt : CommandWord.Statement .decrypt := by unfold CommandWord.Statement; decide

theorem CommandWord.iterate : CommandWord.Statement .iterate := by unfold CommandWord.Statement; decide

end Sys2Proof.Laws
end

