-- ==== Sys2Proof/Tests/Slice0.lean ====
section
/-! SUPPORT. The model's own tests: the checks of WellFormed, the decoder on words written out from R130 and R132, a few
vectors of 95_test_vectors.md one step each, and for every obligation with hypotheses a concrete state and operands
that meet them. -/

namespace Sys2Proof.Tests

open Sys2Proof Sys2Proof.Machine

/-! ### Helpers -/

/-- `len` bytes written as one number, the first byte most significant. -/
def hex (len x : Nat) : List Byte := (List.range len).map (fun i => BitVec.ofNat 8 (x >>> (8 * (len - 1 - i))))

/-- The state a step leaves. -/
def after : Host.Outcome State Fault Refusal → State
  | .next s => s
  | .fault _ => State.reset
  | .refused _ => State.reset

/-- Reset, with a telegram in FRAME_BUF and its length (R136 `FRAME`). -/
def framed (F : List Byte) : State :=
  { State.reset with frameLen := BitVec.ofNat 9 F.length, mem := Memory.writeBytes [] 0x100 F }

/-- KEY0 to KEY3 and KEY_LEN (R41). -/
def keyed (k0 k1 k2 k3 : Word) (len : BitVec 8) (s : State) : State :=
  { s with key0 := k0, key1 := k1, key2 := k2, key3 := k3, keyLen := len }

/-- The key K of 95_test_vectors.md, `00 01 .. 0F`. -/
def keyedK (s : State) : State := keyed 0x03020100#32 0x07060504#32 0x0B0A0908#32 0x0F0E0D0C#32 16#8 s

/-- The state after the command issued from `s` has completed. -/
def ran (i : Instr) (s : State) : State := after (step (s.withFetchWord 32 (opOf i).toNat))

/-- The words of slot `k`. -/
def slot (s : State) (k : Nat) : List Word := (List.range 16).map (fun i => regWord s (0x400 + 64 * k + 4 * i))

/-- Four words of a block, the first byte most significant. -/
def block (x : Nat) : Block := (blocksOf (hex 16 x)).getD 0 ⟨⟨0, 0, 0, 0⟩, ⟨0, 0, 0, 0⟩, ⟨0, 0, 0, 0⟩, ⟨0, 0, 0, 0⟩⟩

/-! ### WellFormed refuses ill-formed terms -/

theorem test_wf_word_mbz : commandWordWellFormed 0x00000010#32 = false := by decide

theorem test_wf_word_op : commandWordWellFormed 0x00000006#32 = false := by decide

theorem test_wf_word_last : commandWordWellFormed 0x00000005#32 = true := by decide

theorem test_wf_instr : ∀ i ∈ [Instr.nop, .decode, .parseFrame, .deriveIv, .decrypt, .iterate],
    i.wellFormed = true := by decide

/-- R285: an INT of 9 bytes, a BCD of none, a REAL of 8, an INT of variable length. -/
theorem test_wf_dif : DifEntryWellFormed ⟨.int, .fixed 9⟩ = false ∧ DifEntryWellFormed ⟨.bcd, .fixed 0⟩ = false ∧
    DifEntryWellFormed ⟨.real, .fixed 8⟩ = false ∧ DifEntryWellFormed ⟨.int, .var⟩ = false ∧
    DifEntryWellFormed ⟨.nodata, .fixed 256⟩ = false ∧ DifEntryWellFormed ⟨.int, .fixed 8⟩ = true := by decide

/-- R52: an exponent that an s8 field cannot hold. -/
theorem test_wf_vif : VifEntryWellFormed ⟨1#8, 128, .plain⟩ = false ∧ VifEntryWellFormed ⟨1#8, -129, .plain⟩ = false ∧
    VifEntryWellFormed ⟨1#8, -128, .plain⟩ = true := by decide

theorem test_wf_params :
    ParamsWellFormed { defaultParams with difTable := fun _ => ⟨.real, .fixed 3⟩ } = false := by decide

/-! ### The decoder, on words written out bit by bit from R130 and R132 -/

theorem test_decode_nop : decode 0b00000000000000000000000000000000#32 = .ok .nop := by decide

theorem test_decode_decode : decode 0b00000000000000000000000000000001#32 = .ok .decode := by decide

theorem test_decode_parseFrame : decode 0b00000000000000000000000000000010#32 = .ok .parseFrame := by decide

theorem test_decode_deriveIv : decode 0b00000000000000000000000000000011#32 = .ok .deriveIv := by decide

theorem test_decode_decrypt : decode 0b00000000000000000000000000000100#32 = .ok .decrypt := by decide

theorem test_decode_iterate : decode 0b00000000000000000000000000000101#32 = .ok .iterate := by decide

theorem test_decode_reserved : decode 0b00000000000000000000000000000110#32 = .error .reservedOp ∧
    decode 0b00000000000000000000000000001111#32 = .error .reservedOp ∧
    decode 0b00000000000000000000000000010001#32 = .error .mbzNonzero ∧
    decode 0b10000000000000000000000000000000#32 = .error .mbzNonzero := by decide

theorem test_decode_bytes : decodeBytes [0x03#8, 0x00#8, 0x00#8, 0x00#8] = .ok .deriveIv ∧
    decodeBytes [0x00#8, 0x00#8, 0x00#8, 0x03#8] = .error .mbzNonzero ∧
    decodeBytes [0x03#8, 0x00#8, 0x00#8] = .error .wrongLength := by decide

theorem test_decodeTableWord : decodeTableWord 32 5 = some .iterate ∧ decodeTableWord 8 4 = some .decrypt ∧
    decodeTableWord 32 6 = none := by decide

/-! ### Vectors of 95_test_vectors.md -/

/-- T1. -/
def t1 : List Byte := hex 38 0x264493446287133135087262871331934435085A0000000B6E563412026CDF2C041310270000 ++ [0x2F#8]

/-- T2. -/
def t2 : List Byte :=
  hex 23 0x364493446287133135087262871331934435085A001005 ++
    hex 32 0xAD983FC3C0D07219F7F864B0C695E840B963376DDE5229CBFEE7CC490FEAFB77

/-- V36. -/
theorem test_nop_V36 : statusWord (ran .nop State.reset) = 0x00000002#32 := by decide

/-- V37, V38, V39b: illegal words. -/
theorem test_illegal : statusWord (after (step (issueFor 0x00000010#32 0 State.reset))) = 0x0000008A#32 ∧
    statusWord (after (step (issueFor 0x00000006#32 0 State.reset))) = 0x0060008A#32 ∧
    statusWord (after (step (issueFor 0xFFFFFFF1#32 0 State.reset))) = 0x0010008A#32 := by decide

/-- T1: STATUS, the header registers, PT_LEN and slot 1, a Type G date. -/
theorem test_decode_T1 :
    let s := ran .decode (framed t1)
    statusWord s = 0x00101102#32 ∧ regWord s 0x050 = 0x44934426#32 ∧ regWord s 0x058 = 0x17720835#32 ∧
    regWord s 0x068 = 0x00100017#32 ∧ s.ptLen = 16#9 ∧
    slot s 1 = [0x04006C02#32, 0x00070005#32, 0#32, 0#32, 0x00001202#32, 0x07D20E1F#32] ++ List.replicate 10 0#32 := by
  decide +kernel

/-- T2 under K: decrypted, the IV, and the last plaintext word that PT_LEN = 15 fills. -/
theorem test_decode_T2 :
    let s := ran .decode (keyedK (framed t2))
    statusWord s = 0x00101B02#32 ∧ s.iv0 = 0x87624493#32 ∧ s.iv1 = 0x005A3113#32 ∧ s.ptLen = 15#9 ∧
    regWord s 0x208 = 0x1013042C#32 ∧ s.recCount = 3#8 := by
  decide +kernel

/-- V11: PARSE_FRAME keeps the ciphertext. -/
theorem test_parseFrame_V11 :
    let s := ran .parseFrame (framed t2)
    statusWord s = 0x00200202#32 ∧ s.ptLen = 32#9 ∧ regWord s 0x200 = 0xC33F98AD#32 ∧ s.iv0 = 0#32 := by
  decide +kernel

/-- V13b: a long TPL that is cut. -/
theorem test_parseFrame_V13b :
    let s := ran .parseFrame (framed (t1.take 20))
    statusWord s = 0x00200026#32 ∧ regWord s 0x058 = 0x07720835#32 ∧ regWord s 0x068 = 0#32 := by
  decide +kernel

/-- V17. -/
theorem test_deriveIv_V17 :
    let s := ran .deriveIv
      { State.reset with ivinM := 0x4493#16, ivinA := 0x31138762#32, ivinAcc := 0x5A#8, ivinFc := 0x1234#16 }
    statusWord s = 0x00300002#32 ∧ [s.iv0, s.iv1, s.iv2, s.iv3] =
      [0x87624493#32, 0x345A3113#32, 0x00000012#32, 0#32] := by decide

/-- V20b. -/
theorem test_deriveIv_V20b :
    let s := ran .deriveIv
      { State.reset with ivinM := 0xFFFF#16, ivinA := 0xFFFFFFFF#32, ivinAcc := 0xFF#8, ivinFc := 0xFFFF#16 }
    [s.iv0, s.iv1, s.iv2, s.iv3] = [0xFFFFFFFF#32, 0xFFFFFFFF#32, 0x000000FF#32, 0#32] := by decide

/-- V28: a whole block is stripped, its pad bytes unchecked. -/
theorem test_decrypt_V28 :
    let s := ran .decrypt (keyedK (framed (hex 16 0x5039969D3F38EC51E3A105F56161B863)))
    statusWord s = 0x00400002#32 ∧ s.ptLen = 0#9 := by
  decide +kernel

/-- V29: a last byte above 16 strips nothing. -/
theorem test_decrypt_V29 :
    let s := ran .decrypt (keyedK (framed (hex 16 0x12D199CCCEEC95ECD5EE444A9997CD5B)))
    statusWord s = 0x00400002#32 ∧ s.ptLen = 16#9 ∧ regWord s 0x20C = 0x112E2D2C#32 := by
  decide +kernel

/-- I2: FUNC, storage, tariff and subunit from two DIFEs. -/
theorem test_iterate_I2 :
    let s := ran .iterate (framed (hex 8 0xB4F0012BE8030000))
    statusWord s = 0x00501002#32 ∧ slot s 0 =
      [0x31022BB4#32, 0x00040000#32, 0x000003E8#32, 0#32, 0x00000904#32, 0#32, 0#32, 0x00000020#32, 0#32,
        0x00000003#32, 0x00000001#32, 0x000001F0#32, 0#32, 0#32, 0#32, 0#32] := by
  decide +kernel

/-- I16: a 12-digit BCD and a 64-bit integer. -/
theorem test_iterate_I16 :
    let s := ran .iterate (framed (hex 18 0x0E1356341290785607130102030405060708))
    statusWord s = 0x00501002#32 ∧
    slot s 0 = [0x0200130E#32, 0x00020000#32, 0x90123456#32, 0x00005678#32, 0xFDFD0306#32] ++ List.replicate 11 0#32 ∧
    slot s 1 = [0x01001307#32, 0x000A0008#32, 0x04030201#32, 0x08070605#32, 0x00FD0308#32] ++
      List.replicate 11 0#32 := by
  decide +kernel

/-- V39c and V39d: a misaligned read, and a reserved offset. -/
theorem test_bus_V39 :
    statusWord (hostRead .word 0x002#14 State.reset) = 0x00040000#32 ∧
    (hostRead .word 0x070#14 (hostWrite .word 0x070#14 0x12345678#32 State.reset)).resp = ⟨0#32, false⟩ ∧
    statusWord (hostWrite .word 0x070#14 0x12345678#32 State.reset) = 0#32 := by decide

/-- V40. -/
theorem test_aes_V40 :
    aesInvCipher (block 0x000102030405060708090a0b0c0d0e0f) (block 0x69c4e0d86a7b0430d8cdb78070b4c55a) =
      block 0x00112233445566778899aabbccddeeff ∧
    aesCipher (block 0x000102030405060708090a0b0c0d0e0f) (block 0x00112233445566778899aabbccddeeff) =
      block 0x69c4e0d86a7b0430d8cdb78070b4c55a := by
  decide +kernel

/-- V41 and V42. -/
theorem test_aes_keys_V41_V42 :
    roundKey (block 0x000102030405060708090a0b0c0d0e0f) 1 = block 0xd6aa74fdd2af72fadaa678f1d6ab76fe ∧
    roundKey (block 0x000102030405060708090a0b0c0d0e0f) 10 = block 0x13111d7fe3944a17f307a78b4d2b30c5 ∧
    roundKey (block 0x2b7e151628aed2a6abf7158809cf4f3c) 10 = block 0xd014f9a8c9ee2589e13f0cc8b6630ca6 := by
  decide +kernel

/-- V43. -/
theorem test_cbc_V43 :
    cbcDecrypt (block 0x2b7e151628aed2a6abf7158809cf4f3c) (block 0x000102030405060708090a0b0c0d0e0f)
      (hex 32 0x7649abac8119b246cee98e9b12e9197d5086cb9b507219ee95db113a917678b2) =
      hex 32 0x6bc1bee22e409f96e93d7e117393172aae2d8a571e03ac9c9eb76fac45af8e51 := by
  decide +kernel

/-- V33: the reference encrypt of 15 bytes under a zero IV. -/
theorem test_refEncrypt_V33 :
    refEncrypt (block 0x000102030405060708090a0b0c0d0e0f) (block 0) (hex 15 0xA0A1A2A3A4A5A6A7A8A9AAABACADAE) =
      hex 16 0xEE60404976AD8640A8F3341D7D62E360 := by
  decide +kernel

/-- V1 and V2 under the other radix and the other date layout. -/
theorem test_fixtures_V1_V2 :
    bcdNat (radix .r16) [0x86#8, 0x61#8] = 0x6186 ∧ bcdNat (radix .r10) [0x86#8, 0x61#8] = 6186 ∧
    dateG .doc 0xDF#8 0x2C#8 = (31#5, 14#4, 2002#12) ∧ dateG .en13757 0xDF#8 0x2C#8 = (31#5, 12#4, 2022#12) := by
  decide

/-! ### Witnesses: a state and operands that meet the hypotheses of each obligation, clause by clause -/

/-- A running command word with bus slots left and the host's next accesses. -/
def running (w : Word) (left : Nat) (q : List HostOp) : State :=
  { State.reset with phase := .busy w left, status := { Status.reset with lastOp := wordOp w }, hostQueue := q }

/-- IDLE, with the host's next accesses. -/
def idle (q : List HostOp) : State := { State.reset with hostQueue := q }

/-- A state other than reset that meets the invariant: one specified FRAME_BUF byte and a running command. -/
def sample : State := { running 0x00000000#32 0 [] with mem := [(0x100, 0x31#8)] }

theorem sample_read {a : Nat} (h : Memory.read sample.mem a ≠ none) : a = 0x100 := by
  by_contra hn
  exact h (by simp [sample, Memory.read, hn])

/-- StepKeepsTheInvariant. -/
theorem witness_invariant : BlockInv sample ∧ ∃ t, step sample = .next t := by
  refine ⟨?_, _, rfl⟩
  constructor
  · decide
  · intro a h
    exact .inl (by rw [sample_read h]; decide)
  · exact fun i hi => absurd hi (Nat.not_lt_zero i)
  · exact fun i hi => absurd hi (Nat.not_lt_zero i)
  · decide
  · decide
  · decide
  · constructor <;> decide
  all_goals decide

/-- BusyEndsWithinItsLatency, at no slot left and at three. -/
theorem witness_busy : (running 0x00000001#32 0 []).phase = .busy 0x00000001#32 0 ∧
    (running 0x00000010#32 3 []).phase = .busy 0x00000010#32 3 := by decide

/-- CmdWriteIssuesTheCommand, StepRunsTheDecodedCommand: the four cases of a CMD write and a completion. -/
theorem witness_cmd :
    (idle [.write .word 0x008#14 0x00000005#32]).phase = .idle ∧
    (idle [.write .word 0x008#14 0x00000005#32]).hostQueue = .write .word 0x008#14 0x00000005#32 :: [] ∧
    (running 0x00000005#32 0 []).phase = .busy 0x00000005#32 0 ∧ decode 0x00000005#32 = .ok .iterate ∧
    (running 0x00000006#32 0 []).phase = .busy 0x00000006#32 0 ∧ decode 0x00000006#32 = .error .reservedOp ∧
    (running 0x00000001#32 1 [.write .word 0x008#14 0#32]).phase = .busy 0x00000001#32 (0 + 1) ∧
    (running 0x00000001#32 1 [.write .word 0x008#14 0#32]).hostQueue = .write .word 0x008#14 0#32 :: [] := by decide

/-- BusyAccessDoesNotChangeTheCommand: an ignored FRAME_LEN write in the slot of a DECODE. -/
theorem witness_busyAccess :
    let s := running 0x00000001#32 1 [.write .word 0x010#14 7#32]
    s.phase = .busy 0x00000001#32 (0 + 1) ∧ (∀ rest, s.hostQueue ≠ .hardReset :: rest) ∧
    (∀ v rest, s.hostQueue = .write .word 0x004#14 v :: rest → v.getLsbD 1 = false) ∧
    ∃ u a b, step s = .next u ∧ exec .decode s = .next a ∧ exec .decode u = .next b := by
  refine ⟨rfl, fun rest h => (by cases h), fun v rest h => (by cases h), _, _, _, rfl, rfl, rfl⟩

/-- IllegalWordChangesOnlyStatus and DecodeIsExactlyTheOpcodeMap, at the first word above 5 and the last. -/
theorem witness_illegal : 5 < (0x00000006#32).toNat ∧ 5 < (0xFFFFFFFF#32).toNat ∧ ¬ 5 < (0x00000005#32).toNat := by
  decide

/-- DeriveIvIsInjective: equal IVs exist. -/
theorem witness_deriveIv : deriveIv 0x4493#16 0x31138762#32 0x5A#8 0x1234#16 =
    [0x93#8, 0x44#8, 0x62#8, 0x87#8, 0x13#8, 0x31#8, 0x5A#8, 0x34#8, 0x12#8, 0#8, 0#8, 0#8, 0#8, 0#8, 0#8, 0#8] := by
  decide

/-- IvForDecodeByTheBuild: the long TPL under both builds, and the short one. -/
theorem witness_ivForDecode :
    ({ defaultParams with ivFields := .tplIfLong } : Config.Params).ivFields = .tplIfLong ∧
    ({ FrameInfo.cleared with tplKind := .long } : FrameInfo).tplKind = .long ∧ defaultParams.ivFields = .dll ∧
    ({ FrameInfo.cleared with tplKind := .short } : FrameInfo).tplKind ≠ .long := by decide

/-- FrameStageVerdictAndBoundary, at each boundary of the length: 9, 10, 11, a short TPL of 14 and 15 bytes, a long one of
22 and 23, and 256 bytes. -/
theorem witness_frameStage :
    (t1.take 9).length < 10 ∧ (t1.take 10).length = 10 ∧ 10 ≤ (t1.take 10).length ∧
    11 ≤ (List.replicate 11 0x78#8).length ∧ (List.replicate 11 0x78#8).getD 10 0#8 = 0x78#8 ∧
    (List.replicate 14 0x7A#8).length < 15 ∧ (List.replicate 14 0x7A#8).getD 10 0#8 = 0x7A#8 ∧
    15 ≤ (List.replicate 15 0x7A#8).length ∧ (t1.take 22).length < 23 ∧ (t1.take 22).getD 10 0#8 = 0x72#8 ∧
    23 ≤ (t1.take 23).length ∧ (List.replicate 256 0x72#8).length ≤ 256 := by decide +kernel

/-- FrameStageTplAndSecurityMode: a long, a short and no TPL, encrypted and not. -/
theorem witness_tpl :
    let long := (frameStage t2)
    let short := (frameStage (List.replicate 15 0x7A#8))
    let none := (frameStage (List.replicate 11 0x78#8))
    10 ≤ t2.length ∧ long.1 = .ok ∧ long.2.tplKind = .long ∧ long.2.tplValid = true ∧ long.2.encrypted = true ∧
    short.1 = .ok ∧ short.2.tplKind = .short ∧ short.2.tplValid = true ∧ short.2.encrypted = false ∧
    none.1 = .ok ∧ none.2.tplKind = .none ∧ none.2.tplValid = false := by decide +kernel

/-- The clauses on FRAME_LEN of PARSE_FRAME, DECRYPT, ITERATE, DECODE and StopReasonGivesTheOutcome: 9, 256, 257 and 511; a cut TPL; a frame that is
OK. -/
theorem witness_frameLen :
    ({ State.reset with frameLen := 257#9 } : State).frameLen.toNat = 257 ∧
    ({ State.reset with frameLen := 511#9 } : State).frameLen.toNat = 511 ∧
    ({ State.reset with frameLen := 256#9 } : State).frameLen.toNat = 256 ∧
    (framed (t1.take 9)).frameLen.toNat < 10 ∧
    (framed (t1.take 22)).frameLen.toNat ≤ 256 ∧ (frameStage (frameBytes (framed (t1.take 22)))).1 = .truncated ∧
    (framed t1).frameLen.toNat ≤ 256 ∧ (frameStage (frameBytes (framed t1))).1 = .ok ∧
    (frameStage (frameBytes (framed t1))).2.encrypted = false := by decide +kernel

/-- SboxIsTheAffineInverse and KeyExpansionWordByWord, at the ends of their ranges. -/
theorem witness_aes : gmul 0x53#8 0xCA#8 = 0x01#8 ∧ (0x53#8 : Byte) ≠ 0x00#8 ∧ 4 ≤ 4 ∧ 4 % 4 = 0 ∧ 40 < 44 ∧
    40 % 4 = 0 ∧ 4 ≤ 43 ∧ 43 < 44 ∧ 43 % 4 ≠ 0 := by decide

/-- CbcDecryptionBlockByBlock: two blocks. -/
theorem witness_cbc : 1 < [block 0, block 1].length := by decide

/-- StripPadByTheLastByte, at 16 and 17. -/
theorem witness_stripPad : (0x10#8).toNat ≤ 16 ∧ 16 < (0x11#8).toNat ∧ (0x00#8).toNat ≤ 16 := by decide

/-- DecryptLeavesTheStrippedPlaintext: a wrong key length, a wrong ciphertext length, and lengths 0 and 16. -/
theorem witness_decrypt :
    (framed (hex 16 0)).frameLen.toNat ≤ 256 ∧ (framed (hex 16 0)).keyLen ≠ 16#8 ∧
    (keyedK (framed (hex 15 0))).keyLen = 16#8 ∧ (keyedK (framed (hex 15 0))).frameLen.toNat % 16 ≠ 0 ∧
    (keyedK (framed (hex 16 0))).frameLen.toNat % 16 = 0 ∧ (keyedK State.reset).frameLen.toNat % 16 = 0 := by decide

/-- IteratorStaysInThePayload: a payload of 256 bytes and the default tables. -/
theorem witness_iterator : ParamsWellFormed defaultParams = true ∧
    (List.replicate 256 0x2F#8).length ≤ 256 := by decide +kernel

/-- IteratorSkipsFillerAndStops: the default build and a payload of filler. -/
theorem witness_filler : defaultParams.specialDif = .en13757 ∧ ∀ b ∈ [0x2F#8, 0x2F#8], b = (0x2F#8 : Byte) := by decide

/-- IteratorSkipsFillerAndStops, its last clause: the build without special DIFs, the default DIF table, and VIF
chains of length 0 and 1. -/
theorem witness_uniform :
    ({ defaultParams with specialDif := .uniform } : Config.Params).specialDif = .uniform ∧
    ({ defaultParams with specialDif := .uniform } : Config.Params).difTable = defaultDifTable ∧
    0x2F#8 ∈ [0x0F#8, 0x1F#8, 0x2F#8] ∧ ChainEnds 0x13#8 [] ∧ ChainEnds 0x93#8 [0x00#8] :=
  ⟨rfl, rfl, by decide, rfl, rfl, rfl⟩

/-- BrokenRecordsStopTheIterator and WholeRecordIsReadAsItsSlot: chains of length 0, 1 and 10, closed and open, and the
lengths of a fixed and a variable record, under both builds of the special DIFs. -/
theorem witness_chains :
    OrdinaryDif defaultParams 0x84#8 ∧ OrdinaryDif { defaultParams with specialDif := .uniform } 0x2F#8 ∧
    extBit 0x84#8 = true ∧ (∀ d ∈ List.replicate 10 0x80#8, extBit d = true) ∧
    (List.replicate 10 0x80#8 : List Byte) ≠ [] ∧ (List.replicate 10 0x80#8 : List Byte).length = 10 ∧
    ChainEnds 0x04#8 [] ∧ ChainEnds 0x84#8 [0x00#8] ∧ ChainEnds 0x84#8 (List.replicate 9 0x80#8 ++ [0x00#8]) ∧
    (List.replicate 9 0x80#8 ++ [0x00#8] : List Byte).length = 10 ∧ extBit 0x93#8 = true ∧
    (defaultParams.difTable ((0x04#8 : Byte).extractLsb' 0 4)).len = .fixed 4 ∧
    ([1#8, 2#8, 3#8] : List Byte).length < 4 ∧ ([1#8, 2#8, 3#8, 4#8] : List Byte).length = 4 ∧
    (defaultParams.difTable ((0x0D#8 : Byte).extractLsb' 0 4)).len = .var ∧ OrdinaryDif defaultParams 0x0D#8 ∧
    ([1#8, 2#8] : List Byte).length < (3#8 : Byte).toNat ∧ (2#8 : Byte).toNat = ([1#8, 2#8] : List Byte).length := by
  refine ⟨?_, ?_, by decide, by decide, by decide, by decide, ?_, ?_, ?_, by decide, by decide, by decide,
    by decide, by decide, by decide, ?_, by decide, by decide⟩
  · intro _; decide
  · intro h; cases h
  · exact rfl
  · exact ⟨rfl, rfl⟩
  · exact ⟨rfl, rfl, rfl, rfl, rfl, rfl, rfl, rfl, rfl, rfl, rfl⟩
  · intro _; decide

/-- WholeRecordIsReadAsItsSlot, its clauses on the walk: a payload that stops, one of filler, and one with a record. -/
theorem witness_walk :
    readRecord defaultParams 2 [0x0F#8, 0x00#8] = .stop .specialStop ∧
    readRecord defaultParams 3 [0x2F#8, 0x01#8, 0x13#8] = .filler [0x01#8, 0x13#8] ∧
    (∃ slot, readRecord defaultParams 3 [0x01#8, 0x13#8, 0x05#8] = .record slot []) := by
  exact ⟨by decide, by decide, _, rfl⟩

/-- ValueKindByTheFirstMatchingLine and DecodedValueByKind: each line of R300, at the lengths where it begins and ends. -/
theorem witness_valueKind :
    valueKind .int .plain 0 = .none ∧ valueKind .bcd .date 1 = .bcd ∧ valueKind .real .date 4 = .real ∧
    valueKind .real .plain 3 = .raw ∧ valueKind .int .date 2 = .date ∧ valueKind .int .date 1 = .raw ∧
    valueKind .var .datetime 4 = .datetime ∧ valueKind .int .datetime 3 = .raw ∧ valueKind .int .plain 1 = .int ∧
    valueKind .int .plain 8 = .int ∧ valueKind .var .plain 5 = .raw ∧ valueKind .var .plain 7 = .raw ∧
    valueKind .var .plain 9 = .raw := by decide

/-- BcdValueIsTheNibbleSum, FillSlotFields, SlotBytesHoldTheFields: data of 8 and 255 bytes and chains of 10. -/
theorem witness_slots : (hex 8 0 : List Byte) ≠ [] ∧ (hex 8 0).length ≤ 8 ∧ (hex 10 0).length ≤ 10 ∧
    (List.replicate 255 0#8 : List Byte).length < 256 ∧ 511 < 512 ∧
    defaultParams.bcdRadix = .r16 ∧ ({ defaultParams with bcdRadix := .r10 } : Config.Params).bcdRadix = .r10 := by
  decide +kernel

/-- SlotBytesHoldTheFields, its first clause: the table that ITERATE leaves of one record. -/
theorem witness_table :
    let s := framed (hex 3 0x011305)
    let slots := (iterate defaultParams (ptBytes (writePt (frameBytes s) s))).1
    0 < slots.length ∧ TableHolds (writeRecords slots .exhausted s) slots := by
  refine ⟨by decide +kernel, by decide +kernel, ?_⟩
  intro k hk
  have h1 : (iterate defaultParams
      (ptBytes (writePt (frameBytes (framed (hex 3 0x011305))) (framed (hex 3 0x011305))))).1.length = 1 := by
    decide +kernel
  obtain rfl : k = 0 := by omega
  clear h1
  simp only [SlotHolds]
  revert hk
  decide +kernel

/-- The IV of T2, as a block. -/
def t2Iv : Block := block 0x9344628713315A000000000000000000

/-- T15: an encrypted telegram with an empty payload. -/
def t15 : List Byte := hex 23 0x164493446287133135087262871331934435085A001005

/-- DecodeOfEncryptedTelegrams: an encrypted telegram within its hypotheses, with no key, a key of a wrong length, a
payload that is not whole blocks, one without the marker and one with it; DecodeIsDeriveIvThenDecrypt on the last. -/
theorem witness_encrypted :
    (framed t2).frameLen.toNat ≤ 256 ∧ frameStage (frameBytes (framed t2)) = frameStage t2 ∧ (frameStage t2).1 = .ok ∧
    (frameStage t2).2.encrypted = true ∧
    IsBlock (deriveIv (frameStage t2).2.m (frameStage t2).2.a (frameStage t2).2.acc 0#16) t2Iv ∧
    (framed t2).keyLen = 0#8 ∧ (keyed 0 0 0 0 15#8 (framed t2)).keyLen ≠ 16#8 ∧ (keyedK (framed t2)).keyLen = 16#8 ∧
    ((t2.take 43).drop (frameStage (t2.take 43)).2.payloadOff.toNat).length % 16 ≠ 0 ∧
    (frameStage (t2.take 43)).2.encrypted = true ∧
    (t15.drop (frameStage t15).2.payloadOff.toNat).length = 0 ∧ (frameStage t15).2.encrypted = true ∧
    stripPad (cbcDecrypt (keyBlock (keyedK (framed t15))) t2Iv []) = [] ∧
    (t2.drop (frameStage t2).2.payloadOff.toNat).length % 16 = 0 := by
  refine ⟨?_, ?_, ?_, ?_, ?_, ?_, ?_, ?_, ?_, ?_, ?_, ?_, ?_, ?_⟩
  case refine_5 => unfold IsBlock; decide +kernel
  all_goals decide +kernel

/-- CorrectKeyDecodesTheTelegram: T2's payload is the reference encryption of the marker and T1's records. -/
theorem witness_correctKey :
    (frameBytes (keyedK (framed t2))).drop (frameStage (frameBytes (keyedK (framed t2)))).2.payloadOff.toNat =
      refEncrypt (keyBlock (keyedK (framed t2))) t2Iv
        (0x2F#8 :: 0x2F#8 :: hex 15 0x0B6E563412026CDF2C041310270000) := by
  decide +kernel

/-- DecodeDependsOnlyOnItsInputs: two states that differ in the IV, IVIN_M and STATUS. -/
theorem witness_decodeInputs :
    let s := keyedK (framed t2)
    let u := { s with iv0 := 1#32, ivinM := 2#16, status := { s.status with marker := true } }
    u.frameLen = s.frameLen ∧ frameBytes u = frameBytes s ∧ u.keyLen = s.keyLen ∧ keyBytes u = keyBytes s ∧ u ≠ s ∧
    ∃ t v, exec .decode s = .next t ∧ exec .decode u = .next v := by
  refine ⟨rfl, rfl, rfl, rfl, ?_, _, _, rfl, rfl⟩
  intro h
  have := congrArg State.iv0 h
  revert this
  decide

/-- DecodeIsParseFrameThenIterate: T1, and its payload alone in FRAME_BUF. -/
theorem witness_unencryptedComposition :
    frameBytes (framed (t1.drop 23)) =
      (frameBytes (framed t1)).drop (frameStage (frameBytes (framed t1))).2.payloadOff.toNat ∧
    ∃ d p i, exec .decode (framed t1) = .next d ∧ exec .parseFrame (framed t1) = .next p ∧
      exec .iterate (framed (t1.drop 23)) = .next i := by
  exact ⟨by decide +kernel, _, _, _, rfl, rfl, rfl⟩

/-- The DERIVE_IV inputs of T2's fields (V18). -/
def t2Inputs : State := { State.reset with ivinM := 0x4493#16, ivinA := 0x31138762#32, ivinAcc := 0x5A#8 }

/-- T2's payload alone in FRAME_BUF, under K and the derived IV. -/
def t2Payload : State := { keyedK (framed (t2.drop 23)) with iv0 := 0x87624493#32, iv1 := 0x005A3113#32 }

/-- DecodeIsDeriveIvThenDecrypt: T2, DERIVE_IV of its fields, and its payload alone under the derived IV. -/
theorem witness_encryptedComposition :
    t2Inputs.ivinM = (frameStage t2).2.m ∧ t2Inputs.ivinA = (frameStage t2).2.a ∧
    t2Inputs.ivinAcc = (frameStage t2).2.acc ∧ t2Inputs.ivinFc = 0#16 ∧
    frameBytes t2Payload = t2.drop (frameStage t2).2.payloadOff.toNat ∧ (frameBytes t2Payload).length % 16 = 0 ∧
    t2Payload.keyLen = 16#8 ∧ keyBytes t2Payload = keyBytes (keyedK (framed t2)) ∧
    t2Payload.iv0 = (deriveIvCommand t2Inputs).iv0 ∧ t2Payload.iv1 = (deriveIvCommand t2Inputs).iv1 ∧
    t2Payload.iv2 = (deriveIvCommand t2Inputs).iv2 ∧ t2Payload.iv3 = (deriveIvCommand t2Inputs).iv3 := by
  decide +kernel

/-- CommandsKeepTheHostsInputs, CommandsWriteOnlyTheirResults: every command answers a next state. -/
theorem witness_exec : ∀ i ∈ [Instr.nop, .decode, .parseFrame, .deriveIv, .decrypt, .iterate],
    ∃ t, exec i State.reset = .next t := by
  intro i hi
  simp only [List.mem_cons, List.not_mem_nil, or_false] at hi
  rcases hi with rfl | rfl | rfl | rfl | rfl | rfl <;> exact ⟨_, rfl⟩

/-- FatalLeavesNoResult: DECODE of an empty telegram. -/
theorem witness_fatal : ∃ t, exec .decode State.reset = .next t ∧ t.status.outcome = .fatal :=
  ⟨decodeCommand defaultParams State.reset, rfl, by decide +kernel⟩

/-- MisalignedAccessIsRefused: a byte access, a word access at offset 2, and an aligned offset. -/
theorem witness_misaligned : (AccessSize.byte ≠ .word ∨ (0x000#14).toNat % 4 ≠ 0) ∧
    (AccessSize.word ≠ .word ∨ (0x002#14).toNat % 4 ≠ 0) ∧ (0x3FFC#14).toNat % 4 = 0 := by decide

/-- The clauses on offsets of the host-access obligations, at the ends of their ranges, in IDLE and while BUSY. -/
theorem witness_offsets :
    State.reset.phase = .idle ∧ busy (running 0x00000001#32 0 []) = true ∧
    (running 0x00000001#32 0 []).status.done = false ∧
    ([0x000#14, 0x004#14, 0x008#14, 0x00C#14, 0x010#14, 0x014#14, 0x018#14, 0x01C#14, 0x020#14, 0x02C#14,
      0x030#14, 0x03C#14, 0x040#14, 0x04C#14, 0x050#14, 0x06C#14, 0x070#14, 0x0FC#14, 0x100#14, 0x1FC#14, 0x200#14,
      0x2FC#14, 0x300#14, 0x3FC#14, 0x400#14, 0x23FC#14, 0x2400#14, 0x3FFC#14].all fun off => off.toNat % 4 == 0) = true ∧
    (0x00000002#32).getLsbD 1 = true ∧ (0x00000001#32).getLsbD 1 = false ∧ (0x00000002#32).getLsbD 0 = false := by
  decide

/-- StepTakesTheNextHostAccess, its first clause: each kind of entry in IDLE, and in a bus slot of a running command. -/
theorem witness_access :
    (∀ op ∈ [HostOp.read .byte 0x00C#14, .write .word 0x010#14 7#32, .hardReset],
      (idle [op]).phase = .idle ∧ (idle [op]).hostQueue = op :: [] ∧
      (running 0x00000001#32 1 [op]).phase = .busy 0x00000001#32 (0 + 1) ∧
      (running 0x00000001#32 1 [op]).hostQueue = op :: []) ∧
    (idle []).hostQueue = [] ∧ (running 0x00000001#32 1 []).hostQueue = [] := by decide

/-- R136: a FILL of five bytes is two words, the second with three bytes of 0; at 0x3FFC the window ends (entry 18). -/
theorem test_fill_R136 :
    hostFill 0x100#14 [1#8, 2#8, 3#8, 4#8, 5#8] =
      [.write .word 0x100#14 0x04030201#32, .write .word 0x104#14 0x00000005#32] ∧
    hostFill 0x3FFC#14 [1#8, 2#8, 3#8, 4#8, 5#8] = [.write .word 0x3FFC#14 0x04030201#32] := by decide

/-- StepTakesTheNextHostAccess, its clauses on POLL: IDLE with DONE 1 and 0, and BUSY. -/
theorem witness_poll :
    (idle [.poll]).phase = .idle ∧ (idle [.poll]).status.done = false ∧ (idle [.poll]).hostQueue = .poll :: [] ∧
    ({ idle [.poll] with status := { Status.reset with done := true } } : State).status.done = true ∧
    (running 0x00000001#32 1 [.poll]).phase = .busy 0x00000001#32 (0 + 1) ∧
    ∃ t, step (running 0x00000001#32 1 [.poll]) = .next t := by
  exact ⟨rfl, rfl, rfl, rfl, rfl, _, rfl⟩

end Sys2Proof.Tests
end

section
/-! The invariant of the block is kept by every step. `BlockInv` is taken apart into what the result buffers, the frame
results and the STATUS fields say of each other (`ResultsOk`), DONE against BUSY, and the draws. A host access leaves all
of it as it stands (`SameResults`), writes FRAME_BUF, or resets the block; a command leaves one of the forms of `Leaves`,
each of which starts from the FRAME_BUF bytes alone, which are all that the Prologue keeps. -/

namespace Sys2Proof.Machine

/-! ### The invariant in parts -/

/-- The part of `BlockInv` on the memory, PT_LEN and REC_COUNT (R7, R39, R40, R280). -/
structure BuffersOk (s : State) : Prop where
  mem_wf : Memory.wf s.mem
  mem_specified : ∀ a, Memory.read s.mem a ≠ none → Specified s a
  pt_listed : ∀ i, i < s.ptLen.toNat → Memory.read s.mem (0x200 + i) ≠ none
  rec_listed : ∀ i, i < 64 * s.recCount.toNat → Memory.read s.mem (0x400 + i) ≠ none
  ptLen_le : s.ptLen.toNat ≤ 256
  recCount_le : 2 * s.recCount.toNat ≤ s.ptLen.toNat

/-- The part of `BlockInv` on the results: all of it but DONE and the draws. -/
structure ResultsOk (s : State) : Prop where
  buffers : BuffersOk s
  infoStatus : InfoStatusOk s
  none_of_undecryptable : s.status.secStatus = .undecryptable → s.ptLen = 0#9 ∧ s.recCount = 0#8
  recStop_of_records : s.recCount ≠ 0#8 → s.status.recStop ≠ .notRun

theorem BlockInv.resultsOk {s : State} (h : BlockInv s) : ResultsOk s where
  buffers := ⟨h.mem_wf, h.mem_specified, h.pt_listed, h.rec_listed, h.ptLen_le, h.recCount_le⟩
  infoStatus := ⟨h.info_ok, h.sec_valid, h.sec_encrypted, h.marker_of_decrypted, h.sec_of_marker⟩
  none_of_undecryptable := h.none_of_undecryptable
  recStop_of_records := h.recStop_of_records

theorem ResultsOk.blockInv {s : State} (h : ResultsOk s) (hb : busy s = true → s.status.done = false)
    (hf : s.frameDraw < s.draw) (hr : s.resultDraw < s.draw) : BlockInv s :=
  { h.buffers, h.infoStatus, h with done_of_busy := hb, frameDraw_lt := hf, resultDraw_lt := hr }

theorem BuffersOk.congr {s t : State} (h : BuffersOk s) (hl : t.ptLen = s.ptLen) (hr : t.recCount = s.recCount)
    (hm : t.mem = s.mem) : BuffersOk t := by
  obtain ⟨h1, h2, h3, h4, h5, h6⟩ := h
  constructor <;> simpa only [Specified, hl, hr, hm]

theorem InfoStatusOk.congr {s t : State} (h : InfoStatusOk s) (hi : t.info = s.info)
    (hs : t.status.secStatus = s.status.secStatus) (hm : t.status.marker = s.status.marker) : InfoStatusOk t := by
  obtain ⟨h1, h2, h3, h4, h5⟩ := h
  constructor <;> simpa only [hi, hs, hm]

theorem ResultsOk.congr {s t : State} (h : ResultsOk s) (hw : SameWork s t) (hi : t.info = s.info) : ResultsOk t where
  buffers := h.buffers.congr hw.ptLen hw.recCount hw.mem
  infoStatus := h.infoStatus.congr hi hw.secStatus hw.marker
  none_of_undecryptable := by simpa only [hw.secStatus, hw.ptLen, hw.recCount] using h.none_of_undecryptable
  recStop_of_records := by simpa only [hw.recCount, hw.recStop] using h.recStop_of_records

/-- `finish` ends BUSY and takes a fresh draw (R344), so consistent results are all that the invariant asks before it. -/
theorem ResultsOk.blockInv_finish {s : State} (h : ResultsOk s) (hf : s.frameDraw < s.draw) (o : OutcomeClass)
    (e : ErrCode) : BlockInv (finish o e s) :=
  (h.congr (t := finish o e s) ⟨rfl, rfl, rfl, rfl, rfl, rfl⟩ rfl).blockInv (fun hb => absurd hb (by simp [busy]))
    (Nat.lt_succ_of_lt hf) (Nat.lt_succ_self _)

/-! ### The result buffers a command builds -/

/-- Only bytes of FRAME_BUF are listed: what the Prologue leaves of a memory (R343). -/
def FrameOnly (m : List Host.Cell) : Prop :=
  Memory.wf m ∧ ∀ a, Memory.read m a ≠ none → 0x100 ≤ a ∧ a < 0x200

/-- The part of `BuffersOk` on FRAME_BUF and PT_BUF, the record table being empty. -/
structure PlaintextOk (s : State) : Prop where
  mem_wf : Memory.wf s.mem
  mem_specified : ∀ a, Memory.read s.mem a ≠ none →
    (0x100 ≤ a ∧ a < 0x200) ∨ (0x200 ≤ a ∧ a < 0x200 + s.ptLen.toNat)
  pt_listed : ∀ i, i < s.ptLen.toNat → Memory.read s.mem (0x200 + i) ≠ none
  ptLen_le : s.ptLen.toNat ≤ 256

theorem BuffersOk.frameOnly_clearResults {s : State} (h : BuffersOk s) {scope : Scope} (hscope : scope ≠ .none) :
    FrameOnly (clearResults scope s).mem := by
  have hm : (clearResults scope s).mem = (clearWork s).mem := by
    cases scope with
    | none => exact absurd rfl hscope
    | frame | cipher | records => rfl
  rw [hm]
  refine ⟨Memory.wf_forget h.mem_wf _ _, fun a ha => ?_⟩
  rw [read_clearWork] at ha
  by_cases hb : ptBase ≤ a ∧ a < recEnd
  · rw [if_pos hb] at ha
    exact absurd rfl ha
  · rw [if_neg hb] at ha
    have hl := h.ptLen_le
    have hr := h.recCount_le
    simp only [ptBase, recEnd] at hb
    rcases h.mem_specified a ha with hf | hp | ht <;> omega

theorem FrameOnly.plaintextOk {s : State} (h : FrameOnly s.mem) (hl : s.ptLen = 0#9) : PlaintextOk s where
  mem_wf := h.1
  mem_specified a ha := .inl (h.2 a ha)
  pt_listed i hi := absurd hi (by simp [hl])
  ptLen_le := by simp [hl]

theorem FrameOnly.plaintextOk_writePt {s : State} (h : FrameOnly s.mem) {p : List Byte}
    (hp : p.length ≤ Config.pPtMax) : PlaintextOk (writePt p s) := by
  have hl := writePt_toNat_ptLen p s hp
  have hread := read_writePt p s hp
  refine ⟨Memory.wf_writeBytes (Memory.wf_forget h.1 _ _) _ _, fun a ha => ?_, fun i hi => ?_, hl.trans_le hp⟩
  · rw [hread] at ha
    split at ha
    · rename_i hb
      have : a - ptBase < p.length := by simpa using ha
      simp only [ptBase] at hb this
      exact .inr (by omega)
    · exact .inl (h.2 a ha)
  · rw [hl] at hi
    simp only [Config.pPtMax] at hp
    rw [hread, if_pos (by simp only [ptBase, Config.pPtMax]; omega)]
    simpa [ptBase] using hi

theorem PlaintextOk.buffersOk {s : State} (h : PlaintextOk s) (hr : s.recCount = 0#8) : BuffersOk s where
  mem_wf := h.mem_wf
  mem_specified a ha := (h.mem_specified a ha).imp_right .inl
  pt_listed := h.pt_listed
  rec_listed i hi := absurd hi (by simp [hr])
  ptLen_le := h.ptLen_le
  recCount_le := by simp [hr]

/-- The records of a plaintext, of at least two bytes each (R280), after the plaintext itself. -/
theorem PlaintextOk.buffersOk_writeRecords {s : State} (h : PlaintextOk s) {slots : List RecordSlot}
    (hs : 2 * slots.length ≤ s.ptLen.toNat) (r : RecStop) : BuffersOk (writeRecords slots r s) := by
  have hl := h.ptLen_le
  have hmax : slots.length ≤ Config.pMaxRecords := by simp only [Config.pMaxRecords]; omega
  have hc := writeRecords_toNat_recCount slots r s hmax
  have hread := read_writeRecords slots r s hmax
  have hbytes : (slots.flatMap slotBytes).length = 64 * slots.length := flatMap_slotBytes_length slots
  refine ⟨Memory.wf_writeBytes (Memory.wf_forget h.mem_wf _ _) _ _, fun a ha => ?_, fun i hi => ?_, fun i hi => ?_, hl,
    hc ▸ hs⟩
  · rw [hread] at ha
    split at ha
    · rename_i hb
      have : a - recBase < 64 * slots.length := by simpa [hbytes] using ha
      simp only [recBase] at hb this
      exact .inr (.inr (by rw [hc]; omega))
    · exact (h.mem_specified a ha).imp_right .inl
  · have hi' : i < s.ptLen.toNat := hi
    rw [hread, if_neg (by simp only [recBase]; omega)]
    exact h.pt_listed i hi'
  · rw [hc] at hi
    rw [hread, if_pos (by simp only [recBase, recEnd]; omega)]
    simpa [recBase, hbytes] using hi

theorem resultsOk_reset : ResultsOk State.reset where
  buffers := (FrameOnly.plaintextOk ⟨State.reset_mem_wf, fun _ ha => absurd rfl ha⟩ rfl).buffersOk rfl
  infoStatus := .of_none frameInfoOk_cleared rfl
  none_of_undecryptable _ := ⟨rfl, rfl⟩
  recStop_of_records h := absurd rfl h

/-! ### Commands -/

/-- The record stage on a plaintext over FRAME_BUF alone (R296). -/
theorem blockInv_iterateAndFinish_writePt (P : Config.Params) {u : State} {p : List Byte} (hm : FrameOnly u.mem)
    (hp : p.length ≤ Config.pPtMax) (hi : InfoStatusOk u) (hs : u.status.secStatus ≠ .undecryptable)
    (hf : u.frameDraw < u.draw) : BlockInv (iterateAndFinish P (writePt p u)) := by
  rw [iterateAndFinish_eq, ptBytes_writePt p u hp]
  have hres : ResultsOk (writeRecords (iterate P p).1 (iterate P p).2 (writePt p u)) := by
    refine ⟨(hm.plaintextOk_writePt hp).buffersOk_writeRecords ?_ _, hi.congr rfl rfl rfl, fun h => absurd h hs,
      fun _ => iterateFrom_stop_ne_notRun P p.length p.length p⟩
    rw [writePt_toNat_ptLen p u hp]
    exact iterateFrom_length P p.length p.length p
  exact hres.blockInv_finish hf _ _

theorem BlockInv.frameOnly_of_cleared {s u : State} (h : BlockInv s) {scope : Scope} (hscope : scope ≠ .none)
    (hm : u.mem = (clearResults scope s).mem) : FrameOnly u.mem :=
  hm ▸ h.resultsOk.buffers.frameOnly_clearResults hscope

theorem BlockInv.frameDraw_lt_of_sameInputs {s u : State} (h : BlockInv s) (hu : SameInputs s u)
    (hd : u.draw = s.draw) : u.frameDraw < u.draw := by
  rw [hu.frameDraw, hd]
  exact h.frameDraw_lt

/-- Every form a command leaves meets the invariant. -/
theorem BlockInv.of_leaves {s t : State} (h : BlockInv s) (hl : Leaves s t) : BlockInv t := by
  have hres := h.resultsOk
  cases hl with
  | kept o e ht =>
    subst ht
    exact hres.blockInv_finish h.frameDraw_lt o e
  | iv v ht =>
    subst ht
    exact (hres.congr (t := writeIv v s) ⟨rfl, rfl, rfl, rfl, rfl, rfl⟩ rfl).blockInv_finish h.frameDraw_lt _ _
  | none scope hscope u o e hu hd hm hp hr hi ht =>
    subst ht
    have hmem := h.frameOnly_of_cleared hscope hm
    have hf := h.frameDraw_lt_of_sameInputs hu hd
    exact ResultsOk.blockInv_finish
      ⟨(hmem.plaintextOk hp).buffersOk hr, hi h.info_ok, fun _ => ⟨hp, hr⟩, fun hn => absurd hr hn⟩ hf o e
  | plain scope hscope u p m hl hu hd hm hr hs hi ht =>
    subst ht
    have hmem := h.frameOnly_of_cleared hscope hm
    have hf := h.frameDraw_lt_of_sameInputs hu hd
    have hb : BuffersOk (writePt p u) := (hmem.plaintextOk_writePt hl).buffersOk hr
    have hu' : ResultsOk (setMarker m (writePt p u)) :=
      ⟨hb.congr rfl rfl rfl, (hi h.info_ok).congr rfl rfl rfl, fun hn => absurd hn hs, fun hn => absurd hr hn⟩
    exact hu'.blockInv_finish hf _ _
  | records scope hscope P u p hl hu hd hm hs hi ht =>
    subst ht
    have hmem := h.frameOnly_of_cleared hscope hm
    have hf := h.frameDraw_lt_of_sameInputs hu hd
    exact blockInv_iterateAndFinish_writePt P hmem hl (hi h.info_ok) hs hf

/-! ### Host accesses -/

/-- What an access that touches no result leaves of the fields the invariant reads: the results are the same, draws are
only used up, and DONE and BUSY are together only where they were. -/
structure SameResults (s t : State) : Prop where
  work : SameWork s t
  info : t.info = s.info
  frameDraw : t.frameDraw = s.frameDraw
  resultDraw : t.resultDraw = s.resultDraw
  draw_le : s.draw ≤ t.draw
  busy_and_done : busy t = true → t.status.done = true → busy s = true ∧ s.status.done = true

/-- An update of fields the invariant does not read, which each equation shows by unfolding it. -/
theorem SameResults.of_same_status {s t : State} (hd : s.draw ≤ t.draw) (hb : busy t = busy s := by rfl)
    (hdone : t.status.done = s.status.done := by rfl) (hw : SameWork s t := by constructor <;> rfl)
    (hi : t.info = s.info := by rfl) (hf : t.frameDraw = s.frameDraw := by rfl)
    (hr : t.resultDraw = s.resultDraw := by rfl) : SameResults s t :=
  ⟨hw, hi, hf, hr, hd, fun hb' hdone' => ⟨hb ▸ hb', hdone ▸ hdone'⟩⟩

theorem BlockInv.congr {s t : State} (h : BlockInv s) (hs : SameResults s t) : BlockInv t := by
  have hd := hs.draw_le
  refine (h.resultsOk.congr hs.work hs.info).blockInv (fun hb => ?_) ?_ ?_
  · by_contra hdone
    obtain ⟨hb', hdone'⟩ := hs.busy_and_done hb (by simpa using hdone)
    exact absurd (h.done_of_busy hb') (by simp [hdone'])
  · rw [hs.frameDraw]
    exact h.frameDraw_lt.trans_le hd
  · rw [hs.resultDraw]
    exact h.resultDraw_lt.trans_le hd

theorem BlockInv.setHostQueue {s : State} (h : BlockInv s) (q : List HostOp) : BlockInv { s with hostQueue := q } :=
  h.congr (.of_same_status (le_refl _))

theorem BlockInv.refuseAccess {s : State} (h : BlockInv s) : BlockInv (refuseAccess s) :=
  h.congr (.of_same_status (le_refl _))

theorem BlockInv.answer {s : State} (h : BlockInv s) (r : BusResp) {d : Nat} (hd : s.draw ≤ d) :
    BlockInv { s with resp := r, draw := d } :=
  h.congr (.of_same_status hd)

theorem blockInv_blockReset (s : State) : BlockInv (blockReset s) :=
  (resultsOk_reset.congr (t := blockReset s) ⟨rfl, rfl, rfl, rfl, rfl, rfl⟩ rfl).blockInv (fun _ => rfl)
    (Nat.lt_succ_self _) (Nat.lt_succ_self _)

/-- A word of FRAME_BUF may be listed at any time (R53). -/
theorem BlockInv.writeFrameWord {s : State} (h : BlockInv s) {off : Nat} (h1 : 0x100 ≤ off) (h2 : off + 4 ≤ 0x200)
    (v : Word) : BlockInv { s with mem := Memory.writeBytes s.mem off (wordBytes v) } := by
  have hout : ∀ a, 0x200 ≤ a →
      Memory.read (Memory.writeBytes s.mem off (wordBytes v)) a = Memory.read s.mem a := fun a ha =>
    Memory.read_writeBytes_outside _ _ _ _ (.inr (by simp only [wordBytes, List.length_cons, List.length_nil]; omega))
  refine { h with mem_wf := Memory.wf_writeBytes h.mem_wf _ _, mem_specified := ?_, pt_listed := ?_, rec_listed := ?_ }
  · intro a ha
    by_cases hb : off ≤ a ∧ a < off + (wordBytes v).length
    · simp only [wordBytes, List.length_cons, List.length_nil] at hb
      exact .inl (by omega)
    · rw [Memory.read_writeBytes, if_neg hb] at ha
      exact h.mem_specified a ha
  · intro i hi
    rw [hout _ (by omega)]
    exact h.pt_listed i hi
  · intro i hi
    rw [hout _ (by omega)]
    exact h.rec_listed i hi

theorem bounds_of_regAt_frameBuf {n : Nat} (h : regAt n = .frameBuf) : 0x100 ≤ n ∧ n < 0x200 := by
  unfold regAt at h
  split at h
  case h_29 =>
    split at h
    · assumption
    · split at h
      · cases h
      · split at h <;> cases h
  all_goals cases h

/-- A write of an input is a write of a FRAME_BUF word or of a register that no result depends on. -/
theorem writeInput_cases (off : Nat) (v : Word) (s : State) :
    (regAt off = .frameBuf ∧ writeInput off v s = { s with mem := Memory.writeBytes s.mem off (wordBytes v) }) ∨
      SameResults s (writeInput off v s) := by
  unfold writeInput
  split
  case h_15 hr => exact .inl ⟨hr, rfl⟩
  all_goals exact .inr (.of_same_status (le_refl _))

theorem BlockInv.writeInput {s : State} (h : BlockInv s) {off : Nat} (ha : off % 4 = 0) (v : Word) :
    BlockInv (writeInput off v s) := by
  rcases writeInput_cases off v s with ⟨hr, hw⟩ | hw
  · have hb := bounds_of_regAt_frameBuf hr
    rw [hw]
    exact h.writeFrameWord hb.1 (by omega) v
  · exact h.congr hw

theorem BlockInv.hostRead {s : State} (h : BlockInv s) (size : AccessSize) (off : BitVec 14) :
    BlockInv (hostRead size off s) := by
  rcases hostRead_cases size off s with hr | ⟨data, d, hd, hr⟩ <;> rw [hr]
  · exact h.refuseAccess
  · exact h.answer _ hd

theorem BlockInv.hostWrite {s : State} (h : BlockInv s) (size : AccessSize) (off : BitVec 14) (v : Word) :
    BlockInv (hostWrite size off v s) := by
  rcases hostWrite_cases size off v s with hw | ⟨u, hw, hu⟩ <;> rw [hw]
  · exact h.refuseAccess
  · refine BlockInv.answer (s := u) ?_ _ (le_refl _)
    rcases hu with rfl | rfl | rfl | rfl | rfl | ⟨-, rfl⟩ | ⟨-, rfl⟩ | ⟨-, ha, rfl⟩
    · exact h
    · exact blockInv_blockReset _
    · exact h.congr (.of_same_status (le_refl _))
    · exact h.congr (.of_same_status (le_refl _))
    · exact h.congr ⟨⟨rfl, rfl, rfl, rfl, rfl, rfl⟩, rfl, rfl, rfl, le_refl _,
        fun hb hd => ⟨hb, (Bool.and_eq_true_iff.1 hd).1⟩⟩
    · exact h.congr ⟨⟨rfl, rfl, rfl, rfl, rfl, rfl⟩, rfl, rfl, rfl, le_refl _, fun _ hd => nomatch hd⟩
    · exact h.congr (.of_same_status (le_refl _))
    · exact h.writeInput ha v

theorem BlockInv.hostStep {s : State} (h : BlockInv s) : BlockInv (hostStep s) := by
  rcases hostStep_cases s with ⟨-, hs⟩ | ⟨size, off, rest, q, -, hs⟩ | ⟨size, off, v, rest, -, hs⟩ | ⟨rest, -, hs⟩ <;>
    rw [hs]
  · exact h
  · exact (h.setHostQueue q).hostRead size off
  · exact (h.setHostQueue rest).hostWrite size off v
  · exact blockInv_blockReset _

/-- A bus slot of a running command passes. -/
theorem BlockInv.nextSlot {s : State} (h : BlockInv s) {w : Word} {left : Nat} (hp : s.phase = .busy w (left + 1)) :
    BlockInv { s with phase := .busy w left } :=
  h.congr (.of_same_status (le_refl _) ((busy_of_busy rfl).trans (busy_of_busy hp).symm))

/-- Settles O3, by the four things a step can be: a host access in IDLE or in a bus slot, or the end of a command or of
an illegal word. -/
theorem stepKeepsTheInvariant : Obligations.StepKeepsTheInvariant := by
  unfold Obligations.StepKeepsTheInvariant
  intro s t h hstep
  rcases step_cases hstep with ⟨-, rfl⟩ | ⟨w, left, hp, rfl⟩ | ⟨w, i, -, -, hexec⟩ | ⟨w, e, -, -, rfl⟩
  · exact h.hostStep
  · exact (h.nextSlot hp).hostStep
  · exact h.of_leaves (leaves_exec hexec)
  · exact h.of_leaves (.kept .fatal .illegalCommand rfl)

end Sys2Proof.Machine
end

section
/-! Fields of words and bytes of words. A register or slot word is its fields appended, highest first (R35, R44 to R52),
and a byte sequence is a little-endian number (R17). -/

namespace Sys2Proof.Machine

/-! ### Fields of appended bit vectors -/

theorem getLsbD_append_low {v w i : Nat} {x : BitVec v} {y : BitVec w} (h : i < w) :
    (x ++ y).getLsbD i = y.getLsbD i := by
  rw [BitVec.getLsbD_append, if_pos h]

theorem getLsbD_append_high {v w i : Nat} {x : BitVec v} {y : BitVec w} (h : w ≤ i) :
    (x ++ y).getLsbD i = x.getLsbD (i - w) := by
  rw [BitVec.getLsbD_append, if_neg (Nat.not_lt.2 h)]

theorem toNat_append_add {v w : Nat} (x : BitVec v) (y : BitVec w) :
    (x ++ y).toNat = y.toNat + 2 ^ w * x.toNat := by
  rw [BitVec.toNat_append, ← Nat.shiftLeft_add_eq_or_of_lt y.isLt, Nat.shiftLeft_eq, Nat.mul_comm, Nat.add_comm]

/-- A field of `k` bits alone in a word: a write drops the bits above it, and they read 0 (R32). -/
theorem setWidth_setWidth_eq_and (v : Word) {k : Nat} (hk : k ≤ 32) :
    (v.setWidth k).setWidth 32 = v &&& BitVec.ofNat 32 (2 ^ k - 1) := by
  apply BitVec.eq_of_toNat_eq
  have hpow : 2 ^ k ≤ 2 ^ 32 := Nat.pow_le_pow_right (by decide) hk
  have hpos : 0 < 2 ^ k := Nat.two_pow_pos k
  rw [BitVec.toNat_and, BitVec.toNat_ofNat, Nat.mod_eq_of_lt (by omega), Nat.and_two_pow_sub_one_eq_mod,
    BitVec.toNat_setWidth_of_le hk, BitVec.toNat_setWidth]

theorem ofBool_getLsbD_zero_setWidth (v : Word) :
    (BitVec.ofBool (v.getLsbD 0)).setWidth 32 = v &&& 0x00000001#32 := by
  rw [← BitVec.setWidth_one]
  exact setWidth_setWidth_eq_and v (k := 1) (by decide)

/-! ### Words as bytes (R17, R101) -/

theorem lane_toNat (w : Word) (m : Nat) : (lane w m).toNat = w.toNat / 2 ^ (8 * m) % 256 := by
  rw [lane, BitVec.extractLsb'_toNat, Nat.shiftRight_eq_div_pow]

/-- The lanes of a word made of four one-byte fields. -/
theorem lanes_toNat {w : Word} {a b c d : Nat} (h : w.toNat = a + 2 ^ 8 * (b + 2 ^ 8 * (c + 2 ^ 8 * d)))
    (ha : a < 2 ^ 8) (hb : b < 2 ^ 8) (hc : c < 2 ^ 8) :
    (lane w 0).toNat = a ∧ (lane w 1).toNat = b ∧ (lane w 2).toNat = c ∧ (lane w 3).toNat = d := by
  have hw := w.isLt
  simp only [lane_toNat]
  omega

/-- The halves of a word made of two two-byte fields. -/
theorem leNat_halves {w : Word} {a b : Nat} (h : w.toNat = a + 2 ^ 16 * b) (ha : a < 2 ^ 16) :
    leNat [lane w 0, lane w 1] = a ∧ leNat [lane w 2, lane w 3] = b := by
  have hw := w.isLt
  simp only [leNat, lane_toNat]
  omega

theorem leNat_wordBytes (w : Word) : leNat (wordBytes w) = w.toNat := by
  have hw := w.isLt
  simp only [wordBytes, leNat, lane_toNat]
  omega

theorem leNat_wordBytes_append (w : Word) (bs : List Byte) :
    leNat (wordBytes w ++ bs) = w.toNat + 2 ^ 32 * leNat bs := by
  rw [← leNat_wordBytes w]
  simp only [wordBytes, leNat, List.cons_append, List.nil_append]
  omega

theorem blockBytes_words_getElem? (w0 w1 w2 w3 : Word) {m : Nat} (hm : m < 4) :
    let b := blockBytes ⟨colOfWord w0, colOfWord w1, colOfWord w2, colOfWord w3⟩
    b[m]? = some (lane w0 m) ∧ b[4 + m]? = some (lane w1 m) ∧ b[8 + m]? = some (lane w2 m) ∧
      b[12 + m]? = some (lane w3 m) := by
  interval_cases m <;> exact ⟨rfl, rfl, rfl, rfl⟩

/-! ### Words of the buffers -/

theorem bufByte_congr {s t : State} {a : Nat} (hm : Memory.read t.mem a = Memory.read s.mem a)
    (hf : t.frameDraw = s.frameDraw) (hr : t.resultDraw = s.resultDraw) : bufByte t a = bufByte s a := by
  rw [bufByte, bufByte, hm, hf, hr]

theorem lane_bufWord (s : State) (off : Nat) {m : Nat} (hm : m < 4) :
    lane (bufWord s off) m = bufByte s (off + m) := by
  obtain ⟨h0, h1, h2, h3⟩ :=
    lane_wordOfBytes (bufByte s off) (bufByte s (off + 1)) (bufByte s (off + 2)) (bufByte s (off + 3))
  interval_cases m
  · exact h0
  · exact h1
  · exact h2
  · exact h3

theorem bufWord_eq_of_lanes {s : State} {off : Nat} {v : Word} (h : ∀ m, m < 4 → bufByte s (off + m) = lane v m) :
    bufWord s off = v := by
  have h0 : bufByte s off = lane v 0 := h 0 (by decide)
  rw [bufWord, h0, h 1 (by decide), h 2 (by decide), h 3 (by decide), wordOfBytes_lanes]

theorem regWord_of_buffer (s : State) {off : Nat} (h : 0x100 ≤ off ∧ off < 0x300 ∨ 0x400 ≤ off ∧ off < 0x2400) :
    regWord s off = bufWord s off := by
  have hr : regAt off = .frameBuf ∨ regAt off = .ptBuf ∨ regAt off = .recTable := by
    by_cases hf : off < 0x200
    · exact .inl (regAt_frameBuf (by omega) hf)
    · by_cases hp : off < 0x300
      · exact .inr (.inl (regAt_ptBuf (by omega) hp))
      · exact .inr (.inr (regAt_recTable (by omega) (by omega)))
  rcases hr with hr | hr | hr <;> rw [regWord, hr]

end Sys2Proof.Machine
end

section
/-! What the registers read (R31 to R51): the fields of STATUS and of the frame result registers, the values after
reset, the two forms of a read, and what reads 0. -/

namespace Sys2Proof.Machine

/-! ### Fields of the register words -/

theorem statusWord_fields (s : State) :
    let w := statusWord s
    w.getLsbD 0 = busy s ∧ w.getLsbD 1 = s.status.done ∧ w.extractLsb' 2 2 = outcomeCode s.status.outcome ∧
    w.extractLsb' 4 4 = errCodeCode s.status.errCode ∧ w.extractLsb' 8 3 = secStatusCode s.status.secStatus ∧
    w.getLsbD 11 = s.status.marker ∧ w.extractLsb' 12 4 = recStopCode s.status.recStop ∧
    w.getLsbD 16 = s.status.cmdOverrun ∧ w.getLsbD 17 = s.status.wrIgnored ∧ w.getLsbD 18 = s.status.busErr ∧
    w.getLsbD 19 = false ∧ w.extractLsb' 20 4 = s.status.lastOp ∧ w.extractLsb' 24 8 = 0#8 := by
  dsimp only [statusWord]
  simp (disch := decide) only [getLsbD_append_low, getLsbD_append_high, BitVec.extractLsb'_append_eq_of_add_le,
    BitVec.extractLsb'_append_eq_of_le, BitVec.extractLsb'_eq_self, Nat.reduceSub, BitVec.getLsbD_ofBool, decide_true,
    Bool.true_and, BitVec.getLsbD_zero, and_self]

theorem infoDll1Word_fields (f : FrameInfo) :
    let w := infoDll1Word f
    w.extractLsb' 0 8 = f.v ∧ w.extractLsb' 8 8 = f.t ∧ w.extractLsb' 16 8 = f.ci ∧ w.getLsbD 24 = f.infoValid ∧
    w.getLsbD 25 = f.ciPresent ∧ w.extractLsb' 26 2 = tplKindCode f.tplKind ∧ w.getLsbD 28 = f.tplValid ∧
    w.getLsbD 29 = f.encrypted ∧ w.extractLsb' 30 2 = 0#2 := by
  dsimp only [infoDll1Word]
  simp (disch := decide) only [getLsbD_append_low, getLsbD_append_high, BitVec.extractLsb'_append_eq_of_add_le,
    BitVec.extractLsb'_append_eq_of_le, BitVec.extractLsb'_eq_self, Nat.reduceSub, BitVec.getLsbD_ofBool, decide_true,
    Bool.true_and, and_self]

/-- INFO_DLL0, TPL_HDR, TPL_SEC and PAYLOAD (R44, R48 to R50), which have no single-bit field. -/
theorem infoWords_fields (f : FrameInfo) :
    ((infoDll0Word f).extractLsb' 0 8 = f.l ∧ (infoDll0Word f).extractLsb' 8 8 = f.c ∧
      (infoDll0Word f).extractLsb' 16 16 = f.m) ∧
    ((tplHdrWord f).extractLsb' 0 16 = f.tplM ∧ (tplHdrWord f).extractLsb' 16 8 = f.tplV ∧
      (tplHdrWord f).extractLsb' 24 8 = f.tplT) ∧
    ((tplSecWord f).extractLsb' 0 8 = f.acc ∧ (tplSecWord f).extractLsb' 8 8 = f.sts ∧
      (tplSecWord f).extractLsb' 16 16 = f.cfg) ∧
    (payloadWord f).extractLsb' 0 9 = f.payloadOff ∧ (payloadWord f).extractLsb' 9 7 = 0#7 ∧
      (payloadWord f).extractLsb' 16 9 = f.payloadLen ∧ (payloadWord f).extractLsb' 25 7 = 0#7 := by
  dsimp only [infoDll0Word, tplHdrWord, tplSecWord, payloadWord]
  simp (disch := decide) only [BitVec.extractLsb'_append_eq_of_add_le, BitVec.extractLsb'_append_eq_of_le,
    BitVec.extractLsb'_eq_self, Nat.reduceSub, and_self]

theorem secWord_toNat (f : FrameInfo) : (secWord f).toNat = f.secMode.toNat := by
  rw [secWord, toNat_append_add]
  rfl

theorem regWord_ctrl (s : State) : regWord s 0x004 = (BitVec.ofBool s.irqEn).setWidth 32 := rfl

/-! ### Reset -/

theorem regWord_reset {n : Nat} (h : n < 0x100) :
    regWord State.reset n = if n = 0x000 then Config.pId else 0#32 := by
  by_cases hn : n < 0x070
  · have hregs : ∀ n < 0x070, regWord State.reset n = if n = 0x000 then Config.pId else 0#32 := by decide
    exact hregs n hn
  · rw [regWord, regAt_reserved (by omega), if_neg (by omega)]

/-! ### Reads -/

theorem idle_or_busy (s : State) : s.phase = .idle ∨ ∃ w left, s.phase = .busy w left := by
  cases s.phase with
  | idle => exact .inl rfl
  | busy w left => exact .inr ⟨w, left, rfl⟩

theorem readWord_of_idle {s : State} (hp : s.phase = .idle) (off : Nat) :
    readWord off s = { s with resp := ⟨regWord s off, false⟩ } := by
  rw [readWord, hp]

theorem readWord_of_busy {s : State} {w : Word} {left : Nat} (hp : s.phase = .busy w left) (off : Nat) :
    readWord off s = { s with
      resp := ⟨(regWord s off &&& ~~~busyMask (regAt off)) ||| (Config.freeWord s.draw &&& busyMask (regAt off)), false⟩
      draw := s.draw + 1 } := by
  rw [readWord, hp]

/-- A read commutes with any change of the key, since `regWord` reads no key field (R41). -/
theorem readWord_setKey (s : State) (k0 k1 k2 k3 : Word) (off : Nat) :
    readWord off { s with key0 := k0, key1 := k1, key2 := k2, key3 := k3 } =
      { readWord off s with key0 := k0, key1 := k1, key2 := k2, key3 := k3 } := by
  rcases idle_or_busy s with hp | ⟨w, left, hp⟩
  · rw [readWord_of_idle hp]
    exact readWord_of_idle (by exact hp) off
  · rw [readWord_of_busy hp]
    exact readWord_of_busy (by exact hp) off

/-- What reads 0 in any state: CMD, KEY and the reserved offsets (R32, R34, R41). -/
def zeroRegs : List Reg := [.cmd, .key0, .key1, .key2, .key3, .reserved]

theorem regAt_mem_zeroRegs {n : Nat}
    (h : n = 0x008 ∨ 0x020 ≤ n ∧ n < 0x030 ∨ 0x070 ≤ n ∧ n < 0x100 ∨ 0x300 ≤ n ∧ n < 0x400 ∨ 0x2400 ≤ n) :
    regAt n ∈ zeroRegs := by
  rcases h with rfl | ⟨hlo, hhi⟩ | h
  · decide
  · have hkey : ∀ n < 0x030, 0x020 ≤ n → regAt n ∈ zeroRegs := by decide
    exact hkey n hhi hlo
  · rw [regAt_reserved h]
    decide

theorem readWord_resp_of_mem_zeroRegs (s : State) {n : Nat} (h : regAt n ∈ zeroRegs) :
    (readWord n s).resp = ⟨0#32, false⟩ := by
  have hword : regWord s n = 0#32 ∧ busyMask (regAt n) = 0#32 := by
    simp only [zeroRegs, List.mem_cons, List.not_mem_nil, or_false] at h
    rcases h with h | h | h | h | h | h <;> rw [regWord, h] <;> exact ⟨rfl, rfl⟩
  obtain ⟨hw, hm⟩ := hword
  rcases idle_or_busy s with hp | ⟨w, left, hp⟩
  · rw [readWord_of_idle hp, hw]
  · rw [readWord_of_busy hp, hw, hm, BitVec.zero_and, BitVec.and_zero, BitVec.or_zero]

end Sys2Proof.Machine
end

section
/-! Writes by the register they meet (R32 to R43, R53): the input registers and FRAME_BUF in IDLE, CTRL in IDLE, STATUS,
and the registers that ignore them. -/

namespace Sys2Proof.Machine

/-! ### Registers that ignore writes -/

/-- The registers that a write may change (R31). -/
def takesWrites (r : Reg) : Bool := r == .ctrl || r == .cmd || r == .status || isInput r

theorem takesWrites_eq_false {n : Nat}
    (h : n = 0x000 ∨ n = 0x018 ∨ n = 0x01C ∨ 0x050 ≤ n ∧ n < 0x100 ∨ 0x200 ≤ n) : takesWrites (regAt n) = false := by
  by_cases hn : n < 0x070
  · have hregs : ∀ n < 0x070, n = 0x000 ∨ n = 0x018 ∨ n = 0x01C ∨ 0x050 ≤ n → takesWrites (regAt n) = false := by
      decide
    exact hregs n hn (by omega)
  · rw [regAt_of_ge (by omega), if_neg (by omega)]
    split_ifs <;> rfl

theorem writeEffect_of_not_takesWrites {n : Nat} (h : takesWrites (regAt n) = false) (v : Word) (s : State) :
    writeEffect n v s = s := by
  unfold writeEffect
  split <;> simp_all [takesWrites]

/-! ### Input registers and FRAME_BUF -/

theorem writeEffect_of_input {n : Nat} (h : isInput (regAt n) = true) (v : Word) (s : State) :
    writeEffect n v s = if busy s then setWrIgnored s else writeInput n v s := by
  unfold writeEffect
  split <;> simp_all [isInput]

theorem hostWrite_input_of_idle {s : State} (hp : s.phase = .idle) {off : BitVec 14} (ha : off.toNat % 4 = 0)
    (hi : isInput (regAt off.toNat) = true) (v : Word) :
    hostWrite .word off v s = { writeInput off.toNat v s with resp := ⟨0#32, false⟩ } := by
  rw [hostWrite_word ha, writeWord, writeEffect_of_input hi, busy_of_idle hp]
  rfl

/-- An input register of `k` bits reads back the low `k` bits of what was written. -/
theorem regWord_hostWrite_input_of_idle {s : State} (hp : s.phase = .idle) {off : BitVec 14}
    (ha : off.toNat % 4 = 0) (hi : isInput (regAt off.toNat) = true) {v : Word} {k : Nat} (hk : k ≤ 32)
    (h : regWord (writeInput off.toNat v s) off.toNat = (v.setWidth k).setWidth 32) :
    regWord (hostWrite .word off v s) off.toNat = v &&& BitVec.ofNat 32 (2 ^ k - 1) := by
  rw [hostWrite_input_of_idle hp ha hi, ← setWidth_setWidth_eq_and v hk]
  exact h

theorem hostWrite_frameBuf_of_idle {s : State} (hp : s.phase = .idle) {off : BitVec 14} (ha : off.toNat % 4 = 0)
    (hlo : 0x100 ≤ off.toNat) (hhi : off.toNat < 0x200) (v : Word) :
    hostWrite .word off v s =
      { s with mem := Memory.writeBytes s.mem off.toNat (wordBytes v), resp := ⟨0#32, false⟩ } := by
  have hr := regAt_frameBuf hlo hhi
  rw [hostWrite_input_of_idle hp ha (by rw [hr]; rfl), writeInput, hr]

/-! ### CTRL and STATUS -/

theorem hostWrite_ctrl_of_idle {s : State} (hp : s.phase = .idle) {v : Word} (hsrst : v.getLsbD 1 = false) :
    hostWrite .word 0x004#14 v s = { s with irqEn := v.getLsbD 0, resp := ⟨0#32, false⟩ } := by
  have hctrl : writeEffect 0x004 v s = { s with irqEn := v.getLsbD 0 } := by
    change writeCtrl v s = _
    rw [writeCtrl, hsrst, busy_of_idle hp]
    rfl
  exact (hostWrite_word rfl v s).trans (by rw [writeWord, show (0x004#14).toNat = 0x004 from rfl, hctrl])

theorem hostWrite_status (v : Word) (s : State) :
    hostWrite .word 0x00C#14 v s = { writeStatus v s with resp := ⟨0#32, false⟩ } := rfl

/-- A W1C bit written as 1 is cleared and every other bit of STATUS stays (R32, R35), bit by bit. -/
theorem statusWord_writeStatus (v : Word) (s : State) :
    statusWord (writeStatus v s) = statusWord s &&& ~~~(v &&& 0x00070002#32) := by
  have hb : busy (writeStatus v s) = busy s := rfl
  refine BitVec.eq_of_getLsbD_eq fun i hi => ?_
  rw [statusWord, statusWord, hb]
  simp only [writeStatus, BitVec.getLsbD_and, BitVec.getLsbD_not]
  interval_cases i <;>
    simp (disch := decide) only [getLsbD_append_low, getLsbD_append_high, BitVec.getLsbD_ofBool, BitVec.reduceGetLsb,
      Nat.reduceSub, Nat.reduceLT, decide_true, Bool.true_and, Bool.and_true, Bool.and_false, Bool.not_false]

end Sys2Proof.Machine
end

section
/-! The layout of a record slot (R52): its eleven words as numbers, its two chains, the table that holds it (R55), and
the value fields of the slots that the iterator gives (R289). -/

namespace Sys2Proof.Machine

/-! ### The words of a slot -/

/-- Word `i` of a slot (R52). -/
def slotWord (r : RecordSlot) (i : Nat) : Word := (slotWords r).getD i 0#32

theorem difFunc_toNat (dif : Byte) : (difFunc dif).toNat = dif.toNat / 16 % 4 := by
  rw [difFunc, BitVec.extractLsb'_toNat, Nat.shiftRight_eq_div_pow]

theorem slotWord_header (r : RecordSlot) (hd : r.difes.length ≤ 10) (hv : r.vifes.length ≤ 10) :
    (slotWord r 0).toNat = r.dif.toNat + 2 ^ 8 * (r.vif.toNat + 2 ^ 8 * (r.difes.length + 16 * r.vifes.length +
      2 ^ 8 * ((kindCode r.kind).toNat + 16 * (r.dif.toNat / 16 % 4) + 64 * r.lvar.toNat))) := by
  have hd' : r.difes.length % 2 ^ 4 = r.difes.length := Nat.mod_eq_of_lt (by omega)
  have hv' : r.vifes.length % 2 ^ 4 = r.vifes.length := Nat.mod_eq_of_lt (by omega)
  simp only [slotWord, slotWords, List.getD_cons_zero, toNat_append_add, difFunc_toNat, BitVec.toNat_ofBool,
    BitVec.toNat_ofNat, hd', hv']
  ring

theorem slotWord_offsets (r : RecordSlot) : (slotWord r 1).toNat = r.recOff.toNat + 2 ^ 16 * r.dataOff.toNat := by
  simp only [slotWord, slotWords, List.getD_cons_zero, List.getD_cons_succ, toNat_append_add, BitVec.toNat_ofNat]
  omega

theorem slotWord_val (r : RecordSlot) : (slotWord r 2).toNat + 2 ^ 32 * (slotWord r 3).toNat = r.val.toNat := by
  have hval := r.val.isLt
  simp only [slotWord, slotWords, List.getD_cons_zero, List.getD_cons_succ, BitVec.extractLsb'_toNat,
    Nat.shiftRight_eq_div_pow]
  omega

theorem slotWord_units (r : RecordSlot) : (slotWord r 4).toNat =
    r.dataLen.toNat + 2 ^ 8 * (r.unit.toNat + 2 ^ 8 * (r.exp10.toNat + 2 ^ 8 * r.vexp10.toNat)) := by
  simp only [slotWord, slotWords, List.getD_cons_zero, List.getD_cons_succ, toNat_append_add]

theorem slotWord_date (r : RecordSlot) :
    (slotWord r 5).toNat = r.day.toNat + 2 ^ 8 * r.month.toNat + 2 ^ 16 * r.year.toNat := by
  simp only [slotWord, slotWords, List.getD_cons_zero, List.getD_cons_succ, toNat_append_add, BitVec.toNat_ofNat]
  omega

theorem slotWord_time (r : RecordSlot) : (slotWord r 6).toNat = r.minute.toNat + 2 ^ 8 * r.hour.toNat := by
  simp only [slotWord, slotWords, List.getD_cons_zero, List.getD_cons_succ, toNat_append_add, BitVec.toNat_ofNat]
  omega

theorem slotWord_storage (r : RecordSlot) :
    (slotWord r 7).toNat + 2 ^ 32 * (slotWord r 8).toNat = r.storage.toNat := by
  have hstorage := r.storage.isLt
  simp only [slotWord, slotWords, List.getD_cons_zero, List.getD_cons_succ, toNat_append_add, BitVec.toNat_ofNat,
    BitVec.extractLsb'_toNat, Nat.shiftRight_eq_div_pow]
  omega

theorem slotWord_tariff (r : RecordSlot) : (slotWord r 9).toNat = r.tariff.toNat := by
  simp only [slotWord, slotWords, List.getD_cons_zero, List.getD_cons_succ, toNat_append_add, BitVec.toNat_ofNat]
  omega

theorem slotWord_subunit (r : RecordSlot) : (slotWord r 10).toNat = r.subunit.toNat := by
  simp only [slotWord, slotWords, List.getD_cons_zero, List.getD_cons_succ, toNat_append_add, BitVec.toNat_ofNat]
  omega

/-! ### The bytes of the fields -/

theorem slotWord_header_bytes (r : RecordSlot) (hd : r.difes.length ≤ 10) (hv : r.vifes.length ≤ 10) :
    (lane (slotWord r 0) 0).toNat = r.dif.toNat ∧ (lane (slotWord r 0) 1).toNat = r.vif.toNat ∧
    (lane (slotWord r 0) 2).toNat = r.difes.length + 16 * r.vifes.length ∧
    (lane (slotWord r 0) 3).toNat = (kindCode r.kind).toNat + 16 * (r.dif.toNat / 16 % 4) + 64 * r.lvar.toNat :=
  lanes_toNat (slotWord_header r hd hv) r.dif.isLt r.vif.isLt (by omega)

theorem slotWord_date_bytes (r : RecordSlot) :
    (lane (slotWord r 5) 0).toNat = r.day.toNat ∧ (lane (slotWord r 5) 1).toNat = r.month.toNat ∧
    leNat [lane (slotWord r 5) 2, lane (slotWord r 5) 3] = r.year.toNat := by
  have hword := slotWord_date r
  have hday := r.day.isLt
  have hmonth := r.month.isLt
  refine ⟨?_, ?_, (leNat_halves hword (by omega)).2⟩ <;>
    · rw [lane_toNat, hword]
      omega

theorem slotWord_time_bytes (r : RecordSlot) :
    (lane (slotWord r 6) 0).toNat = r.minute.toNat ∧ (lane (slotWord r 6) 1).toNat = r.hour.toNat ∧
    leNat [lane (slotWord r 6) 2, lane (slotWord r 6) 3] = 0 := by
  have hword := slotWord_time r
  have hminute := r.minute.isLt
  have hhour := r.hour.isLt
  refine ⟨?_, ?_, (leNat_halves (a := r.minute.toNat + 2 ^ 8 * r.hour.toNat) (b := 0) hword (by omega)).2⟩ <;>
    · rw [lane_toNat, hword]
      omega

theorem chainBytes_getD (bs : List Byte) {i : Nat} (hi : i < 10) :
    (chainBytes bs).getD i 0#8 = bs.getD i 0#8 := by
  simp only [chainBytes, List.getD_eq_getElem?_getD, List.getElem?_take, if_pos hi, List.getElem?_append,
    List.getElem?_replicate]
  split
  · rfl
  · rw [List.getElem?_eq_none (by omega)]
    split <;> rfl

theorem slotBytes_chains (r : RecordSlot) {i : Nat} (hi : i < 10) :
    (slotBytes r).getD (0x2C + i) 0#8 = r.difes.getD i 0#8 ∧
      (slotBytes r).getD (0x36 + i) 0#8 = r.vifes.getD i 0#8 := by
  have hwords : ((slotWords r).flatMap wordBytes).length = 0x2C := rfl
  have hdifes : ((slotWords r).flatMap wordBytes ++ chainBytes r.difes).length = 0x36 := by
    rw [List.length_append, hwords, chainBytes_length]
  rw [← chainBytes_getD r.difes hi, ← chainBytes_getD r.vifes hi, slotBytes]
  constructor
  · rw [List.getD_append _ _ _ _ (by omega), List.getD_append_right _ _ _ _ (by omega), hwords,
      Nat.add_sub_cancel_left]
  · rw [List.getD_append_right _ _ _ _ (by omega), hdifes, Nat.add_sub_cancel_left]

/-! ### Slots in the table and from the iterator -/

theorem bufByte_of_tableHolds {s : State} {slots : List RecordSlot} (ht : TableHolds s slots) {k j : Nat}
    (hk : k < slots.length) (hj : j < 64) :
    some (bufByte s (0x400 + 64 * k + j)) = (slotBytes slots[k])[j]? := by
  have hread := ht.2 k hk j hj
  have hlen : j < (slotBytes slots[k]).length := by
    rw [slotBytes_length]
    exact hj
  rw [List.getElem?_eq_getElem hlen] at hread ⊢
  rw [bufByte_of_read hread]

/-- Every slot of the iterator was filled, with chains within their limits (R284, R289). -/
theorem mem_iterateFrom {P : Config.Params} {n fuel : Nat} {rest : List Byte} {r : RecordSlot}
    (h : r ∈ (iterateFrom P n fuel rest).1) :
    ∃ start dif difes vif vifes lvar dataOff data, difes.length ≤ Config.pMaxDife ∧
      vifes.length ≤ Config.pMaxVife ∧ r = fillSlot P start dif difes vif vifes lvar dataOff data := by
  induction fuel generalizing rest with
  | zero => simp [iterateFrom] at h
  | succ fuel ih =>
    simp only [iterateFrom] at h
    cases hr : readRecord P n rest with
    | stop e => simp [hr] at h
    | filler rest' => exact ih (by simpa [hr] using h)
    | record slot rest' =>
      simp only [hr, List.mem_cons] at h
      rcases h with rfl | h
      · obtain ⟨dif, difes, vif, vifes, _, _, lvar, _, _, hd, hv, _, _, _, _, hs⟩ := readRecord_record hr
        exact ⟨_, dif, difes, vif, vifes, lvar, _, _, hd, hv, hs⟩
      · exact ih h

/-- The fields that the kind of a decoded value gives no value are 0 (R289, R301 to R307). -/
theorem decodeValue_zero_fields (P : Config.Params) (d : Config.DKind) (v : Config.VKind) (data : List Byte) :
    let x := decodeValue P d v data
    (x.kind ≠ .int → x.kind ≠ .bcd → x.kind ≠ .real → x.val = 0#64) ∧ (x.kind ≠ .bcd → x.vexp10 = 0#8) ∧
    (x.kind ≠ .datetime → x.minute = 0#6 ∧ x.hour = 0#5) ∧
    (x.kind ≠ .date → x.kind ≠ .datetime → x.day = 0#5 ∧ x.month = 0#4 ∧ x.year = 0#12) := by
  unfold decodeValue
  cases valueKind d v data.length <;> simp [plainValue]

end Sys2Proof.Machine
end

section
/-! The state, its registers and its buffers (10_state.md): the statements on reset, on what a read shows and on what a
write changes. -/

namespace Sys2Proof.Machine

/-- Settles O1, by the register words of the reset state. -/
theorem resetHoldsTheListedValues : Obligations.ResetHoldsTheListedValues := by
  unfold Obligations.ResetHoldsTheListedValues
  refine ⟨rfl, rfl, fun off _ hoff => ?_, rfl, fun _ => rfl⟩
  have hzero : off.toNat = 0x000 ↔ off = 0#14 := BitVec.toNat_inj (y := 0#14)
  simp only [regWord_reset hoff, hzero]
  rfl

/-- Settles O2, from the consistent results of the reset state. -/
theorem resetMeetsTheInvariant : Obligations.ResetMeetsTheInvariant :=
  resultsOk_reset.blockInv (fun _ => rfl) Nat.zero_lt_one Nat.zero_lt_one

/-- Settles O37, by the words of a slot as numbers and the fields that the iterator's slots are filled with. -/
theorem slotBytesHoldTheFields : Obligations.SlotBytesHoldTheFields := by
  unfold Obligations.SlotBytesHoldTheFields
  refine ⟨⟨rfl, rfl, rfl, rfl, rfl, rfl, rfl, fun k => by cases k <;> decide⟩,
    fun s slots ht k j => bufByte_of_tableHolds ht, fun P p r hr => ?_, fun r hd hv => ?_⟩
  · obtain ⟨_, dif, difes, vif, _, _, _, data, hd, hv, rfl⟩ := mem_iterateFrom hr
    exact ⟨hd, hv, decodeValue_zero_fields P _ _ data⟩
  · obtain ⟨hdif, hvif, hlens, hkind⟩ := slotWord_header_bytes r hd hv
    obtain ⟨hrecOff, hdataOff⟩ := leNat_halves (slotWord_offsets r) (by omega)
    obtain ⟨hlen, hunit, hexp, hvexp⟩ :=
      lanes_toNat (slotWord_units r) r.dataLen.isLt r.unit.isLt r.exp10.isLt
    obtain ⟨hday, hmonth, hyear⟩ := slotWord_date_bytes r
    obtain ⟨hminute, hhour, hfree⟩ := slotWord_time_bytes r
    have hval : leNat (wordBytes (slotWord r 2) ++ wordBytes (slotWord r 3)) = r.val.toNat := by
      rw [leNat_wordBytes_append, leNat_wordBytes, slotWord_val]
    have hstorage : leNat (wordBytes (slotWord r 7) ++ wordBytes (slotWord r 8)) = r.storage.toNat := by
      rw [leNat_wordBytes_append, leNat_wordBytes, slotWord_storage]
    have htariff := (leNat_wordBytes _).trans (slotWord_tariff r)
    have hsubunit := (leNat_wordBytes _).trans (slotWord_subunit r)
    exact ⟨slotBytes_length r, hdif, hvif, hlens, hkind, hrecOff, hdataOff, hval, hlen, hunit, hexp, hvexp, hday,
      hmonth, hyear, hminute, hhour, hfree, hstorage, htariff, hsubunit, fun i => slotBytes_chains r⟩

/-- Settles O49, register by register: each input register keeps its own width of the word. -/
theorem inputWritesSetTheirRegister : Obligations.InputWritesSetTheirRegister := by
  unfold Obligations.InputWritesSetTheirRegister
  refine ⟨fun s v hp => ?_, fun s m hm => ?_⟩
  · have hw {off : BitVec 14} (ha : off.toNat % 4 = 0) (hi : isInput (regAt off.toNat) = true) :=
      hostWrite_input_of_idle hp ha hi v
    have hback {off : BitVec 14} (k : Nat) (hk : k ≤ 32) (ha : off.toNat % 4 = 0)
        (hi : isInput (regAt off.toNat) = true) := regWord_hostWrite_input_of_idle hp ha hi (v := v) hk
    have hfull : v = (v.setWidth 32).setWidth 32 := by rw [BitVec.setWidth_eq, BitVec.setWidth_eq]
    refine ⟨hw rfl rfl, hw rfl rfl, hw rfl rfl, hw rfl rfl, hw rfl rfl, hw rfl rfl, hw rfl rfl, hw rfl rfl, hw rfl rfl,
      hw rfl rfl, hw rfl rfl, hw rfl rfl, hw rfl rfl, hw rfl rfl, fun hsrst => ?_, ?_⟩
    · rw [hostWrite_ctrl_of_idle hp hsrst]
      exact ⟨rfl, (regWord_ctrl _).trans (ofBool_getLsbD_zero_setWidth v)⟩
    · simp only [List.forall_mem_cons]
      exact ⟨hback 9 (by decide) rfl rfl rfl, hback 8 (by decide) rfl rfl rfl, hback 32 (by decide) rfl rfl hfull,
        hback 32 (by decide) rfl rfl hfull, hback 32 (by decide) rfl rfl hfull, hback 32 (by decide) rfl rfl hfull,
        hback 16 (by decide) rfl rfl rfl, hback 32 (by decide) rfl rfl hfull, hback 8 (by decide) rfl rfl rfl,
        hback 16 (by decide) rfl rfl rfl, List.forall_mem_nil _⟩
  · obtain ⟨hk0, hk1, hk2, hk3⟩ := blockBytes_words_getElem? s.key0 s.key1 s.key2 s.key3 hm
    obtain ⟨hv0, hv1, hv2, hv3⟩ := blockBytes_words_getElem? s.iv0 s.iv1 s.iv2 s.iv3 hm
    exact ⟨hk0, hk1, hk2, hk3, hv0, hv1, hv2, hv3⟩

/-- Settles O50: the write is a store of the word's lanes, which the word at the offset reads back. -/
theorem frameBufWriteStoresItsLanes : Obligations.FrameBufWriteStoresItsLanes := by
  unfold Obligations.FrameBufWriteStoresItsLanes
  intro s off v hp ha hlo hhi
  have ht := hostWrite_frameBuf_of_idle hp ha hlo hhi v
  have hmem : (hostWrite .word off v s).mem = Memory.writeBytes s.mem off.toNat (wordBytes v) := by rw [ht]
  have hlane : ∀ m, m < 4 → bufByte (hostWrite .word off v s) (off.toNat + m) = lane v m := fun m hm =>
    bufByte_of_read (hmem ▸ read_writeBytes_wordBytes s.mem off.toNat v hm)
  refine ⟨hlane, fun a hout => ?_, by rw [ht], ?_⟩
  · rw [ht]
    exact bufByte_congr (Memory.read_writeBytes_outside _ _ _ _ hout) rfl rfl
  · rw [regWord_of_buffer _ (by omega), bufWord_eq_of_lanes hlane]

/-- Settles O51, by the registers that take no write and those that read 0 in either phase. -/
theorem readOnlyAndReservedIgnoreWrites : Obligations.ReadOnlyAndReservedIgnoreWrites := by
  unfold Obligations.ReadOnlyAndReservedIgnoreWrites
  refine fun s off v ha => ⟨fun h => ?_, fun h => ?_⟩
  · rw [hostWrite_word ha, writeWord, writeEffect_of_not_takesWrites (takesWrites_eq_false h)]
  · rw [hostRead_word ha]
    exact readWord_resp_of_mem_zeroRegs s (regAt_mem_zeroRegs h)

/-- Settles O52: an accepted read commutes with a change of the key, and a refused one reads nothing. -/
theorem noReadShowsTheKey : Obligations.NoReadShowsTheKey := by
  unfold Obligations.NoReadShowsTheKey
  intro s k0 k1 k2 k3 size off
  unfold hostRead
  split
  · exact readWord_setKey s k0 k1 k2 k3 off.toNat
  · rfl

/-- Settles O57, by the fields of the register words and the lanes of the buffer words. -/
theorem readWordsHoldTheFields : Obligations.ReadWordsHoldTheFields := by
  unfold Obligations.ReadWordsHoldTheFields
  refine ⟨fun s => ⟨rfl, statusWord_fields s⟩, fun s => ?_, fun s => ?_, fun s off m _ h hm => ?_, ⟨rfl, rfl, rfl⟩,
    ⟨rfl, rfl, rfl, rfl, rfl, rfl, rfl, rfl, rfl, rfl⟩, ⟨rfl, rfl, rfl, rfl, rfl⟩,
    ⟨rfl, rfl, rfl, rfl, rfl, rfl, rfl, rfl, rfl⟩, rfl, rfl, rfl⟩
  · have hfield {k : Nat} (hk : k ≤ 32) (x : BitVec k) : (x.setWidth 32).toNat = x.toNat :=
      BitVec.toNat_setWidth_of_le hk
    have hirq : (regWord s 0x004).toNat = s.irqEn.toNat :=
      (hfield (by decide) _).trans (BitVec.toNat_ofBool s.irqEn)
    exact ⟨rfl, hirq, rfl, rfl, rfl, rfl, rfl, hfield (by decide) s.frameLen, hfield (by decide) s.keyLen,
      hfield (by decide) s.ptLen, hfield (by decide) s.recCount, rfl, rfl, rfl, rfl, hfield (by decide) s.ivinM, rfl,
      hfield (by decide) s.ivinAcc, hfield (by decide) s.ivinFc⟩
  · obtain ⟨⟨hl, hc, hm⟩, ⟨hhm, hhv, hht⟩, ⟨hacc, hsts, hcfg⟩, hoff, hres1, hlen, hres2⟩ := infoWords_fields s.info
    obtain ⟨hv, ht, hci, hvalid, hpresent, hkind, htpl, henc, hres⟩ := infoDll1Word_fields s.info
    exact ⟨hl, hc, hm, rfl, hv, ht, hci, hvalid, hpresent, hkind, htpl, henc, hres, rfl, hhm, hhv, hht, hacc, hsts,
      hcfg, hoff, hres1, hlen, hres2, secWord_toNat s.info⟩
  · rw [regWord_of_buffer s h]
    exact lane_bufWord s off hm

/-- Settles O58, by the W1C bits of the STATUS word and the write's whole state. -/
theorem statusWriteClearsOnlyItsBits : Obligations.StatusWriteClearsOnlyItsBits := by
  unfold Obligations.StatusWriteClearsOnlyItsBits
  intro s v
  rw [hostWrite_status]
  exact ⟨statusWord_writeStatus v s, rfl⟩

end Sys2Proof.Machine
end

section
/-! A command and the host's accesses in its bus slots (R109, R341, R420). Such an access, short of a reset, changes only
the host's side of the state, and every command commutes with a change of that side. -/

namespace Sys2Proof.Machine

/-! ### The host's side of a running command -/

/-- `s` with all that an access in a bus slot may change taken from `h`: the phase's slots, DONE and the sticky bits of
STATUS, the queue, the bus answer and the draws. -/
def withHostSide (h s : State) : State :=
  { s with
    phase := h.phase
    status :=
      { s.status with
        done := h.status.done
        cmdOverrun := h.status.cmdOverrun
        wrIgnored := h.status.wrIgnored
        busErr := h.status.busErr }
    hostQueue := h.hostQueue
    resp := h.resp
    draw := h.draw }

/-- All that `t` has of `s` but the host's side is the same. -/
def HostSideOnly (s t : State) : Prop := t = withHostSide t s

theorem HostSideOnly.trans {s t u : State} (h : HostSideOnly s t) (g : HostSideOnly t u) : HostSideOnly s u := by
  rw [HostSideOnly] at h g ⊢
  rw [g, h]
  rfl

/-! ### Accesses while BUSY -/

theorem eq_of_regAt_cmd {n : Nat} (h : regAt n = .cmd) : n = 0x008 := by
  by_cases hn : n < 0x070
  · have hregs : ∀ n < 0x070, regAt n = .cmd → n = 0x008 := by decide
    exact hregs n hn h
  · rw [regAt_of_ge (by omega)] at h
    split_ifs at h

/-- What a write does that the block takes in IDLE and refuses or drops while BUSY (R34, R420). -/
def unlessBusy (refuse accept : State → State) (s : State) : State := if busy s then refuse s else accept s

theorem unlessBusy_of_busy {s : State} (hb : busy s = true) (refuse accept : State → State) :
    unlessBusy refuse accept s = refuse s := if_pos hb

theorem writeCtrl_of_not_srst {v : Word} (hv : v.getLsbD 1 = false) :
    writeCtrl v = unlessBusy setWrIgnored (fun s => { s with irqEn := v.getLsbD 0 }) := by
  funext s
  rw [writeCtrl, hv]
  rfl

/-- What an aligned write does in any state, by the register at its offset (R32 to R34, R420). -/
theorem writeEffect_cases (n : Nat) (v : Word) :
    (n = 0x004 ∧ writeEffect n v = writeCtrl v) ∨
    (n = 0x008 ∧ writeEffect n v = unlessBusy setCmdOverrun (issue v)) ∨
    writeEffect n v = writeStatus v ∨
    writeEffect n v = unlessBusy setWrIgnored (writeInput n v) ∨
    writeEffect n v = id := by
  by_cases hi : isInput (regAt n) = true
  · exact .inr (.inr (.inr (.inl (funext fun s => writeEffect_of_input hi v s))))
  by_cases ht : takesWrites (regAt n) = false
  · exact .inr (.inr (.inr (.inr (funext fun s => writeEffect_of_not_takesWrites ht v s))))
  have hr : (regAt n = .ctrl ∨ regAt n = .cmd) ∨ regAt n = .status := by
    simpa only [takesWrites, hi, Bool.or_false, Bool.not_eq_false, Bool.or_eq_true, beq_iff_eq] using ht
  rcases hr with (hr | hr) | hr
  · exact .inl ⟨eq_of_regAt_ctrl hr, funext fun s => by rw [writeEffect, hr]⟩
  · exact .inr (.inl ⟨eq_of_regAt_cmd hr, funext fun s => by rw [writeEffect, hr, unlessBusy]⟩)
  · exact .inr (.inr (.inl (funext fun s => by rw [writeEffect, hr])))

/-- A write while BUSY that does not reset (R420). -/
theorem hostSideOnly_writeEffect_of_busy {s : State} (hb : busy s = true) {n : Nat} {v : Word}
    (hsrst : n = 0x004 → v.getLsbD 1 = false) : HostSideOnly s (writeEffect n v s) := by
  rcases writeEffect_cases n v with ⟨hn, hw⟩ | ⟨-, hw⟩ | hw | hw | hw
  · rw [hw, writeCtrl_of_not_srst (hsrst hn), unlessBusy_of_busy hb]
    rfl
  · rw [hw, unlessBusy_of_busy hb]
    rfl
  · rw [hw]
    rfl
  · rw [hw, unlessBusy_of_busy hb]
    rfl
  · rw [hw]
    rfl

theorem hostSideOnly_hostRead (size : AccessSize) (off : BitVec 14) (s : State) :
    HostSideOnly s (hostRead size off s) := by
  rcases hostRead_cases size off s with hr | ⟨data, d, -, hr⟩ <;> rw [hr] <;> rfl

theorem hostSideOnly_hostWrite_of_busy {s : State} (hb : busy s = true) {size : AccessSize} {off : BitVec 14}
    {v : Word} (hsrst : size = .word → off = 0x004#14 → v.getLsbD 1 = false) :
    HostSideOnly s (hostWrite size off v s) := by
  by_cases ha : acceptable size off = true
  · have hsize : size = .word := by
      simp only [acceptable, Bool.and_eq_true, beq_iff_eq] at ha
      exact ha.1
    rw [hostWrite, if_pos ha]
    exact (hostSideOnly_writeEffect_of_busy hb fun hn => hsrst hsize (BitVec.eq_of_toNat_eq hn)).trans rfl
  · rw [hostWrite, if_neg ha]
    rfl

/-- An access in a bus slot that is no reset changes only the host's side. -/
theorem hostSideOnly_hostStep_of_busy {s : State} (hb : busy s = true)
    (hreset : ∀ rest, s.hostQueue ≠ .hardReset :: rest)
    (hsrst : ∀ v rest, s.hostQueue = .write .word 0x004#14 v :: rest → v.getLsbD 1 = false) :
    HostSideOnly s (hostStep s) := by
  have hqueue : ∀ q, HostSideOnly s { s with hostQueue := q } := fun _ => rfl
  rcases hostStep_cases s with ⟨-, hs⟩ | ⟨size, off, rest, q, -, hs⟩ | ⟨size, off, v, rest, hq, hs⟩ | ⟨rest, hq, -⟩
  · rw [hs]
    rfl
  · rw [hs]
    exact (hqueue q).trans (hostSideOnly_hostRead size off _)
  · rw [hs]
    have hb' : busy { s with hostQueue := rest } = true := hb
    refine (hqueue rest).trans (hostSideOnly_hostWrite_of_busy hb' fun hsize hoff => ?_)
    subst hsize hoff
    exact hsrst v rest hq
  · exact absurd hq (hreset rest)

/-! ### Commands commute with the host's side -/

/-- A command's pseudocode `f` ends alike on `s` and on `s` with the host's side of `h`: with the same outcome, over
states that differ in that side alone. -/
def FinishesAlike (h : State) (f : State → State) (s : State) : Prop :=
  ∃ o e u, f s = finish o e u ∧ f (withHostSide h s) = finish o e (withHostSide h u)

theorem clearResults_withHostSide (h : State) (scope : Scope) (s : State) :
    clearResults scope (withHostSide h s) = withHostSide h (clearResults scope s) := by
  cases scope <;> rfl

theorem finishesAlike_prologue {h : State} {scope : Scope} (hscope : scope ≠ .none) {rest : State → State}
    (hrest : ∀ s, FinishesAlike h rest s) (s : State) : FinishesAlike h (prologue scope rest) s := by
  have hl : (withHostSide h s).frameLen = s.frameLen := rfl
  by_cases hn : s.frameLen.toNat ≤ Config.pFrameMax
  · obtain ⟨o, e, u, hu, hu'⟩ := hrest (clearResults scope s)
    refine ⟨o, e, u, by rw [prologue_of_fits scope rest hn, hu], ?_⟩
    rw [prologue_of_fits scope rest (hl ▸ hn), clearResults_withHostSide, hu']
  · have hn' : Config.pFrameMax < s.frameLen.toNat := by omega
    refine ⟨_, _, _, prologue_of_tooLong hscope rest hn', ?_⟩
    rw [prologue_of_tooLong hscope rest (hl ▸ hn'), clearResults_withHostSide]

theorem finishesAlike_iterateAndFinish (h : State) (P : Config.Params) (s : State) :
    FinishesAlike h (iterateAndFinish P) s :=
  ⟨_, _, _, iterateAndFinish_eq P s, iterateAndFinish_eq P (withHostSide h s)⟩

theorem finishesAlike_parseFrame (h s : State) : FinishesAlike h parseFrame s := by
  refine finishesAlike_prologue (by decide) (fun s => ?_) s
  have hF : frameBytes (withHostSide h s) = frameBytes s := rfl
  simp only [FinishesAlike, hF]
  rcases frameStage (frameBytes s) with ⟨_ | _ | _, f⟩ <;> exact ⟨_, _, _, rfl, rfl⟩

theorem finishesAlike_decryptCommand (h s : State) : FinishesAlike h decryptCommand s := by
  refine finishesAlike_prologue (by decide) (fun s => ?_) s
  have hk : (withHostSide h s).keyLen = s.keyLen := rfl
  have hl : (withHostSide h s).frameLen = s.frameLen := rfl
  simp only [FinishesAlike, hk, hl]
  split_ifs <;> exact ⟨_, _, _, rfl, rfl⟩

/-- The cipher stage returns the same verdict and commutes with the host's side (R216). -/
theorem cipherStage_withHostSide (h : State) (P : Config.Params) (c : List Byte) (s : State) :
    cipherStage P c (withHostSide h s) = (cipherStage P c s).map id (Prod.map id (withHostSide h)) := by
  rcases cipherStage_cases P c s with ⟨hk, hs⟩ | ⟨h0, hk, hs⟩ | ⟨hk, hc, hs⟩ | ⟨hk, hc, hm, hs⟩ | ⟨hk, hc, hm, -, hs⟩
  · rw [hs]
    exact cipherStage_of_noKey P c hk
  · rw [hs]
    exact cipherStage_of_badKey P c h0 hk
  · rw [hs]
    exact cipherStage_of_badLength P hk hc
  · rw [hs]
    exact cipherStage_of_noMarker P hk hc hm
  · rw [hs]
    exact cipherStage_of_marker P hk hc hm

theorem finishesAlike_decodePayload (h : State) (P : Config.Params) (s : State) :
    FinishesAlike h (decodePayload P) s := by
  have he : (withHostSide h s).info = s.info := rfl
  have hp : payloadBytes (withHostSide h s) = payloadBytes s := rfl
  unfold FinishesAlike decodePayload
  rw [he, hp, cipherStage_withHostSide]
  split
  · rcases cipherStage P (payloadBytes s) s with ⟨_ | _ | _, e, u⟩
    · exact finishesAlike_iterateAndFinish h P u
    · exact ⟨_, _, _, rfl, rfl⟩
    · exact ⟨_, _, _, rfl, rfl⟩
  · exact finishesAlike_iterateAndFinish h P (writePt (payloadBytes s) s)

theorem finishesAlike_decodeCommand (h : State) (P : Config.Params) (s : State) :
    FinishesAlike h (decodeCommand P) s := by
  refine finishesAlike_prologue (by decide) (fun s => ?_) s
  have hF : frameBytes (withHostSide h s) = frameBytes s := rfl
  simp only [FinishesAlike, hF]
  rcases frameStage (frameBytes s) with ⟨_ | _ | _, f⟩
  · exact finishesAlike_decodePayload h P (setInfo f s)
  · exact ⟨_, _, _, rfl, rfl⟩
  · exact ⟨_, _, _, rfl, rfl⟩

theorem finishesAlike_iterateCommand (h : State) (P : Config.Params) (s : State) :
    FinishesAlike h (iterateCommand P) s :=
  finishesAlike_prologue (by decide) (fun s => finishesAlike_iterateAndFinish h P (writePt (frameBytes s) s)) s

/-- Every command ends alike whatever the host's side. -/
theorem finish_of_exec_withHostSide {i : Instr} {h s a b : State} (ha : exec i s = .next a)
    (hb : exec i (withHostSide h s) = .next b) : ∃ o e u, a = finish o e u ∧ b = finish o e (withHostSide h u) := by
  cases i with
  | nop => cases ha; cases hb; exact ⟨_, _, _, rfl, rfl⟩
  | decode => cases ha; cases hb; exact finishesAlike_decodeCommand h _ s
  | parseFrame => cases ha; cases hb; exact finishesAlike_parseFrame h s
  | deriveIv => cases ha; cases hb; exact ⟨_, _, _, rfl, rfl⟩
  | decrypt => cases ha; cases hb; exact finishesAlike_decryptCommand h s
  | iterate => cases ha; cases hb; exact finishesAlike_iterateCommand h _ s

end Sys2Proof.Machine
end

section
/-! A write repeated (R106), and the step as the taking of the host's next access (R109, R136). -/

namespace Sys2Proof.Machine

/-! ### Stores repeated -/

theorem Memory.write_cons_of_lt {a x : Nat} (h : x < a) (b c : Byte) (m : List Host.Cell) :
    Memory.write ((a, b) :: m) x c = (x, c) :: (a, b) :: m := by rw [Memory.write, if_pos h]

theorem Memory.write_cons_same (a : Nat) (b c : Byte) (m : List Host.Cell) :
    Memory.write ((a, b) :: m) a c = (a, c) :: m := by rw [Memory.write, if_neg (lt_irrefl a), if_pos rfl]

theorem Memory.write_cons_of_gt {a x : Nat} (h : a < x) (b c : Byte) (m : List Host.Cell) :
    Memory.write ((a, b) :: m) x c = (a, b) :: Memory.write m x c := by
  rw [Memory.write, if_neg (by omega), if_neg (by omega)]

theorem Memory.write_write_same (m : List Host.Cell) (a : Nat) (b : Byte) :
    Memory.write (Memory.write m a b) a b = Memory.write m a b := by
  induction m with
  | nil => exact Memory.write_cons_same a b b []
  | cons d m ih =>
    obtain ⟨a', b'⟩ := d
    rcases lt_trichotomy a a' with h | rfl | h
    · rw [Memory.write_cons_of_lt h, Memory.write_cons_same]
    · rw [Memory.write_cons_same, Memory.write_cons_same]
    · rw [Memory.write_cons_of_gt h, Memory.write_cons_of_gt h, ih]

/-- A cell that a memory holds where `write` puts it is still there after a write at a higher offset. -/
theorem Memory.write_eq_self_write {m : List Host.Cell} {a x : Nat} {b : Byte} (c : Byte)
    (h : Memory.write m a b = m) (hx : a < x) : Memory.write (Memory.write m x c) a b = Memory.write m x c := by
  induction m with
  | nil => cases h
  | cons d m ih =>
    obtain ⟨a', b'⟩ := d
    rcases lt_trichotomy a a' with ha | rfl | ha
    · rw [Memory.write_cons_of_lt ha] at h
      simpa using congrArg List.length h
    · rw [Memory.write_cons_same] at h
      rw [Memory.write_cons_of_gt hx, Memory.write_cons_same, (List.cons_eq_cons.1 h).1]
    · rw [Memory.write_cons_of_gt ha] at h
      have hm := (List.cons_eq_cons.1 h).2
      rw [Memory.write_cons_of_gt (ha.trans hx), Memory.write_cons_of_gt ha, ih hm]

theorem Memory.write_eq_self_writeBytes {m : List Host.Cell} {a x : Nat} {b : Byte} (bs : List Byte)
    (h : Memory.write m a b = m) (hx : a < x) :
    Memory.write (Memory.writeBytes m x bs) a b = Memory.writeBytes m x bs := by
  induction bs generalizing m x with
  | nil => exact h
  | cons c bs ih => exact ih (Memory.write_eq_self_write c h hx) (by omega)

/-- Storing the same bytes twice is storing them once, on any list of cells. -/
theorem Memory.writeBytes_writeBytes_same (m : List Host.Cell) (a : Nat) (bs : List Byte) :
    Memory.writeBytes (Memory.writeBytes m a bs) a bs = Memory.writeBytes m a bs := by
  induction bs generalizing m a with
  | nil => rfl
  | cons b bs ih =>
    have hfirst := Memory.write_eq_self_writeBytes bs (Memory.write_write_same m a b) (Nat.lt_succ_self a)
    rw [Memory.writeBytes, Memory.writeBytes, hfirst]
    exact ih _ _

/-! ### Writes repeated -/

/-- Once answered, doing `f` again changes nothing. -/
def Repeatable (f : State → State) : Prop :=
  ∀ (s : State) (r : BusResp), { f { f s with resp := r } with resp := r } = { f s with resp := r }

theorem repeatable_id : Repeatable id := fun _ _ => rfl

theorem repeatable_writeStatus (v : Word) : Repeatable (writeStatus v) := by
  intro s r
  simp only [writeStatus, Bool.and_assoc, Bool.and_self]

theorem repeatable_writeInput (n : Nat) (v : Word) : Repeatable (writeInput n v) := by
  intro s r
  cases hr : regAt n <;> simp only [writeInput, hr, Memory.writeBytes_writeBytes_same]

theorem writeInput_phase (n : Nat) (v : Word) (s : State) : (writeInput n v s).phase = s.phase := by
  cases hr : regAt n <;> simp only [writeInput, hr]

/-- What the block refuses with WR_IGNORED while BUSY repeats as in IDLE, as long as it starts no command. -/
theorem repeatable_unlessBusy {f : State → State} (hf : Repeatable f) (hphase : ∀ s, (f s).phase = s.phase) :
    Repeatable (unlessBusy setWrIgnored f) := by
  intro s r
  have hbusy : busy { f s with resp := r } = busy s := by
    rw [busy, busy, hphase]
  cases hb : busy s
  · rw [unlessBusy, unlessBusy, hb]
    simp only [Bool.false_eq_true, if_false, hbusy, hb]
    exact hf s r
  · have hb' : busy { setWrIgnored s with resp := r } = true := hb
    rw [unlessBusy_of_busy hb, unlessBusy_of_busy hb']
    rfl

/-- Every aligned write but a command and a soft reset (R106). -/
theorem repeatable_writeEffect {n : Nat} {v : Word} (hcmd : n ≠ 0x008) (hsrst : n = 0x004 → v.getLsbD 1 = false) :
    Repeatable (writeEffect n v) := by
  rcases writeEffect_cases n v with ⟨hn, hw⟩ | ⟨hn, -⟩ | hw | hw | hw
  · rw [hw, writeCtrl_of_not_srst (hsrst hn)]
    exact repeatable_unlessBusy (fun _ _ => rfl) fun _ => rfl
  · exact absurd hn hcmd
  · rw [hw]
    exact repeatable_writeStatus v
  · rw [hw]
    exact repeatable_unlessBusy (repeatable_writeInput n v) (writeInput_phase n v)
  · rw [hw]
    exact repeatable_id

/-! ### The access a step takes -/

theorem step_of_idle {s : State} (hp : s.phase = .idle) : step s = .next (hostStep s) := by rw [step, hp]

theorem step_of_slot {s : State} {w : Word} {left : Nat} (hp : s.phase = .busy w (left + 1)) :
    step s = .next (hostStep { s with phase := .busy w left }) := by rw [step, hp]

/-- The state in which a step lets the host act, in IDLE and in a bus slot. -/
theorem step_eq_hostStep {s u : State} {rest : List HostOp}
    (hu : s.phase = .idle ∧ u = { s with hostQueue := rest } ∨
      ∃ w left, s.phase = .busy w (left + 1) ∧ u = { s with phase := .busy w left, hostQueue := rest }) :
    step s = .next (hostStep { u with hostQueue := s.hostQueue }) := by
  rcases hu with ⟨hp, rfl⟩ | ⟨w, left, hp, rfl⟩
  · exact step_of_idle hp
  · exact step_of_slot hp

/-- POLL reads STATUS, and leaves the queue only when BUSY = 0 and DONE = 1 (R136, R110). -/
theorem hostStep_poll {s : State} {rest : List HostOp} (hq : s.hostQueue = .poll :: rest) :
    hostStep s = hostRead .word 0x00C#14 { s with hostQueue := if pollDone s then rest else s.hostQueue } := by
  rw [hostStep, hq]

theorem hostRead_word_of_idle {s : State} (hp : s.phase = .idle) {off : BitVec 14} (ha : off.toNat % 4 = 0) :
    hostRead .word off s = { s with resp := ⟨regWord s off.toNat, false⟩ } := by
  rw [hostRead_word ha, readWord_of_idle hp]

theorem hostStep_poll_of_idle {s : State} (hp : s.phase = .idle) {rest : List HostOp}
    (hq : s.hostQueue = .poll :: rest) :
    hostStep s = { s with
      hostQueue := if s.status.done then rest else s.hostQueue
      resp := ⟨statusWord s, false⟩ } := by
  have hdone : pollDone s = s.status.done := by rw [pollDone, busy_of_idle hp]; rfl
  rw [hostStep_poll hq, hdone]
  exact hostRead_word_of_idle (by exact hp) rfl

end Sys2Proof.Machine
end

section
/-! The host's accesses (20_memory.md): a running command is not disturbed by them, reads and repeated writes, refused
accesses, and the order in which a step takes them. -/

namespace Sys2Proof.Machine

/-- Settles O8: an access in a bus slot changes the host's side alone, which no command's result depends on. -/
theorem busyAccessDoesNotChangeTheCommand : Obligations.BusyAccessDoesNotChangeTheCommand := by
  unfold Obligations.BusyAccessDoesNotChangeTheCommand
  intro s u a b w left i hp hreset hsrst hstep ha hb
  have hu : u = hostStep { s with phase := .busy w left } := by
    rw [step_of_slot hp] at hstep
    exact (Host.Outcome.next.inj hstep).symm
  have hslot : HostSideOnly s { s with phase := .busy w left } := rfl
  have hside : u = withHostSide u s := by
    rw [hu]
    exact hslot.trans (hostSideOnly_hostStep_of_busy (busy_of_busy rfl) hreset hsrst)
  rw [hside] at hb
  obtain ⟨o, e, t, rfl, rfl⟩ := finish_of_exec_withHostSide ha hb
  exact ⟨rfl, ⟨rfl, rfl, rfl, rfl⟩, ⟨rfl, rfl, rfl, rfl, rfl, rfl⟩, rfl, rfl, rfl, rfl, rfl, rfl⟩

/-- Settles O53: in IDLE a read writes the answer alone, and every other write is repeatable. -/
theorem idleReadsAndRepeatedWrites : Obligations.IdleReadsAndRepeatedWrites := by
  unfold Obligations.IdleReadsAndRepeatedWrites
  refine ⟨fun s off hp ha => ?_, fun s size off v hcmd hsrst => ?_⟩
  · have hread := hostRead_word_of_idle hp ha
    refine ⟨hread, fun off' ha' => ?_⟩
    rw [hread, hostRead_word_of_idle (by exact hp) ha']
    rfl
  · by_cases hacc : acceptable size off = true
    · have hsrst' : off.toNat = 0x004 → v.getLsbD 1 = false := fun hoff => by
        have hoff' : off = 0x004#14 := BitVec.eq_of_toNat_eq hoff
        simpa only [hoff', true_and, Bool.not_eq_true] using hsrst
      rw [hostWrite, hostWrite, if_pos hacc, if_pos hacc]
      exact repeatable_writeEffect (fun hoff => hcmd (BitVec.eq_of_toNat_eq hoff)) hsrst' s ⟨0#32, false⟩
    · rw [hostWrite, hostWrite, if_neg hacc, if_neg hacc]
      rfl

/-- Settles O48, by the two forms of an access. -/
theorem misalignedAccessIsRefused : Obligations.MisalignedAccessIsRefused := by
  unfold Obligations.MisalignedAccessIsRefused
  refine ⟨fun s size off v h => ?_, fun s off v ha => ⟨?_, ?_⟩⟩
  · rw [hostRead, hostWrite, acceptable_eq_false h]
    exact ⟨rfl, rfl, rfl⟩
  · rw [hostRead_word ha]
    rcases idle_or_busy s with hp | ⟨w, left, hp⟩
    · rw [readWord_of_idle hp]
    · rw [readWord_of_busy hp]
  · rw [hostWrite_word ha]
    rfl

/-- Settles O60, by the entry at the head of the queue and the words of a FILL. -/
theorem stepTakesTheNextHostAccess : Obligations.StepTakesTheNextHostAccess := by
  unfold Obligations.StepTakesTheNextHostAccess
  refine ⟨fun s u rest hu => ?_, fun s rest hp hdone hq => ?_, fun s rest hp hdone hq => ?_,
    fun s w left rest hp hq => ?_, fun _ => rfl, rfl, fun off bs j _ => ?_, fun _ => rfl, fun _ => rfl⟩
  · have hqueue : u.hostQueue = rest := by rcases hu with ⟨-, rfl⟩ | ⟨_, _, -, rfl⟩ <;> rfl
    rw [step_eq_hostStep hu]
    subst hqueue
    refine ⟨fun size off hq => by rw [hq]; rfl, fun size off v hq => by rw [hq]; rfl, fun hq => by rw [hq]; rfl,
      fun hq hrest => ?_⟩
    have hsame : { u with hostQueue := s.hostQueue } = u := by rw [hq, ← hrest]
    rw [hsame, hostStep, hrest]
  · rw [step_of_idle hp, hostStep_poll_of_idle hp hq, hdone]
    rfl
  · rw [step_of_idle hp, hostStep_poll_of_idle hp hq, hdone]
    rfl
  · have hbusy : pollDone { s with phase := .busy w left } = false := rfl
    rw [step_of_slot hp, hostStep_poll (by exact hq), hbusy]
    rfl
  · have hoff : (j = 0 ∨ off.toNat + 4 * j < 0x4000) ↔ off.toNat + 4 * j < 0x4000 := by
      have := off.isLt
      omega
    simp only [hostFill_getElem?, hoff]
    rfl

end Sys2Proof.Machine
end

section
/-! The opcode map of R132 as a bijection. OP alone picks the command, and a word is MBZ above OP, so the words that
decode are the numbers up to 5 (R130, R135). -/

namespace Sys2Proof.Machine

/-- The opcode map and its inverse (R132). -/
theorem decodeOp_eq_some_iff (op : BitVec 4) (i : Instr) : decodeOp op = some i ↔ op = opOf i := by
  cases i <;> decide +revert

theorem decodeOp_eq_none_iff (op : BitVec 4) : decodeOp op = none ↔ 5 < op.toNat := by
  decide +revert

theorem wordMbz_append_wordOp (w : Word) : wordMbz w ++ wordOp w = w :=
  (BitVec.extractLsb'_append_extractLsb'_eq_extractLsb' rfl).trans BitVec.extractLsb'_eq_self

/-- A word as the number of its fields (R130). -/
theorem word_toNat (w : Word) : w.toNat = (wordOp w).toNat + 2 ^ 4 * (wordMbz w).toNat := by
  rw [← toNat_append_add, wordMbz_append_wordOp]

theorem decode_eq_ok_iff (w : Word) (i : Instr) : decode w = .ok i ↔ wordMbz w = 0#28 ∧ wordOp w = opOf i := by
  rw [← decodeOp_eq_some_iff]
  by_cases hmbz : wordMbz w = 0#28
  · cases hop : decodeOp (wordOp w) <;> simp [decode, hmbz, hop]
  · simp [decode, hmbz]

theorem decode_eq_error_iff (w : Word) :
    (∃ e, decode w = .error e) ↔ wordMbz w ≠ 0#28 ∨ 5 < (wordOp w).toNat := by
  rw [← decodeOp_eq_none_iff]
  by_cases hmbz : wordMbz w = 0#28
  · cases hop : decodeOp (wordOp w) <;> simp [decode, hmbz, hop]
  · simp [decode, hmbz]

theorem eq_encode_iff (w : Word) (i : Instr) : w = encode i ↔ wordMbz w = 0#28 ∧ wordOp w = opOf i := by
  constructor
  · rintro rfl
    cases i <;> decide
  · rintro ⟨hmbz, hop⟩
    rw [← wordMbz_append_wordOp w, hmbz, hop, encode]

/-- The bytes of a word on the bus decode as the word does (R101). -/
theorem decodeBytes_wordBytes (w : Word) : decodeBytes (wordBytes w) = decode w :=
  congrArg decode (wordOfBytes_lanes w)

theorem tableWord_toNat (w : Word) : tableWord 32 w.toNat = w := by
  rw [tableWord, Nat.mod_eq_of_lt w.isLt, BitVec.ofNat_toNat, BitVec.setWidth_eq]

/-- The table's number of a word reads as the word's bytes do. -/
theorem decodeTableWord_toNat (w : Word) : decodeTableWord 32 w.toNat = (decodeBytes (wordBytes w)).toOption := by
  have hbytes : [w.extractLsb' 0 8, w.extractLsb' 8 8, w.extractLsb' 16 8, w.extractLsb' 24 8] = wordBytes w := rfl
  simp only [decodeTableWord, tableWord_toNat, hbytes]
  cases decodeBytes (wordBytes w) <;> rfl

end Sys2Proof.Machine
end

section
/-! What each command leaves alone (R133): the host's inputs in every form of `Leaves`, and the frame results and the IV
in the rest of a command behind its Prologue. -/

namespace Sys2Proof.Machine

theorem Leaves.sameInputs {s t : State} (h : Leaves s t) : SameInputs s t := by
  cases h with
  | kept o e ht => exact ht ▸ sameInputs_finish o e s
  | iv v ht => exact ht ▸ (sameInputs_writeIv v s).trans (sameInputs_finish _ _ _)
  | none scope hscope u o e hu hd hm hp hr hi ht => exact ht ▸ hu.trans (sameInputs_finish o e u)
  | plain scope hscope u p m hl hu hd hm hr hs hi ht =>
    exact ht ▸ ((hu.trans (sameInputs_writePt hl u)).trans (sameInputs_setMarker m _)).trans (sameInputs_finish _ _ _)
  | records scope hscope P u p hl hu hd hm hs hi ht =>
    exact ht ▸ hu.trans (sameInputs_iterateAndFinish_writePt P hl u)

/-- A command behind its Prologue ends in the Prologue's own error, or runs on the cleared results (R342). -/
theorem prologue_induction {p : State → Prop} {scope : Scope} {rest : State → State} {s : State}
    (hfinish : ∀ o e, p (finish o e (clearResults scope s))) (hrest : p (rest (clearResults scope s))) :
    p (prologue scope rest s) := by
  simp only [prologue]
  split
  · exact hfinish _ _
  · exact hrest

theorem sameIv_parseFrame (s : State) : SameIv s (parseFrame s) := by
  refine prologue_induction (p := SameIv s) (fun _ _ => ⟨rfl, rfl, rfl, rfl⟩) ?_
  rcases frameStage (frameBytes (clearResults .frame s)) with ⟨_ | _ | _, f⟩
  all_goals exact ⟨rfl, rfl, rfl, rfl⟩

theorem decryptCommand_keeps_info_iv (s : State) :
    (decryptCommand s).info = s.info ∧ SameIv s (decryptCommand s) := by
  refine prologue_induction (p := fun t => t.info = s.info ∧ SameIv s t)
    (fun _ _ => ⟨rfl, rfl, rfl, rfl, rfl⟩) ?_
  split_ifs
  all_goals exact ⟨rfl, rfl, rfl, rfl, rfl⟩

theorem iterateCommand_keeps_info_iv (P : Config.Params) (s : State) :
    (iterateCommand P s).info = s.info ∧ SameIv s (iterateCommand P s) :=
  prologue_induction (p := fun t => t.info = s.info ∧ SameIv s t)
    (fun _ _ => ⟨rfl, rfl, rfl, rfl, rfl⟩) ⟨rfl, rfl, rfl, rfl, rfl⟩

end Sys2Proof.Machine
end

section
/-! The opcode map of command words (30_encoding.md) and what the commands write. -/

namespace Sys2Proof.Machine

/-- Settles O9, row by row of the opcode map, and for every word by its lanes. -/
theorem opcodeWordsDecode : Obligations.OpcodeWordsDecode := by
  unfold Obligations.OpcodeWordsDecode
  refine ⟨by decide, by decide, by decide, by decide, by decide, by decide, by decide, by decide,
    decodeBytes_wordBytes, fun w => ?_⟩
  rw [decodeTableWord_toNat, decodeBytes_wordBytes]

/-- Settles O10, by the fields of the word. -/
theorem decodeIsExactlyTheOpcodeMap : Obligations.DecodeIsExactlyTheOpcodeMap := by
  unfold Obligations.DecodeIsExactlyTheOpcodeMap
  refine ⟨fun w i => (decode_eq_ok_iff w i).trans (eq_encode_iff w i).symm, fun w => ?_⟩
  have hw := word_toNat w
  have hop := (wordOp w).isLt
  rw [decode_eq_error_iff, Ne, BitVec.toNat_eq, BitVec.toNat_ofNat]
  omega

/-- Settles O45, in every form a command leaves. -/
theorem commandsKeepTheHostsInputs : Obligations.CommandsKeepTheHostsInputs := by
  unfold Obligations.CommandsKeepTheHostsInputs
  exact fun _ _ _ h => (leaves_exec h).sameInputs

/-- Settles O46, command by command. -/
theorem commandsWriteOnlyTheirResults : Obligations.CommandsWriteOnlyTheirResults := by
  unfold Obligations.CommandsWriteOnlyTheirResults
  refine ⟨?nop, ?deriveIv, ?decrypt, ?iterate, ?parseFrame⟩ <;> rintro s _ ⟨⟩
  case nop => exact ⟨rfl, ⟨rfl, rfl, rfl, rfl⟩, ⟨rfl, rfl, rfl, rfl, rfl, rfl⟩⟩
  case deriveIv => exact ⟨rfl, ⟨rfl, rfl, rfl, rfl, rfl, rfl⟩⟩
  case decrypt => exact decryptCommand_keeps_info_iv s
  case iterate => exact iterateCommand_keeps_info_iv defaultParams s
  case parseFrame => exact sameIv_parseFrame s

end Sys2Proof.Machine
end

section
/-! The frame stage by the length of the telegram (R162 to R166): shorter than the DLL header, the header alone, cut before
the payload, and whole. What holds of its frame results is shown in these four cases. Last, what every form of PARSE_FRAME
leaves cleared, and PAYLOAD_LEN as the length of the payload (R169, R170). -/

namespace Sys2Proof.Machine

/-! ### The four cases -/

/-- The frame results once the CI byte is read, before TPL extraction (R163, R165). -/
def ciHeader (F : List Byte) : FrameInfo :=
  { dllHeader F with ci := byteAt F 10, ciPresent := true, tplKind := tplKindOfCi (byteAt F 10) }

/-- The frame results of a telegram that reaches its payload (R167 to R169). -/
def wholeInfo (F : List Byte) : FrameInfo :=
  { securityTest (extractTpl F (ciHeader F)) with
    payloadOff := BitVec.ofNat 9 (payloadOffset (tplKindOfCi (byteAt F 10)))
    payloadLen := BitVec.ofNat 9 (F.length - payloadOffset (tplKindOfCi (byteAt F 10))) }

theorem frameStage_of_ten {F : List Byte} (h : F.length = 10) :
    frameStage F = (.ok, { dllHeader F with payloadOff := 10#9, payloadLen := 0#9 }) := by
  simp [frameStage, h]

theorem frameStage_of_cut {F : List Byte} (h : 11 ≤ F.length)
    (hn : F.length < payloadOffset (tplKindOfCi (byteAt F 10))) : frameStage F = (.truncated, ciHeader F) := by
  have h1 : ¬ F.length < 10 := by omega
  have h2 : F.length ≠ 10 := by omega
  simp only [frameStage, h1, h2, hn, if_true, if_false, ciHeader]

theorem frameStage_of_whole {F : List Byte} (h : 11 ≤ F.length)
    (hn : payloadOffset (tplKindOfCi (byteAt F 10)) ≤ F.length) : frameStage F = (.ok, wholeInfo F) := by
  have h1 : ¬ F.length < 10 := by omega
  have h2 : F.length ≠ 10 := by omega
  have h3 : ¬ F.length < payloadOffset (tplKindOfCi (byteAt F 10)) := by omega
  simp only [frameStage, h1, h2, h3, if_false, wholeInfo, ciHeader]

theorem frameStage_cases (F : List Byte) :
    (F.length < 10 ∧ frameStage F = (.malformed, FrameInfo.cleared)) ∨
    (F.length = 10 ∧ frameStage F = (.ok, { dllHeader F with payloadOff := 10#9, payloadLen := 0#9 })) ∨
    (11 ≤ F.length ∧ frameStage F = (.truncated, ciHeader F)) ∨
    (11 ≤ F.length ∧ frameStage F = (.ok, wholeInfo F)) := by
  by_cases h1 : F.length < 10
  · exact .inl ⟨h1, frameStage_of_short h1⟩
  by_cases h2 : F.length = 10
  · exact .inr (.inl ⟨h2, frameStage_of_ten h2⟩)
  have h : 11 ≤ F.length := by omega
  by_cases hn : F.length < payloadOffset (tplKindOfCi (byteAt F 10))
  · exact .inr (.inr (.inl ⟨h, frameStage_of_cut h hn⟩))
  · exact .inr (.inr (.inr ⟨h, frameStage_of_whole h (Nat.le_of_not_lt hn)⟩))

/-- `need` of R165 by the CI byte. -/
theorem payloadOffset_tplKindOfCi (ci : Byte) :
    payloadOffset (tplKindOfCi ci) = if ci = 0x72#8 then 23 else if ci = 0x7A#8 then 15 else 11 := by
  unfold tplKindOfCi
  split
  · rfl
  · split <;> rfl

theorem payloadOffset_le (k : TplKind) : payloadOffset k ≤ 23 := by cases k <;> decide

/-! ### The header -/

/-- The DLL header, CI, CI_PRESENT and TPL_KIND are the same. -/
structure SameHeader (f g : FrameInfo) : Prop where
  l : g.l = f.l
  c : g.c = f.c
  m : g.m = f.m
  a : g.a = f.a
  v : g.v = f.v
  t : g.t = f.t
  infoValid : g.infoValid = f.infoValid
  ci : g.ci = f.ci
  ciPresent : g.ciPresent = f.ciPresent
  tplKind : g.tplKind = f.tplKind

/-- TPL extraction writes the TPL fields alone (R167). -/
theorem sameHeader_extractTpl (F : List Byte) (f : FrameInfo) : SameHeader f (extractTpl F f) := by
  unfold extractTpl
  split <;> constructor <;> rfl

/-- The security-mode test writes SEC_MODE and ENCRYPTED alone (R168). -/
theorem securityTest_eq (f : FrameInfo) :
    securityTest f = { f with secMode := (securityTest f).secMode, encrypted := (securityTest f).encrypted } := by
  unfold securityTest
  split <;> rfl

theorem sameHeader_wholeInfo (F : List Byte) : SameHeader (ciHeader F) (wholeInfo F) := by
  obtain ⟨hl, hc, hm, ha, hv, ht, hvalid, hci, hpresent, hkind⟩ := sameHeader_extractTpl F (ciHeader F)
  rw [wholeInfo, securityTest_eq]
  exact ⟨hl, hc, hm, ha, hv, ht, hvalid, hci, hpresent, hkind⟩

/-- A TPL, read or cut, leaves the header as it was (R166, R167). -/
theorem sameHeader_frameStage {F : List Byte} (h : 11 ≤ F.length) : SameHeader (ciHeader F) (frameStage F).2 := by
  by_cases hn : F.length < payloadOffset (tplKindOfCi (byteAt F 10))
  · rw [frameStage_of_cut h hn]
    constructor <;> rfl
  · rw [frameStage_of_whole h (Nat.le_of_not_lt hn)]
    exact sameHeader_wholeInfo F

/-- The DLL header fields are those of the telegram (R163). -/
def HoldsDllHeader (F : List Byte) (f : FrameInfo) : Prop :=
  f.l = byteAt F 0 ∧ f.c = byteAt F 1 ∧ f.m = le16 (byteAt F 2) (byteAt F 3) ∧
    f.a = wordOfBytes (byteAt F 4) (byteAt F 5) (byteAt F 6) (byteAt F 7) ∧ f.v = byteAt F 8 ∧ f.t = byteAt F 9 ∧
    f.infoValid = true

theorem holdsDllHeader_frameStage {F : List Byte} (h : 10 ≤ F.length) : HoldsDllHeader F (frameStage F).2 := by
  rcases Nat.eq_or_lt_of_le h with h10 | h11
  · rw [frameStage_of_ten h10.symm]
    exact ⟨rfl, rfl, rfl, rfl, rfl, rfl, rfl⟩
  · have hs := sameHeader_frameStage h11
    exact ⟨hs.l, hs.c, hs.m, hs.a, hs.v, hs.t, hs.infoValid⟩

/-! ### The TPL fields -/

/-- The TPL fields are those that TPL_KIND reads from the telegram, the others 0 (R167). -/
structure HoldsTpl (F : List Byte) (f : FrameInfo) : Prop where
  long : f.tplKind = .long → f.tplId = wordOfBytes (byteAt F 11) (byteAt F 12) (byteAt F 13) (byteAt F 14) ∧
    f.tplM = le16 (byteAt F 15) (byteAt F 16) ∧ f.tplV = byteAt F 17 ∧ f.tplT = byteAt F 18 ∧ f.acc = byteAt F 19 ∧
    f.sts = byteAt F 20 ∧ f.cfg = le16 (byteAt F 21) (byteAt F 22) ∧ f.tplValid = true
  short : f.tplKind = .short → f.tplId = 0#32 ∧ f.tplM = 0#16 ∧ f.tplV = 0#8 ∧ f.tplT = 0#8 ∧ f.acc = byteAt F 11 ∧
    f.sts = byteAt F 12 ∧ f.cfg = le16 (byteAt F 13) (byteAt F 14) ∧ f.tplValid = true
  none : f.tplKind = .none → f.tplId = 0#32 ∧ f.tplM = 0#16 ∧ f.tplV = 0#8 ∧ f.tplT = 0#8 ∧ f.acc = 0#8 ∧ f.sts = 0#8 ∧
    f.cfg = 0#16 ∧ f.tplValid = false

theorem holdsTpl_extractTpl (F : List Byte) : HoldsTpl F (extractTpl F (ciHeader F)) := by
  have hkind := (sameHeader_extractTpl F (ciHeader F)).tplKind
  refine ⟨fun h => ?_, fun h => ?_, fun h => ?_⟩
  all_goals
    rw [extractTpl, hkind.symm.trans h]
    exact ⟨rfl, rfl, rfl, rfl, rfl, rfl, rfl, rfl⟩

theorem holdsTpl_wholeInfo (F : List Byte) : HoldsTpl F (wholeInfo F) := by
  obtain ⟨hlong, hshort, hnone⟩ := holdsTpl_extractTpl F
  rw [wholeInfo, securityTest_eq]
  exact ⟨hlong, hshort, hnone⟩

theorem holdsTpl_frameStage {F : List Byte} (h : (frameStage F).1 = .ok) : HoldsTpl F (frameStage F).2 := by
  rcases frameStage_cases F with ⟨_, hF⟩ | ⟨_, hF⟩ | ⟨_, hF⟩ | ⟨_, hF⟩ <;> rw [hF] at h ⊢
  · cases h
  · exact ⟨nofun, nofun, fun _ => ⟨rfl, rfl, rfl, rfl, rfl, rfl, rfl, rfl⟩⟩
  · cases h
  · exact holdsTpl_wholeInfo F

/-! ### The security-mode test -/

/-- SEC_MODE, ENCRYPTED and SEC_STATUS as R168 has them of a valid TPL and of none. -/
structure SecurityTested (f : FrameInfo) : Prop where
  of_valid : f.tplValid = true → f.secMode = cfgSecMode f.cfg ∧ (f.encrypted = true ↔ f.secMode = 5#5 ∨ f.secMode = 7#5) ∧
    frameSecStatus f = if f.encrypted then .encrypted else .unencrypted
  of_not_valid : f.tplValid = false → f.secMode = 0#5 ∧ f.encrypted = false ∧ frameSecStatus f = .none

theorem securityTested_of_noTpl {f : FrameInfo} (hv : f.tplValid = false) (hm : f.secMode = 0#5)
    (he : f.encrypted = false) : SecurityTested f :=
  ⟨fun h => absurd h (by simp [hv]), fun _ => ⟨hm, he, by simp [frameSecStatus, hv]⟩⟩

theorem securityTested_securityTest {f : FrameInfo} (hm : f.secMode = 0#5) (he : f.encrypted = false) :
    SecurityTested (securityTest f) := by
  cases hv : f.tplValid with
  | false =>
    have hsame : securityTest f = f := by simp [securityTest, hv]
    rw [hsame]
    exact securityTested_of_noTpl hv hm he
  | true => constructor <;> simp [securityTest, hv, frameSecStatus, encryptedMode]

theorem securityTested_wholeInfo (F : List Byte) : SecurityTested (wholeInfo F) := by
  obtain ⟨hmode, hencrypted⟩ :
      (extractTpl F (ciHeader F)).secMode = 0#5 ∧ (extractTpl F (ciHeader F)).encrypted = false := by
    unfold extractTpl
    split <;> exact ⟨rfl, rfl⟩
  obtain ⟨hvalid, hnone⟩ := securityTested_securityTest hmode hencrypted
  exact ⟨hvalid, hnone⟩

theorem securityTested_frameStage (F : List Byte) : SecurityTested (frameStage F).2 := by
  rcases frameStage_cases F with ⟨_, hF⟩ | ⟨_, hF⟩ | ⟨_, hF⟩ | ⟨_, hF⟩ <;> rw [hF]
  · exact securityTested_of_noTpl rfl rfl rfl
  · exact securityTested_of_noTpl rfl rfl rfl
  · exact securityTested_of_noTpl rfl rfl rfl
  · exact securityTested_wholeInfo F

/-! ### PARSE_FRAME and its payload -/

/-- PARSE_FRAME decrypts nothing and reads no record (R170). -/
theorem parseFrame_keeps_cleared (s : State) :
    (parseFrame s).status.marker = false ∧ (parseFrame s).status.recStop = .notRun ∧
      (parseFrame s).recCount = 0#8 := by
  refine prologue_induction (p := fun t => t.status.marker = false ∧ t.status.recStop = .notRun ∧ t.recCount = 0#8)
    (fun _ _ => ⟨rfl, rfl, rfl⟩) ?_
  rcases frameStage (frameBytes (clearResults .frame s)) with ⟨_ | _ | _, f⟩
  all_goals exact ⟨rfl, rfl, rfl⟩

/-- PAYLOAD_LEN is the number of bytes that follow PAYLOAD_OFF (R169). -/
theorem payloadLen_frameStage {F : List Byte} (h : (frameStage F).1 = .ok) (hn : F.length ≤ 256) :
    BitVec.ofNat 9 (F.drop (frameStage F).2.payloadOff.toNat).length = (frameStage F).2.payloadLen := by
  have hp := frameStage_payload h hn
  have hlen : (F.drop (frameStage F).2.payloadOff.toNat).length = (frameStage F).2.payloadLen.toNat := by
    rw [List.length_drop]
    omega
  rw [hlen, BitVec.ofNat_toNat, BitVec.setWidth_eq]

end Sys2Proof.Machine
end

section
/-! The frame decoder (40_frame.md): the frame stage and PARSE_FRAME. -/

namespace Sys2Proof.Machine

/-- Settles O16, by the four cases of the length. -/
theorem frameStageVerdictAndBoundary : Obligations.FrameStageVerdictAndBoundary := by
  unfold Obligations.FrameStageVerdictAndBoundary
  intro F
  simp only [← payloadOffset_tplKindOfCi]
  refine ⟨frameStage_of_short, holdsDllHeader_frameStage, fun h => ?ten, fun h => ?header, fun h hn => ?cut,
    fun h hn hmax => ?whole⟩
  case ten =>
    rw [frameStage_of_ten h]
    exact ⟨rfl, rfl, rfl, rfl, rfl, rfl⟩
  case header =>
    have hs := sameHeader_frameStage h
    exact ⟨hs.ciPresent, hs.ci, hs.tplKind⟩
  case cut =>
    rw [frameStage_of_cut h hn]
    exact ⟨rfl, rfl, rfl, rfl, rfl, rfl⟩
  case whole =>
    have hoff := payloadOffset_le (tplKindOfCi (byteAt F 10))
    rw [frameStage_of_whole h hn]
    exact ⟨rfl, Nat.mod_eq_of_lt (by omega), Nat.mod_eq_of_lt (by omega)⟩

/-- Settles O17: both parts hold in each of the four cases of the length. -/
theorem frameStageTplAndSecurityMode : Obligations.FrameStageTplAndSecurityMode := by
  unfold Obligations.FrameStageTplAndSecurityMode
  intro F
  obtain ⟨hvalid, hnone⟩ := securityTested_frameStage F
  exact ⟨fun h => (holdsTpl_frameStage h).long, fun h => (holdsTpl_frameStage h).short,
    fun h => (holdsTpl_frameStage h).none, hvalid, hnone⟩

/-- Settles O18, by the four forms PARSE_FRAME takes. -/
theorem parseFrameLeavesHeaderAndRawPayload : Obligations.ParseFrameLeavesHeaderAndRawPayload := by
  unfold Obligations.ParseFrameLeavesHeaderAndRawPayload
  refine ⟨rfl, fun s => ?_⟩
  obtain ⟨hmarker, hstop, hcount⟩ := parseFrame_keeps_cleared s
  refine ⟨parseFrame s, rfl, hmarker, hstop, hcount, sameIv_parseFrame s, fun hn => ?tooLong, fun hn => ?malformed,
    fun hn hv => ?truncated, fun hn hv => ?ok⟩
  case tooLong =>
    rw [parseFrame_of_tooLong hn]
    exact ⟨⟨rfl, rfl, rfl, rfl⟩, rfl, noResults_finish_clearResults (by decide) s _ _, rfl⟩
  case malformed =>
    rw [parseFrame_of_malformed hn]
    exact ⟨⟨rfl, rfl, rfl, rfl⟩, rfl, noResults_finish_clearResults (by decide) s _ _, rfl⟩
  case truncated =>
    rw [parseFrame_of_truncated hn hv]
    have hnone : NoResults (clearResults .frame s) := noResults_clearResults (by decide) s
    exact ⟨⟨rfl, rfl, rfl, rfl⟩, rfl, hnone.congr rfl rfl rfl, frameSecStatus_of_truncated hv⟩
  case ok =>
    have hF : (frameBytes s).length ≤ 256 := (frameBytes_length s).trans_le hn
    have hp : ((frameBytes s).drop (frameStage (frameBytes s)).2.payloadOff.toNat).length ≤ 256 := by
      rw [List.length_drop]
      omega
    rw [parseFrame_of_ok hn hv]
    exact ⟨⟨rfl, rfl, rfl, rfl⟩, rfl, rfl, payloadLen_frameStage hv hF, ptBytes_of_writePt hp rfl fun _ _ _ => rfl⟩

end Sys2Proof.Machine
end

section
/-! The reference encryption undone, layer by layer: the rounds of the cipher (R249, R250), the blocks of CBC (R205,
R222) and the padding (R209, R222). -/

namespace Sys2Proof.Machine

/-! ### The rounds -/

/-- What the inverse rounds undo: they meet the state between two rounds after SubBytes and ShiftRows. -/
theorem invRounds_fwdRounds (key : Block) (r : Nat) (s : Block) :
    invRounds key r (shiftRows (subBytes (fwdRounds key r s))) = shiftRows (subBytes s) := by
  induction r with
  | zero => rfl
  | succ r ih =>
    rw [invRounds, invShiftRows_shiftRows, invSubBytes_subBytes, fwdRounds, blockXor_cancel,
      invMixColumns_mixColumns, ih]

theorem aesInvCipher_aesCipher (key x : Block) : aesInvCipher key (aesCipher key x) = x := by
  rw [aesInvCipher, aesCipher, blockXor_cancel, invRounds_fwdRounds, invShiftRows_shiftRows, invSubBytes_subBytes,
    blockXor_cancel]

/-! ### CBC -/

theorem cbcDecrypt_flatMap (key iv : Block) (cs : List Block) :
    cbcDecrypt key iv (cs.flatMap blockBytes) = (cbcBlocks key iv cs).flatMap blockBytes := by
  rw [cbcDecrypt, blocksOf_flatMap]

/-- Each block is chained with the one before it in the list that the IV heads (R205). -/
theorem cbcBlocks_getElem? (key prev : Block) (cs : List Block) {j : Nat} (h : j < cs.length) :
    (cbcBlocks key prev cs)[j]? =
      some (blockXor (aesInvCipher key cs[j]) ((prev :: cs)[j]'(h.trans (Nat.lt_succ_self _)))) := by
  induction cs generalizing prev j with
  | nil => cases h
  | cons c cs ih =>
    cases j with
    | zero => rfl
    | succ j => exact ih c (Nat.lt_of_succ_lt_succ h)

theorem cbcBlocks_cbcEncryptBlocks (key prev : Block) (ys : List Block) :
    cbcBlocks key prev (cbcEncryptBlocks key prev ys) = ys := by
  induction ys generalizing prev with
  | nil => rfl
  | cons y ys ih => rw [cbcEncryptBlocks, cbcBlocks, aesInvCipher_aesCipher, blockXor_cancel, ih]

/-! ### Padding -/

/-- StripPad by the last byte (R209). -/
theorem stripPad_append_singleton (p : List Byte) (k : Byte) :
    stripPad (p ++ [k]) = if k.toNat ≤ 16 then (p ++ [k]).take (p.length + 1 - k.toNat) else p ++ [k] := by
  rw [stripPad, List.getLast?_concat, List.length_append, List.length_singleton]

theorem refPad_length_mod (x : List Byte) : (refPad x).length % 16 = 0 := by
  simp only [refPad, List.length_append, List.length_replicate]
  omega

/-- The last byte of the padding is its own count, so StripPad takes off all of it. -/
theorem stripPad_append_padding (x : List Byte) {k : Nat} (h1 : 1 ≤ k) (h16 : k ≤ 16) :
    stripPad (x ++ List.replicate k (BitVec.ofNat 8 k)) = x := by
  obtain ⟨n, rfl⟩ : ∃ n, k = n + 1 := ⟨k - 1, by omega⟩
  have hk : (BitVec.ofNat 8 (n + 1)).toNat = n + 1 := Nat.mod_eq_of_lt (by omega)
  rw [List.replicate_succ', ← List.append_assoc, stripPad_append_singleton, hk, if_pos h16, List.length_append,
    List.length_replicate, Nat.add_assoc, Nat.add_sub_cancel, List.append_assoc, List.take_left]

theorem stripPad_refPad (x : List Byte) : stripPad (refPad x) = x :=
  stripPad_append_padding x (by omega) (by omega)

/-! ### The round trip -/

theorem refEncrypt_length_mod (key iv : Block) (x : List Byte) : (refEncrypt key iv x).length % 16 = 0 := by
  rw [refEncrypt, flatMap_blockBytes_length, Nat.mul_mod_right]

theorem cbcDecrypt_refEncrypt (key iv : Block) (x : List Byte) :
    cbcDecrypt key iv (refEncrypt key iv x) = refPad x := by
  rw [refEncrypt, cbcDecrypt_flatMap, cbcBlocks_cbcEncryptBlocks, flatMap_blocksOf _ (refPad_length_mod x)]

theorem stripPad_cbcDecrypt_refEncrypt (key iv : Block) (x : List Byte) :
    stripPad (cbcDecrypt key iv (refEncrypt key iv x)) = x := by
  rw [cbcDecrypt_refEncrypt, stripPad_refPad]

end Sys2Proof.Machine
end

section
/-! The derived IV (R201): its bytes as a block, its registers as words, and its inputs back from its bytes. -/

namespace Sys2Proof.Machine

/-- A 16-bit field is its two bytes, the high one first. -/
theorem bytes_append (v : BitVec 16) : v.extractLsb' 8 8 ++ v.extractLsb' 0 8 = v :=
  (BitVec.extractLsb'_append_extractLsb'_eq_extractLsb' rfl).trans BitVec.extractLsb'_eq_self

theorem wordBytes_injective {v w : Word} (h : wordBytes v = wordBytes w) : v = w := by
  apply BitVec.eq_of_toNat_eq
  rw [← leNat_wordBytes, ← leNat_wordBytes, h]

theorem exists_isBlock_deriveIv (m : BitVec 16) (a : Word) (acc : Byte) (fc : BitVec 16) :
    ∃ b, IsBlock (deriveIv m a acc fc) b :=
  ⟨⟨⟨m.extractLsb' 0 8, m.extractLsb' 8 8, lane a 0, lane a 1⟩, ⟨lane a 2, lane a 3, acc, fc.extractLsb' 0 8⟩,
    ⟨fc.extractLsb' 8 8, 0#8, 0#8, 0#8⟩, ⟨0#8, 0#8, 0#8, 0#8⟩⟩, rfl⟩

/-- DERIVE_IV never fails (R200). -/
theorem deriveIvCommand_eq (s : State) :
    deriveIvCommand s = finish .ok .none (writeIv (deriveIv s.ivinM s.ivinA s.ivinAcc s.ivinFc) s) :=
  prologue_none _ s

/-- A word built from the bytes of M and the low bytes of the address (R201). -/
theorem wordOfBytes_m_a (m : BitVec 16) (a : Word) :
    wordOfBytes (m.extractLsb' 0 8) (m.extractLsb' 8 8) (lane a 0) (lane a 1) = a.extractLsb' 0 16 ++ m := by
  have hm := m.isLt
  apply BitVec.eq_of_toNat_eq
  simp only [wordOfBytes_toNat, toNat_append_add, lane_toNat, BitVec.extractLsb'_toNat, Nat.shiftRight_eq_div_pow]
  omega

/-- A word built from the high bytes of the address, ACC and the low byte of FC (R201). -/
theorem wordOfBytes_a_acc_fc (a : Word) (acc fc : Byte) :
    wordOfBytes (lane a 2) (lane a 3) acc fc = fc ++ acc ++ a.extractLsb' 16 16 := by
  have ha := a.isLt
  apply BitVec.eq_of_toNat_eq
  simp only [wordOfBytes_toNat, toNat_append_add, lane_toNat, BitVec.extractLsb'_toNat, Nat.shiftRight_eq_div_pow]
  omega

theorem wordOfBytes_low (b : Byte) : wordOfBytes b 0#8 0#8 0#8 = 0#24 ++ b := by
  apply BitVec.eq_of_toNat_eq
  simp only [wordOfBytes_toNat, toNat_append_add, BitVec.toNat_ofNat]
  omega

theorem wordOfBytes_zero : wordOfBytes 0#8 0#8 0#8 0#8 = 0#32 := by decide

/-- At the default build the IV comes from the DLL header, whatever TPL_KIND is (R206). -/
theorem ivForDecode_default (f : FrameInfo) : ivForDecode defaultParams f = deriveIv f.m f.a f.acc 0#16 := rfl

end Sys2Proof.Machine
end

section
/-! DECRYPT and DECODE in the terms of their statements: what every form of DECRYPT leaves cleared (R210), and DECODE of
an encrypted telegram in each case of the cipher stage (R216, R346). -/

namespace Sys2Proof.Machine

theorem decryptCommand_keeps_cleared (s : State) :
    (decryptCommand s).status.secStatus = .none ∧ (decryptCommand s).status.recStop = .notRun ∧
      (decryptCommand s).recCount = 0#8 := by
  refine prologue_induction (p := fun t => t.status.secStatus = .none ∧ t.status.recStop = .notRun ∧ t.recCount = 0#8)
    (fun _ _ => ⟨rfl, rfl, rfl⟩) ?_
  split_ifs
  all_goals exact ⟨rfl, rfl, rfl⟩

theorem decryptBytes_writeIv {v : List Byte} {b : Block} (h : IsBlock v b) (s : State) (c : List Byte) :
    decryptBytes (writeIv v s) c = stripPad (cbcDecrypt (keyBlock s) b c) := by
  rw [decryptBytes, ivBlock_writeIv h]
  rfl

/-- The record stage leaves the frame results, SEC_STATUS, MARKER and the IV alone (R296). -/
theorem iterateAndFinish_writePt_keeps (P : Config.Params) (p : List Byte) (s : State) :
    (iterateAndFinish P (writePt p s)).info = s.info ∧
      (iterateAndFinish P (writePt p s)).status.secStatus = s.status.secStatus ∧
      (iterateAndFinish P (writePt p s)).status.marker = s.status.marker ∧
      SameIv s (iterateAndFinish P (writePt p s)) :=
  ⟨rfl, rfl, rfl, rfl, rfl, rfl, rfl⟩

/-- The state that the frame stage of DECODE leaves of a telegram that it accepts (R346). -/
def afterFrame (s : State) : State := setInfo (frameStage (frameBytes s)).2 (clearResults .frame s)

/-- The payload of the telegram (R169). -/
def telegramPayload (s : State) : List Byte := (frameBytes s).drop (frameStage (frameBytes s)).2.payloadOff.toNat

/-- The IV that DECODE derives at the default build (R206). -/
def telegramIv (s : State) : List Byte :=
  deriveIv (frameStage (frameBytes s)).2.m (frameStage (frameBytes s)).2.a (frameStage (frameBytes s)).2.acc 0#16

/-- An encrypted telegram that the frame stage accepts. -/
structure EncryptedTelegram (s : State) : Prop where
  fits : s.frameLen.toNat ≤ Config.pFrameMax
  accepted : (frameStage (frameBytes s)).1 = .ok
  encrypted : (frameStage (frameBytes s)).2.encrypted = true

/-- `t` holds the records of the decrypted telegram of `s`, their table and the IV. -/
structure HoldsDecrypted (s : State) (records : List Byte) (t : State) : Prop where
  finished :
    Finished (stopOutcome (iterate defaultParams records).2).1 (stopOutcome (iterate defaultParams records).2).2 t
  secStatus : t.status.secStatus = .decrypted
  info : t.info = (frameStage (frameBytes s)).2
  iv : ivBytes t = telegramIv s
  marker : t.status.marker = true
  recStop : t.status.recStop = (iterate defaultParams records).2
  ptLen : t.ptLen.toNat = records.length
  pt : ptBytes t = records
  table : TableHolds t (iterate defaultParams records).1

theorem telegramPayload_length_le {s : State} (hn : s.frameLen.toNat ≤ Config.pFrameMax) :
    (telegramPayload s).length ≤ Config.pPtMax := by
  rw [telegramPayload, List.length_drop, frameBytes_length]
  exact (Nat.sub_le _ _).trans hn

theorem noResults_afterFrame (s : State) : NoResults (afterFrame s) :=
  (noResults_clearResults (scope := .frame) (by decide) s).congr rfl rfl rfl

/-- The plaintext of the cipher stage of DECODE is that of the telegram's own key and IV. -/
theorem decryptBytes_afterFrame {s : State} {b : Block} (h : IsBlock (telegramIv s) b) (c : List Byte) :
    decryptBytes (writeIv (ivForDecode defaultParams (afterFrame s).info) (afterFrame s)) c =
      stripPad (cbcDecrypt (keyBlock s) b c) := by
  have hiv : ivForDecode defaultParams (afterFrame s).info = telegramIv s := rfl
  have hkey : keyBlock (afterFrame s) = keyBlock s := rfl
  rw [hiv, decryptBytes_writeIv h, hkey]

section
variable {s : State} (h : EncryptedTelegram s)
include h

theorem EncryptedTelegram.decodeCommand_eq :
    decodeCommand defaultParams s =
      afterCipher defaultParams (cipherStage defaultParams (telegramPayload s) (afterFrame s)) :=
  decodeCommand_of_encrypted defaultParams h.fits h.accepted h.encrypted

theorem EncryptedTelegram.decodeCommand_of_noKey (hk : s.keyLen = 0#8) :
    decodeCommand defaultParams s = finish .degraded .noKey (setSecStatus .encrypted (afterFrame s)) := by
  rw [h.decodeCommand_eq, cipherStage_of_noKey _ _ (by exact hk)]
  rfl

theorem EncryptedTelegram.decodeCommand_of_badKey (h0 : s.keyLen ≠ 0#8) (hk : s.keyLen ≠ 16#8) :
    decodeCommand defaultParams s = finish .fatal .invalidKeyLength (clearResults .frame (afterFrame s)) := by
  rw [h.decodeCommand_eq, cipherStage_of_badKey _ _ (by exact h0) (by exact hk)]
  rfl

theorem EncryptedTelegram.decodeCommand_of_badLength (hk : s.keyLen = 16#8) (hc : (telegramPayload s).length % 16 ≠ 0) :
    decodeCommand defaultParams s =
      finish .degraded .cipherLength (setSecStatus .undecryptable (writeIv (telegramIv s) (afterFrame s))) := by
  rw [h.decodeCommand_eq, cipherStage_of_badLength _ (by exact hk) hc]
  rfl

theorem EncryptedTelegram.decodeCommand_of_noMarker {b : Block} (hb : IsBlock (telegramIv s) b) (hk : s.keyLen = 16#8)
    (hc : (telegramPayload s).length % 16 = 0)
    (hm : markerOf (stripPad (cbcDecrypt (keyBlock s) b (telegramPayload s))) = false) :
    decodeCommand defaultParams s =
      finish .degraded .decryptionIntegrity
        (setSecStatus .undecryptable (setMarker false (writeIv (telegramIv s) (afterFrame s)))) := by
  rw [h.decodeCommand_eq, cipherStage_of_noMarker _ (by exact hk) hc (by rw [decryptBytes_afterFrame hb, hm])]
  rfl

/-- The records of a decrypted telegram fit PT_BUF. -/
theorem EncryptedTelegram.records_length_le (b : Block) (hc : (telegramPayload s).length % 16 = 0) :
    ((stripPad (cbcDecrypt (keyBlock s) b (telegramPayload s))).drop 2).length ≤ Config.pPtMax :=
  calc ((stripPad (cbcDecrypt (keyBlock s) b (telegramPayload s))).drop 2).length
    _ ≤ (stripPad (cbcDecrypt (keyBlock s) b (telegramPayload s))).length := (List.drop_sublist _ _).length_le
    _ ≤ (cbcDecrypt (keyBlock s) b (telegramPayload s)).length := stripPad_length_le _
    _ = (telegramPayload s).length := cbcDecrypt_length _ _ hc
    _ ≤ Config.pPtMax := telegramPayload_length_le h.fits

theorem EncryptedTelegram.decodeCommand_of_marker {b : Block} {p : List Byte} (hb : IsBlock (telegramIv s) b)
    (hk : s.keyLen = 16#8) (hc : (telegramPayload s).length % 16 = 0)
    (hp : stripPad (cbcDecrypt (keyBlock s) b (telegramPayload s)) = p) (hm : markerOf p = true) :
    decodeCommand defaultParams s =
      iterateAndFinish defaultParams (writePt (p.drop 2)
        (setSecStatus .decrypted (setMarker true (writeIv (telegramIv s) (afterFrame s))))) := by
  rw [← hp, ← decryptBytes_afterFrame hb] at hm ⊢
  rw [h.decodeCommand_eq, cipherStage_of_marker _ (by exact hk) hc hm]
  rfl

/-- DECODE of a telegram whose plaintext begins with the marker (R211, R216). -/
theorem EncryptedTelegram.holdsDecrypted {b : Block} {p : List Byte} (hb : IsBlock (telegramIv s) b)
    (hk : s.keyLen = 16#8) (hc : (telegramPayload s).length % 16 = 0)
    (hp : stripPad (cbcDecrypt (keyBlock s) b (telegramPayload s)) = p) (hm : markerOf p = true) :
    HoldsDecrypted s (p.drop 2) (decodeCommand defaultParams s) := by
  have hl : (p.drop 2).length ≤ Config.pPtMax := hp ▸ h.records_length_le b hc
  obtain ⟨hfinished, hstop, hlen, hpt, htable⟩ := iterateAndFinish_writePt defaultParams (p.drop 2)
    (setSecStatus .decrypted (setMarker true (writeIv (telegramIv s) (afterFrame s)))) hl
  rw [h.decodeCommand_of_marker hb hk hc hp hm]
  exact ⟨hfinished, rfl, rfl, ivBytes_writeIv hb (afterFrame s), rfl, hstop, hlen, hpt, htable⟩

end

end Sys2Proof.Machine
end

section
/-! The cipher layer (41_cipher.md): the derived IV, CBC decryption and padding, DECRYPT, and DECODE of unencrypted and
of encrypted telegrams. -/

namespace Sys2Proof.Machine

/-- Settles O24, by the layers of the reference encryption. -/
theorem decryptUndoesReferenceEncrypt : Obligations.DecryptUndoesReferenceEncrypt :=
  stripPad_cbcDecrypt_refEncrypt

/-- Settles O41: the round trip gives the marker, so DECODE iterates the records behind it. -/
theorem correctKeyDecodesTheTelegram : Obligations.CorrectKeyDecodesTheTelegram := by
  unfold Obligations.CorrectKeyDecodesTheTelegram
  intro s ivb records F f hn hv he hk hb hC
  have h : EncryptedTelegram s := ⟨hn, hv, he⟩
  replace hC : telegramPayload s = refEncrypt (keyBlock s) ivb (0x2F#8 :: 0x2F#8 :: records) := hC
  have hP : stripPad (cbcDecrypt (keyBlock s) ivb (telegramPayload s)) = 0x2F#8 :: 0x2F#8 :: records := by
    rw [hC, stripPad_cbcDecrypt_refEncrypt]
  have hc : (telegramPayload s).length % 16 = 0 := by rw [hC, refEncrypt_length_mod]
  have ht := h.holdsDecrypted hb hk hc hP ((markerOf_iff _).2 ⟨records, rfl⟩)
  exact ⟨decodeCommand defaultParams s, rfl, ht.secStatus, ht.marker, ht.pt, ht.table⟩

/-- Settles O13, word by word of the IV. -/
theorem deriveIvWritesTheIvLayout : Obligations.DeriveIvWritesTheIvLayout := by
  unfold Obligations.DeriveIvWritesTheIvLayout
  refine ⟨rfl, fun s => ⟨deriveIvCommand s, rfl, ?_⟩⟩
  obtain ⟨b, hb⟩ := exists_isBlock_deriveIv s.ivinM s.ivinA s.ivinAcc s.ivinFc
  rw [deriveIvCommand_eq]
  exact ⟨⟨rfl, rfl, rfl, rfl⟩, wordOfBytes_m_a _ _, wordOfBytes_a_acc_fc _ _ _, wordOfBytes_low _, wordOfBytes_zero,
    ivBytes_writeIv hb s, rfl, ⟨rfl, rfl, rfl, rfl, rfl, rfl⟩, (sameInputs_writeIv _ s).trans (sameInputs_finish _ _ _)⟩

/-- Settles O14: each input is read back from its own bytes. -/
theorem deriveIvIsInjective : Obligations.DeriveIvIsInjective := by
  unfold Obligations.DeriveIvIsInjective
  intro m m' a a' acc acc' fc fc' h
  simp only [deriveIv, wordBytes, List.cons_append, List.nil_append, List.cons.injEq] at h
  obtain ⟨hm0, hm1, ha0, ha1, ha2, ha3, hacc, hfc0, hfc1, -⟩ := h
  refine ⟨?_, wordBytes_injective ?_, hacc, ?_⟩
  · rw [← bytes_append m, hm0, hm1, bytes_append]
  · rw [wordBytes, ha0, ha1, ha2, ha3, wordBytes]
  · rw [← bytes_append fc, hfc0, hfc1, bytes_append]

/-- Settles O22: the blocks of the result are the chained blocks. -/
theorem cbcDecryptionBlockByBlock : Obligations.CbcDecryptionBlockByBlock := by
  unfold Obligations.CbcDecryptionBlockByBlock
  intro key iv cs
  simp only [cbcDecrypt_flatMap, blocksOf_flatMap]
  refine ⟨by rw [flatMap_blockBytes_length, cbcBlocks_length], cbcBlocks_length key iv cs, fun j h => ?_⟩
  rw [cbcBlocks_getElem? key iv cs h]
  cases j with
  | zero => rfl
  | succ j => rw [if_neg (Nat.succ_ne_zero j), Nat.add_sub_cancel, List.getElem_cons_succ, List.getD_eq_getElem]

/-- Settles O25, by the four forms DECRYPT takes. -/
theorem decryptLeavesTheStrippedPlaintext : Obligations.DecryptLeavesTheStrippedPlaintext := by
  unfold Obligations.DecryptLeavesTheStrippedPlaintext
  refine ⟨rfl, fun s => ?_⟩
  obtain ⟨hsec, hstop, hcount⟩ := decryptCommand_keeps_cleared s
  obtain ⟨hinfo, hiv⟩ := decryptCommand_keeps_info_iv s
  refine ⟨decryptCommand s, rfl, hsec, hstop, hcount, hiv, hinfo, fun hn => ?tooLong, fun hn hk => ?badKey,
    fun hn hk hm => ?badLength, fun hn hk hm => ?ok⟩
  case tooLong =>
    rw [decryptCommand_of_tooLong hn]
    exact ⟨⟨rfl, rfl, rfl, rfl⟩, noResults_finish_clearResults (by decide) s _ _, rfl⟩
  case badKey =>
    rw [decryptCommand_of_badKey hn hk]
    exact ⟨⟨rfl, rfl, rfl, rfl⟩, noResults_finish_clearResults (by decide) s _ _, rfl⟩
  case badLength =>
    rw [decryptCommand_of_badLength hn hk hm]
    exact ⟨⟨rfl, rfl, rfl, rfl⟩, noResults_finish_clearResults (by decide) s _ _, rfl⟩
  case ok =>
    have hl : (decryptBytes s (frameBytes s)).length ≤ Config.pPtMax :=
      (decryptBytes_length_le s (by rwa [frameBytes_length])).trans ((frameBytes_length s).trans_le hn)
    rw [decryptCommand_of_ok hn hk hm]
    exact ⟨⟨rfl, rfl, rfl, rfl⟩, writePt_toNat_ptLen _ (clearResults .cipher s) hl,
      ptBytes_of_writePt hl rfl fun _ _ _ => rfl, markerOf_iff _⟩

/-- Settles O39, by the forms DECODE takes before the cipher stage. -/
theorem decodeOfUnencryptedTelegrams : Obligations.DecodeOfUnencryptedTelegrams := by
  unfold Obligations.DecodeOfUnencryptedTelegrams
  intro s
  refine ⟨decodeCommand defaultParams s, rfl, fun hn => ?tooLong, fun hn => ?malformed, fun hn hv => ?truncated,
    fun hn hv he => ?unencrypted⟩
  case tooLong =>
    rw [decodeCommand_of_tooLong _ hn]
    exact ⟨⟨rfl, rfl, rfl, rfl⟩, rfl, noResults_finish_clearResults (by decide) s _ _, ⟨rfl, rfl, rfl, rfl⟩, rfl, rfl,
      rfl⟩
  case malformed =>
    rw [decodeCommand_of_malformed _ hn]
    exact ⟨⟨rfl, rfl, rfl, rfl⟩, rfl, noResults_finish_clearResults (by decide) s _ _, ⟨rfl, rfl, rfl, rfl⟩, rfl, rfl,
      rfl⟩
  case truncated =>
    rw [decodeCommand_of_truncated _ hn hv]
    exact ⟨⟨rfl, rfl, rfl, rfl⟩, rfl, (noResults_afterFrame s).congr rfl rfl rfl, ⟨rfl, rfl, rfl, rfl⟩,
      frameSecStatus_of_truncated hv, rfl, rfl⟩
  case unencrypted =>
    obtain ⟨hfinished, hstop, hlen, hpt, htable⟩ :=
      iterateAndFinish_writePt defaultParams _ (afterFrame s) (telegramPayload_length_le hn)
    obtain ⟨hinfo, hsec, hmarker, hiv⟩ :=
      iterateAndFinish_writePt_keeps defaultParams (telegramPayload s) (afterFrame s)
    have hdecode : decodeCommand defaultParams s =
        iterateAndFinish defaultParams (writePt (telegramPayload s) (afterFrame s)) :=
      decodeCommand_of_unencrypted _ hn hv he
    rw [hdecode]
    exact ⟨hfinished, hinfo, hiv, hsec, hmarker, hstop, hlen, hpt, htable⟩

/-- Settles O40, by the five forms the cipher stage gives DECODE. -/
theorem decodeOfEncryptedTelegrams : Obligations.DecodeOfEncryptedTelegrams := by
  unfold Obligations.DecodeOfEncryptedTelegrams
  intro s F f C iv hn hv he ivb hb P it
  have h : EncryptedTelegram s := ⟨hn, hv, he⟩
  have hnone := noResults_afterFrame s
  have hiv := ivBytes_writeIv hb (afterFrame s)
  refine ⟨decodeCommand defaultParams s, rfl, fun hk => ?noKey, fun h0 hk => ?badKey, fun hk hc => ?badLength,
    fun hk hc hm => ?noMarker, fun hk hc hm => ?marker⟩
  case noKey =>
    rw [h.decodeCommand_of_noKey hk]
    exact ⟨⟨rfl, rfl, rfl, rfl⟩, rfl, rfl, hnone.congr rfl rfl rfl, ⟨rfl, rfl, rfl, rfl⟩, rfl, rfl⟩
  case badKey =>
    rw [h.decodeCommand_of_badKey h0 hk]
    exact ⟨⟨rfl, rfl, rfl, rfl⟩, rfl, rfl, noResults_finish_clearResults (by decide) (afterFrame s) _ _,
      ⟨rfl, rfl, rfl, rfl⟩, rfl, rfl⟩
  case badLength =>
    rw [h.decodeCommand_of_badLength hk hc]
    exact ⟨⟨rfl, rfl, rfl, rfl⟩, rfl, rfl, hnone.congr rfl rfl rfl, hiv, rfl, rfl⟩
  case noMarker =>
    rw [h.decodeCommand_of_noMarker hb hk hc (Bool.eq_false_iff.2 (mt (markerOf_iff _).1 hm))]
    exact ⟨⟨rfl, rfl, rfl, rfl⟩, rfl, rfl, hnone.congr rfl rfl rfl, hiv, rfl, rfl⟩
  case marker =>
    obtain ⟨hfinished, hsec, hinfo, hiv, hmarker, hstop, hlen, hpt, htable⟩ :=
      h.holdsDecrypted hb hk hc rfl ((markerOf_iff _).2 hm)
    exact ⟨hfinished, hsec, hinfo, hiv, hmarker, hstop, hlen, hpt, htable⟩

/-- Settles O15, by the build and TPL_KIND. -/
theorem ivForDecodeByTheBuild : Obligations.IvForDecodeByTheBuild := by
  unfold Obligations.IvForDecodeByTheBuild
  refine fun P f => ⟨fun hP hf => by rw [ivForDecode, hP, hf], fun h => ?_, rfl⟩
  cases hP : P.ivFields with
  | dll => rw [ivForDecode, hP]
  | tplIfLong =>
    have hf : f.tplKind ≠ .long := h.resolve_left (by rw [hP]; decide)
    cases hk : f.tplKind with
    | long => exact absurd hk hf
    | short => rw [ivForDecode, hP, hk]
    | none => rw [ivForDecode, hP, hk]

/-- Settles O23, by the last byte. -/
theorem stripPadByTheLastByte : Obligations.StripPadByTheLastByte := by
  unfold Obligations.StripPadByTheLastByte
  refine ⟨rfl, fun p k => ⟨fun h => ?_, fun h => ?_⟩⟩
  · rw [stripPad_append_singleton, if_pos h]
  · rw [stripPad_append_singleton, if_neg (by omega)]

end Sys2Proof.Machine
end

section
/-! The AES-128 tables and key schedule (42_aes128.md): the S-box read back through its affine map (R243), and the words
of the round keys (R245). -/

namespace Sys2Proof.Machine

/-! ### The S-box and its affine map -/

/-- The affine map of R243, from the inverse `b` to the table entry. -/
def sboxAffine (b : Byte) : Byte :=
  b ^^^ b.rotateLeft 1 ^^^ b.rotateLeft 2 ^^^ b.rotateLeft 3 ^^^ b.rotateLeft 4 ^^^ 0x63#8

/-- The affine map backwards, from the table entry to the inverse: the rotations by 1, 3 and 6 undo its linear part. -/
def sboxAffineInv (y : Byte) : Byte :=
  y.rotateLeft 1 ^^^ y.rotateLeft 3 ^^^ y.rotateLeft 6 ^^^ 0x05#8

theorem sboxAffine_sboxAffineInv (y : Byte) : sboxAffine (sboxAffineInv y) = y := by
  decide +kernel +revert

/-- What the affine map has left of the table entry is the field inverse (R243), entry by entry. -/
theorem gmul_sboxAffineInv_sbox {x : Byte} (hx : x ≠ 0x00#8) : gmul x (sboxAffineInv (sbox x)) = 0x01#8 := by
  decide +kernel +revert

/-- `0^-1 = 0` (R243). -/
theorem sboxAffineInv_sbox_zero : sboxAffineInv (sbox 0x00#8) = 0x00#8 := by decide

/-! ### The words of the round keys -/

/-- Words 4r to 4r+3 are the columns of round key r (R245). -/
theorem expandedWord_of_roundKey (key : Block) (r : Nat) :
    expandedWord key (4 * r) = (roundKey key r).c0 ∧ expandedWord key (4 * r + 1) = (roundKey key r).c1 ∧
    expandedWord key (4 * r + 2) = (roundKey key r).c2 ∧ expandedWord key (4 * r + 3) = (roundKey key r).c3 := by
  simp [expandedWord, Nat.mul_add_div]

/-- The round constants as the list of R245. -/
theorem rcon_succ {r : Nat} (h : r < 10) :
    rcon (r + 1) = [0x01#8, 0x02#8, 0x04#8, 0x08#8, 0x10#8, 0x20#8, 0x40#8, 0x80#8, 0x1B#8, 0x36#8].getD r 0#8 := by
  decide +revert

/-- R245 where the index is a multiple of 4: RotWord, SubWord and Rcon on the word before. -/
theorem expandedWord_round_start (key : Block) (r : Nat) :
    expandedWord key (4 * (r + 1)) =
      colXor (expandedWord key (4 * r)) (keyCore (r + 1) (expandedWord key (4 * r + 3))) := by
  obtain ⟨h0, -⟩ := expandedWord_of_roundKey key (r + 1)
  obtain ⟨k0, -, -, k3⟩ := expandedWord_of_roundKey key r
  rw [h0, k0, k3, roundKey, nextRoundKey]

/-- R245 at the other indices. -/
theorem expandedWord_round_succ (key : Block) (r : Nat) {j : Nat} (hj : j < 3) :
    expandedWord key (4 * (r + 1) + j + 1) =
      colXor (expandedWord key (4 * r + j + 1)) (expandedWord key (4 * (r + 1) + j)) := by
  obtain ⟨h0, h1, h2, h3⟩ := expandedWord_of_roundKey key (r + 1)
  obtain ⟨-, k1, k2, k3⟩ := expandedWord_of_roundKey key r
  interval_cases j
  · rw [h1, k1, add_zero, h0, roundKey, nextRoundKey]
  · rw [h2, k2, h1, roundKey, nextRoundKey]
  · rw [h3, k3, h2, roundKey, nextRoundKey]

end Sys2Proof.Machine
end

section
/-! AES-128 (42_aes128.md): the S-box, the key expansion and the inverse cipher. -/

namespace Sys2Proof.Machine

/-- Settles O20: a word from 4 on stands in a round key that the one before it gives. -/
theorem keyExpansionWordByWord : Obligations.KeyExpansionWordByWord := by
  unfold Obligations.KeyExpansionWordByWord
  intro key i
  refine ⟨fun h => by rw [h]; rfl, fun h => by rw [h]; rfl, fun h => by rw [h]; rfl, fun h => by rw [h]; rfl,
    fun h4 h44 h0 => ?start, fun h4 h44 h0 => ?succ⟩
  case start =>
    obtain ⟨r, rfl⟩ : ∃ r, i = 4 * (r + 1) := ⟨i / 4 - 1, by omega⟩
    have hr : 4 * (r + 1) / 4 - 1 = r := by omega
    simp only [hr, ← rcon_succ (show r < 10 by omega)]
    exact expandedWord_round_start key r
  case succ =>
    obtain ⟨r, j, hj, rfl⟩ : ∃ r j, j < 3 ∧ i = 4 * (r + 1) + j + 1 := ⟨i / 4 - 1, i % 4 - 1, by omega, by omega⟩
    have hi : 4 * (r + 1) + j + 1 - 4 = 4 * r + j + 1 := by omega
    rw [hi]
    exact expandedWord_round_succ key r hj

/-- Settles O21, by the rounds undone in turn. -/
theorem inverseCipherInvertsCipher : Obligations.InverseCipherInvertsCipher :=
  aesInvCipher_aesCipher

/-- Settles O19: the inverse is read back from the table entry. -/
theorem sboxIsTheAffineInverse : Obligations.SboxIsTheAffineInverse := by
  unfold Obligations.SboxIsTheAffineInverse
  exact fun x => ⟨sboxAffineInv (sbox x), fun hx => hx ▸ sboxAffineInv_sbox_zero, gmul_sboxAffineInv_sbox,
    (sboxAffine_sboxAffineInv (sbox x)).symm⟩

end Sys2Proof.Machine
end

section
/-! The numbers of a record: a byte sequence (R17), the storage, tariff and subunit of a DIFE chain (R288) and a BCD
value (R302) are digit sums, and each fits its field of the slot (R52). -/

namespace Sys2Proof.Machine

/-- A number that fits its field is read back from it. -/
theorem toNat_ofNat_of_lt {w n : Nat} (h : n < 2 ^ w) : (BitVec.ofNat w n).toNat = n := by
  rw [BitVec.toNat_ofNat, Nat.mod_eq_of_lt h]

/-! ### Digit sums -/

/-- A number that takes one digit from each byte, the first lowest. -/
theorem eq_ofDigits_map {f : List Byte → Nat} {B : Nat} {g : Byte → Nat} (hnil : f [] = 0)
    (hcons : ∀ b bs, f (b :: bs) = g b + B * f bs) (bs : List Byte) : f bs = Nat.ofDigits B (bs.map g) := by
  induction bs with
  | nil => exact hnil
  | cons b bs ih => rw [hcons, ih, List.map_cons, Nat.ofDigits_cons]

theorem ofDigits_map_eq_sum (B : Nat) (g : Byte → Nat) (bs : List Byte) :
    Nat.ofDigits B (bs.map g) = ∑ j ∈ Finset.range bs.length, g (bs.getD j 0#8) * B ^ j := by
  induction bs with
  | nil => rfl
  | cons b bs ih =>
    simp only [List.map_cons, Nat.ofDigits_cons, ih, List.length_cons, Finset.sum_range_succ', Finset.mul_sum,
      List.getD_cons_succ, List.getD_cons_zero, pow_zero, mul_one]
    rw [Nat.add_comm]
    exact congrArg (· + g b) (Finset.sum_congr rfl fun j _ => by ring)

theorem ofDigits_map_lt {B : Nat} {g : Byte → Nat} (hB : 1 < B) (hg : ∀ b, g b < B) {bs : List Byte} {n : Nat}
    (hn : bs.length ≤ n) : Nat.ofDigits B (bs.map g) < B ^ n := by
  have h := Nat.ofDigits_lt_base_pow_length (l := bs.map g) hB (List.forall_mem_map.2 fun b _ => hg b)
  rw [List.length_map] at h
  exact h.trans_le (Nat.pow_le_pow_right (by omega) hn)

theorem leNat_lt {bs : List Byte} {n : Nat} (hn : bs.length ≤ n) : leNat bs < 256 ^ n := by
  rw [eq_ofDigits_map (f := leNat) rfl (fun _ _ => rfl) bs]
  exact ofDigits_map_lt (by decide) BitVec.isLt hn

/-! ### The numbers of a DIFE chain -/

theorem difStorage_toNat (dif : Byte) : (difStorage dif).toNat = dif.toNat / 64 % 2 := by
  rw [difStorage, BitVec.extractLsb'_toNat, Nat.shiftRight_eq_div_pow]

theorem difeStorage_toNat (d : Byte) : (difeStorage d).toNat = d.toNat % 16 := by
  rw [difeStorage, BitVec.extractLsb'_toNat, Nat.shiftRight_zero]

theorem difeTariff_toNat (d : Byte) : (difeTariff d).toNat = d.toNat / 16 % 4 := by
  rw [difeTariff, BitVec.extractLsb'_toNat, Nat.shiftRight_eq_div_pow]

theorem difeSubunit_toNat (d : Byte) : (difeSubunit d).toNat = d.toNat / 64 % 2 := by
  rw [difeSubunit, BitVec.extractLsb'_toNat, Nat.shiftRight_eq_div_pow]

theorem difesStorage_eq_ofDigits (ds : List Byte) :
    difesStorage ds = Nat.ofDigits 16 (ds.map fun d => d.toNat % 16) :=
  eq_ofDigits_map rfl (fun d ds => by rw [difesStorage, difeStorage_toNat]) ds

theorem tariffNumber_eq_ofDigits (ds : List Byte) :
    tariffNumber ds = Nat.ofDigits 4 (ds.map fun d => d.toNat / 16 % 4) :=
  eq_ofDigits_map rfl (fun d ds => by rw [tariffNumber, difeTariff_toNat]) ds

theorem subunitNumber_eq_ofDigits (ds : List Byte) :
    subunitNumber ds = Nat.ofDigits 2 (ds.map fun d => d.toNat / 64 % 2) :=
  eq_ofDigits_map rfl (fun d ds => by rw [subunitNumber, difeSubunit_toNat]) ds

theorem storageNumber_eq_sum (dif : Byte) (ds : List Byte) :
    storageNumber dif ds = dif.toNat / 64 % 2 +
      ∑ j ∈ Finset.range ds.length, ((ds.getD j 0#8).toNat % 16) * 2 ^ (1 + 4 * j) := by
  rw [storageNumber, difStorage_toNat, difesStorage_eq_ofDigits, ofDigits_map_eq_sum, Finset.mul_sum]
  refine congrArg (_ + ·) (Finset.sum_congr rfl fun j _ => ?_)
  rw [pow_add, pow_mul, Nat.mul_left_comm]
  rfl

theorem tariffNumber_eq_sum (ds : List Byte) :
    tariffNumber ds = ∑ j ∈ Finset.range ds.length, ((ds.getD j 0#8).toNat / 16 % 4) * 2 ^ (2 * j) := by
  simp only [tariffNumber_eq_ofDigits, ofDigits_map_eq_sum, pow_mul, Nat.reducePow]

theorem subunitNumber_eq_sum (ds : List Byte) :
    subunitNumber ds = ∑ j ∈ Finset.range ds.length, ((ds.getD j 0#8).toNat / 64 % 2) * 2 ^ j := by
  rw [subunitNumber_eq_ofDigits, ofDigits_map_eq_sum]

/-- The numbers of a chain within its limit fit their fields (R52, R284). -/
theorem chainNumbers_lt (dif : Byte) {ds : List Byte} (h : ds.length ≤ 10) :
    storageNumber dif ds < 2 ^ 41 ∧ tariffNumber ds < 2 ^ 20 ∧ subunitNumber ds < 2 ^ 10 := by
  have hs : difesStorage ds < 16 ^ 10 :=
    difesStorage_eq_ofDigits ds ▸ ofDigits_map_lt (by decide) (fun _ => Nat.mod_lt _ (by decide)) h
  have ht : tariffNumber ds < 4 ^ 10 :=
    tariffNumber_eq_ofDigits ds ▸ ofDigits_map_lt (by decide) (fun _ => Nat.mod_lt _ (by decide)) h
  have hu : subunitNumber ds < 2 ^ 10 :=
    subunitNumber_eq_ofDigits ds ▸ ofDigits_map_lt (by decide) (fun _ => Nat.mod_lt _ (by decide)) h
  have hdif := (difStorage dif).isLt
  rw [storageNumber]
  omega

/-! ### BCD -/

theorem bcdNat_eq_sum (R : Nat) (bs : List Byte) :
    bcdNat R bs = ∑ j ∈ Finset.range (2 * bs.length), ((bs.getD (j / 2) 0#8).toNat / 16 ^ (j % 2) % 16) * R ^ j := by
  induction bs with
  | nil => rfl
  | cons b bs ih =>
    have hb : b.toNat / 16 % 16 = b.toNat / 16 := Nat.mod_eq_of_lt (by have := b.isLt; omega)
    have hdiv (j : Nat) : (j + 1 + 1) / 2 = j / 2 + 1 := by omega
    have hmod (j : Nat) : (j + 1 + 1) % 2 = j % 2 := by omega
    have hpow (j x : Nat) : x * R ^ (j + 1 + 1) = R * R * (x * R ^ j) := by ring
    rw [bcdNat, ih, List.length_cons, Nat.mul_succ, Finset.sum_range_succ', Finset.sum_range_succ', Finset.mul_sum]
    simp only [Nat.zero_add, Nat.reduceDiv, Nat.reduceMod, List.getD_cons_zero, List.getD_cons_succ, pow_zero, pow_one,
      Nat.div_one, hb, hdiv, hmod, hpow]
    ring

theorem bcdNat_sixteen (bs : List Byte) : bcdNat 16 bs = leNat bs := by
  induction bs with
  | nil => rfl
  | cons b bs ih =>
    rw [bcdNat, leNat, ih]
    omega

theorem bcdNat_le_leNat {R : Nat} (hR : R ≤ 16) (bs : List Byte) : bcdNat R bs ≤ leNat bs := by
  rw [← bcdNat_sixteen bs]
  induction bs with
  | nil => exact le_refl _
  | cons b bs ih =>
    rw [bcdNat, bcdNat]
    gcongr

theorem radix_le (r : Config.BcdRadix) : radix r ≤ 16 := by cases r <;> decide

end Sys2Proof.Machine
end

section
/-! Value decoding (R300 to R307): what the lines of R300 say of a length, and the decoded value of each kind. -/

namespace Sys2Proof.Machine

open Config (Params DKind VKind)

theorem valueKind_bcd (v : VKind) {len : Nat} (h : len ≠ 0) : valueKind .bcd v len = .bcd := by
  rw [valueKind, if_neg h, if_pos rfl]

/-- An integer has at most 8 bytes (R301). -/
theorem length_le_of_valueKind_int {d : DKind} {v : VKind} {len : Nat} (h : valueKind d v len = .int) : len ≤ 8 := by
  unfold valueKind at h
  split_ifs at h with _ _ _ _ _ _ _ _ hint
  simp only [intLength, List.contains_iff_mem, List.mem_cons, List.not_mem_nil, or_false] at hint
  omega

/-- A real has 4 bytes (R303). -/
theorem length_eq_of_valueKind_real {d : DKind} {v : VKind} {len : Nat} (h : valueKind d v len = .real) : len = 4 := by
  unfold valueKind at h
  split_ifs at h with _ _ _ h4
  exact h4

@[simp] theorem decodeValue_kind (P : Params) (d : DKind) (v : VKind) (b : List Byte) :
    (decodeValue P d v b).kind = valueKind d v b.length := by
  unfold decodeValue
  cases valueKind d v b.length <;> rfl

section
variable (P : Params) {d : DKind} {v : VKind} {b : List Byte}

theorem decodeValue_of_int (h : valueKind d v b.length = .int) : decodeValue P d v b = plainValue .int (leNat b) := by
  rw [decodeValue, h]

theorem decodeValue_of_bcd (h : valueKind d v b.length = .bcd) : decodeValue P d v b =
    { plainValue .bcd (bcdNat (radix P.bcdRadix) b) with vexp10 := 0xFD#8 } := by
  rw [decodeValue, h]

theorem decodeValue_of_real (h : valueKind d v b.length = .real) :
    decodeValue P d v b = plainValue .real (leNat b) := by
  rw [decodeValue, h]

theorem decodeValue_of_date (h : valueKind d v b.length = .date) :
    decodeValue P d v b =
      { plainValue .date 0 with
        day := (dateG P.dateLayout (byteAt b 0) (byteAt b 1)).1
        month := (dateG P.dateLayout (byteAt b 0) (byteAt b 1)).2.1
        year := (dateG P.dateLayout (byteAt b 0) (byteAt b 1)).2.2 } := by
  rw [decodeValue, h]

theorem decodeValue_of_datetime (h : valueKind d v b.length = .datetime) :
    decodeValue P d v b =
      { plainValue .datetime 0 with
        day := (dateG P.dateLayout (byteAt b 2) (byteAt b 3)).1
        month := (dateG P.dateLayout (byteAt b 2) (byteAt b 3)).2.1
        year := (dateG P.dateLayout (byteAt b 2) (byteAt b 3)).2.2
        minute := (byteAt b 0).extractLsb' 0 6
        hour := (byteAt b 1).extractLsb' 0 5 } := by
  rw [decodeValue, h]

end

theorem fillSlot_kind (P : Params) (start : Nat) (dif : Byte) (difes : List Byte) (vif : Byte) (vifes : List Byte)
    (lvar : Bool) (dataOff : Nat) (data : List Byte) :
    (fillSlot P start dif difes vif vifes lvar dataOff data).kind =
      valueKind (P.difTable (difDataField dif)).dkind (P.vifTable (vifIndex vif)).vkind data.length :=
  decodeValue_kind P _ _ data

theorem plainValue_val_toNat (k : ValueKind) {n : Nat} (h : n < 2 ^ 64) : (plainValue k n).val.toNat = n :=
  toNat_ofNat_of_lt h

/-- A BCD value of at most 8 bytes fits VAL (R302). -/
theorem bcdNat_radix_lt (r : Config.BcdRadix) {b : List Byte} (h : b.length ≤ 8) : bcdNat (radix r) b < 2 ^ 64 :=
  (bcdNat_le_leNat (radix_le r) b).trans_lt (leNat_lt h)

end Sys2Proof.Machine
end

section
/-! The values of a record (R300 to R307), the fields of its slot (R288, R289) and the default tables (R285 to R287). -/

namespace Sys2Proof.Machine

/-- Settles O32, by the lines of R300 in order. -/
theorem valueKindByTheFirstMatchingLine : Obligations.ValueKindByTheFirstMatchingLine := by
  unfold Obligations.ValueKindByTheFirstMatchingLine
  intro d v len
  refine ⟨fun h0 => ?none, fun h0 hd => hd ▸ valueKind_bcd v h0, fun h0 hd => ?real, fun h0 hb hr hv => ?date,
    fun h0 hb hr hv => ?datetime, fun hb hr hv hl => ?int, fun h0 hb hr hv hl => ?raw⟩
  case none => rw [valueKind, if_pos h0]
  case real => rw [valueKind, if_neg h0, hd, if_neg (by decide), if_pos rfl]
  case date => rw [valueKind, if_neg h0, if_neg hb, if_neg hr, if_pos hv]
  case datetime => rw [valueKind, if_neg h0, if_neg hb, if_neg hr, hv, if_neg (by decide), if_pos rfl]
  case int =>
    have h0 : len ≠ 0 := fun h => absurd (h ▸ hl) (by decide)
    rw [valueKind, if_neg h0, if_neg hb, if_neg hr, hv, if_neg (by decide), if_neg (by decide),
      if_pos (by simpa [intLength] using hl)]
  case raw =>
    rw [valueKind, if_neg h0, if_neg hb, if_neg hr, hv, if_neg (by decide), if_neg (by decide),
      if_neg (by simpa [intLength] using hl)]

/-- Settles O33, by the decoded value of each kind. -/
theorem decodedValueByKind : Obligations.DecodedValueByKind := by
  unfold Obligations.DecodedValueByKind
  intro P d v b x k
  have hkind : x.kind = k := decodeValue_kind P d v b
  obtain ⟨hval, hvexp, htime, hdate⟩ := decodeValue_zero_fields P d v b
  refine ⟨hkind, fun hk => hvexp (hkind ▸ hk), fun hk => ?int, fun hk => ?real, fun hk => ?date, fun hk => ?datetime,
    fun hk => ?noValue, fun h1 h2 => ?noDate⟩
  case int =>
    have hlt : leNat b < 2 ^ 64 := leNat_lt (length_le_of_valueKind_int hk)
    rw [show x = plainValue .int (leNat b) from decodeValue_of_int P hk, plainValue_val_toNat _ hlt]
  case real =>
    have hlt : leNat b < 2 ^ 32 := leNat_lt (length_eq_of_valueKind_real hk).le
    rw [show x = plainValue .real (leNat b) from decodeValue_of_real P hk, plainValue_val_toNat _ (by omega)]
    exact ⟨rfl, hlt⟩
  case date =>
    rw [show x = _ from decodeValue_of_date P hk]
    exact ⟨rfl, rfl, rfl, rfl⟩
  case datetime =>
    rw [show x = _ from decodeValue_of_datetime P hk]
    exact ⟨BitVec.extractLsb'_toNat _ _ _, BitVec.extractLsb'_toNat _ _ _, rfl, rfl⟩
  case noValue =>
    refine hval ?_ ?_ ?_ <;>
      · rw [hkind]
        rcases hk with hk | hk <;> rw [hk] <;> decide
  case noDate =>
    obtain ⟨hday, hmonth, hyear⟩ := hdate (hkind ▸ h1) (hkind ▸ h2)
    obtain ⟨hminute, hhour⟩ := htime (hkind ▸ h2)
    exact ⟨hday, hmonth, hyear, hminute, hhour⟩

/-- Settles O34: the value is a digit sum that fits VAL. -/
theorem bcdValueIsTheNibbleSum : Obligations.BcdValueIsTheNibbleSum := by
  unfold Obligations.BcdValueIsTheNibbleSum
  intro P v b hne hlen x
  have hk : valueKind .bcd v b.length = .bcd := valueKind_bcd v (mt List.length_eq_zero_iff.1 hne)
  have hx : x = { plainValue .bcd (bcdNat (radix P.bcdRadix) b) with vexp10 := 0xFD#8 } := decodeValue_of_bcd P hk
  have hval : x.val.toNat = bcdNat (radix P.bcdRadix) b := by
    rw [hx]
    exact plainValue_val_toNat .bcd (bcdNat_radix_lt P.bcdRadix hlen)
  rw [hval, hx]
  refine ⟨rfl, rfl, bcdNat_eq_sum _ b, fun hr => ?_, fun hr => by rw [hr]; rfl, rfl⟩
  rw [hr]
  exact bcdNat_sixteen b

/-- Settles O35: the fields of both layouts as numbers. -/
theorem dateFieldsByLayout : Obligations.DateFieldsByLayout := by
  unfold Obligations.DateFieldsByLayout
  intro b0 b1
  have h0 := b0.isLt
  have h1 := b1.isLt
  have hhigh : b0.toNat / 32 % 8 = b0.toNat / 32 := Nat.mod_eq_of_lt (by omega)
  refine ⟨fun d m y h => ?doc, fun d m y h => ?en13757⟩
  case doc =>
    obtain ⟨rfl, rfl, rfl⟩ := h
    refine ⟨BitVec.extractLsb'_toNat _ _ _, ?_, ?_⟩
    · rw [BitVec.toNat_or, BitVec.toNat_setWidth_of_le (by decide), BitVec.extractLsb'_toNat, BitVec.extractLsb'_toNat,
        Nat.shiftRight_zero, Nat.shiftRight_eq_div_pow, hhigh]
    · rw [BitVec.toNat_ofNat, BitVec.extractLsb'_toNat, Nat.shiftRight_eq_div_pow]
      omega
  case en13757 =>
    obtain ⟨rfl, rfl, rfl⟩ := h
    simp only [BitVec.extractLsb'_toNat, BitVec.toNat_ofNat, Nat.shiftRight_eq_div_pow]
    omega

/-- Settles O36: the numbers of the chain and the given offsets and length fit their fields. -/
theorem fillSlotFields : Obligations.FillSlotFields := by
  unfold Obligations.FillSlotFields
  intro P start off dif vif difes vifes data lvar hdifes hstart hoff hdata r entry x
  obtain ⟨hstorage, htariff, hsubunit⟩ := chainNumbers_lt dif hdifes
  obtain ⟨hval, hvexp, htime, hdate⟩ :=
    decodeValue_zero_fields P (P.difTable (dif.extractLsb' 0 4)).dkind entry.vkind data
  have hkind : r.kind = valueKind (P.difTable (dif.extractLsb' 0 4)).dkind entry.vkind data.length :=
    fillSlot_kind ..
  have hvexp10 : r.vexp10 = if r.kind = .bcd then 0xFD#8 else 0x00#8 := by
    split_ifs with h
    · exact congrArg DecodedValue.vexp10 (decodeValue_of_bcd P (hkind ▸ h))
    · exact hvexp h
  exact ⟨difFunc_toNat dif, (toNat_ofNat_of_lt hstorage).trans (storageNumber_eq_sum dif difes),
    (toNat_ofNat_of_lt htariff).trans (tariffNumber_eq_sum difes),
    (toNat_ofNat_of_lt hsubunit).trans (subunitNumber_eq_sum difes), rfl, rfl, rfl, rfl, rfl,
    toNat_ofNat_of_lt hstart, toNat_ofNat_of_lt hoff, toNat_ofNat_of_lt hdata, rfl, rfl, hkind, rfl,
    hvexp10, rfl, hval, htime, hdate⟩

/-- Settles O38, row by row. -/
theorem defaultTablesHoldTheirRows : Obligations.DefaultTablesHoldTheirRows := by
  unfold Obligations.DefaultTablesHoldTheirRows
  refine ⟨⟨rfl, rfl⟩, ?difRows, ?n, ?nn, ?durations, ?single, ?wellFormed, ?bounds⟩
  case difRows => decide
  case n => decide
  case nn => decide
  case durations => decide
  case single => decide
  case wellFormed => decide
  case bounds => decide

end Sys2Proof.Machine
end

section
/-! The walk (R271): a chain that ends, one that the payload's end cuts and one that is too long (R284), then one trip
of the loop on a record of each form, and where the slots of a payload lie (R280, R281). -/

namespace Sys2Proof.Machine

open Config (Params)

/-! ### Chains (R284) -/

section
variable {limit : Nat} {u o : RecStop} {chain ds : List Byte}

theorem readChain_of_chainEnds {b : Byte} (h : ChainEnds b ds) (hl : chain.length + ds.length ≤ limit)
    (rest : List Byte) : readChain limit u o (extBit b) chain (ds ++ rest) = .ok (chain ++ ds, rest) := by
  induction ds generalizing b chain with
  | nil => rw [show extBit b = false from h, List.append_nil, List.nil_append, readChain]
  | cons d ds ih =>
    obtain ⟨hb, hds⟩ := h
    rw [List.length_cons] at hl
    rw [hb, List.cons_append, readChain, if_neg (by omega), ih hds (by simp; omega), List.append_assoc,
      List.singleton_append]

theorem readChain_of_cut (h : ∀ d ∈ ds, extBit d = true) (hl : chain.length + ds.length ≤ limit) :
    readChain limit u o true chain ds = .error u := by
  induction ds generalizing chain with
  | nil => rw [readChain]
  | cons d ds ih =>
    obtain ⟨hd, hds⟩ := List.forall_mem_cons.1 h
    rw [List.length_cons] at hl
    rw [readChain, if_neg (by omega), hd, ih hds (by simp; omega)]

theorem readChain_of_tooLong (h : ∀ d ∈ ds, extBit d = true) (hl : chain.length + ds.length = limit) (x : Byte)
    (rest : List Byte) : readChain limit u o true chain (ds ++ x :: rest) = .error o := by
  induction ds generalizing chain with
  | nil => exact if_pos hl
  | cons d ds ih =>
    obtain ⟨hd, hds⟩ := List.forall_mem_cons.1 h
    rw [List.length_cons] at hl
    rw [List.cons_append, readChain, if_neg (by omega), hd, ih hds (by simp; omega)]

end

/-! ### The trip on an ordinary record -/

section
variable {P : Params} {n : Nat} {dif vif : Byte} {difes vifes rest : List Byte}

/-- Whether the chain of an ordinary DIF ends decides its trip (R271, R283). -/
theorem readRecord_of_ordinary (hdif : OrdinaryDif P dif) (hne : rest ≠ []) :
    let chain := readChain Config.pMaxDife .difeUnterminated .difeOverflow (extBit dif) [] rest
    (∀ r, chain = .error r → readRecord P n (dif :: rest) = .stop r) ∧
    ∀ difes after, chain = .ok (difes, after) →
      readRecord P n (dif :: rest) = readVif P n (n - (dif :: rest).length) dif difes after := by
  cases rest with
  | nil => exact absurd rfl hne
  | cons next rest =>
    have hfiller : ¬ (P.specialDif = .en13757 ∧ dif = 0x2F#8) := fun ⟨hP, h⟩ => (hdif hP).1 h
    have hstop : ¬ (P.specialDif = .en13757 ∧ (dif = 0x0F#8 ∨ dif = 0x1F#8)) := by
      rintro ⟨hP, h⟩
      obtain ⟨-, h0F, h1F⟩ := hdif hP
      exact h.elim h0F h1F
    rw [readRecord, if_neg hfiller, if_neg hstop]
    exact ⟨fun r h => by simp [h], fun difes after h => by simp [h]⟩

theorem readRecord_of_difes (hdif : OrdinaryDif P dif) (hends : ChainEnds dif difes) (hlen : difes.length ≤ 10)
    (hne : difes ++ rest ≠ []) :
    readRecord P n (dif :: (difes ++ rest)) = readVif P n (n - (dif :: (difes ++ rest)).length) dif difes rest :=
  (readRecord_of_ordinary hdif hne).2 difes rest
    (readChain_of_chainEnds hends ((Nat.zero_add _).trans_le hlen) rest)

theorem readVif_of_vifeError {start : Nat} {r : RecStop}
    (h : readChain Config.pMaxVife .vifeUnterminated .vifeOverflow (extBit vif) [] rest = .error r) :
    readVif P n start dif difes (vif :: rest) = .stop r := by
  rw [readVif, h]

theorem readVif_of_vifes {start : Nat} (hends : ChainEnds vif vifes) (hlen : vifes.length ≤ 10) :
    readVif P n start dif difes (vif :: (vifes ++ rest)) = readData P n start dif difes vif vifes rest := by
  rw [readVif, readChain_of_chainEnds hends ((Nat.zero_add _).trans_le hlen), List.nil_append]

/-- Both chains of a record end: what is left is its data. -/
theorem readRecord_of_header (hdif : OrdinaryDif P dif) (hdifes : ChainEnds dif difes) (hdl : difes.length ≤ 10)
    (hvifes : ChainEnds vif vifes) (hvl : vifes.length ≤ 10) :
    let p := dif :: (difes ++ vif :: (vifes ++ rest))
    readRecord P n p = readData P n (n - p.length) dif difes vif vifes rest := by
  intro p
  rw [readRecord_of_difes hdif hdifes hdl (List.append_ne_nil_of_right_ne_nil _ (List.cons_ne_nil _ _)),
    readVif_of_vifes hvifes hvl]

end

section
variable {P : Params} {n start : Nat} {dif vif : Byte} {difes vifes rest after : List Byte} {len : Nat} {lvar : Bool}

theorem readLength_of_fixed {l : Config.DataLen} (h : l = .fixed len) (rest : List Byte) :
    readLength l rest = some (len, false, rest) := by
  rw [h, readLength]

theorem readLength_of_var {l : Config.DataLen} (h : l = .var) (b : Byte) (rest : List Byte) :
    readLength l (b :: rest) = some (b.toNat, true, rest) := by
  rw [h, readLength]

theorem readData_of_noLengthByte (h : (P.difTable (difDataField dif)).len = .var) :
    readData P n start dif difes vif vifes [] = .stop .dataTruncated := by
  rw [readData, h, readLength]

theorem readData_of_cut (h : readLength (P.difTable (difDataField dif)).len rest = some (len, lvar, after))
    (hcut : after.length < len) : readData P n start dif difes vif vifes rest = .stop .dataTruncated := by
  rw [readData, h]
  exact if_pos hcut

theorem readData_of_whole {data : List Byte}
    (h : readLength (P.difTable (difDataField dif)).len rest = some (data.length, lvar, data ++ after)) :
    readData P n start dif difes vif vifes rest =
      .record (fillSlot P start dif difes vif vifes lvar (n - (data ++ after).length) data) after := by
  rw [readData, h]
  simp

end

/-- A record whose chains and data are whole is read as its slot (R271, R289). -/
theorem readRecord_of_whole {P : Params} {n : Nat} {dif vif : Byte} {difes vifes rest data after : List Byte}
    {lvar : Bool} (hdif : OrdinaryDif P dif) (hdifes : ChainEnds dif difes) (hdl : difes.length ≤ 10)
    (hvifes : ChainEnds vif vifes) (hvl : vifes.length ≤ 10)
    (hlen : readLength (P.difTable (difDataField dif)).len rest = some (data.length, lvar, data ++ after)) :
    let p := dif :: (difes ++ vif :: (vifes ++ rest))
    readRecord P n p =
      .record (fillSlot P (n - p.length) dif difes vif vifes lvar (n - (data ++ after).length) data) after :=
  (readRecord_of_header hdif hdifes hdl hvifes hvl).trans (readData_of_whole hlen)

/-! ### The trip on a DIF that the build treats specially (R283) -/

section
variable {P : Params} (hP : P.specialDif = .en13757) (n : Nat) (next : Byte) (rest : List Byte)
include hP

theorem readRecord_of_fillerDif : readRecord P n (0x2F#8 :: next :: rest) = .filler (next :: rest) := by
  rw [readRecord, if_pos ⟨hP, rfl⟩]

theorem readRecord_of_stopDif {dif : Byte} (hdif : dif = 0x0F#8 ∨ dif = 0x1F#8) :
    readRecord P n (dif :: next :: rest) = .stop .specialStop := by
  have hfiller : dif ≠ 0x2F#8 := by rcases hdif with rfl | rfl <;> decide
  rw [readRecord, if_neg fun h => hfiller h.2, if_pos ⟨hP, hdif⟩]

end

/-! ### The loop by its one trip (R271) -/

section
variable {P : Params} {n : Nat} {p p' : List Byte}

theorem iterateFrom_of_stop {r : RecStop} (h : readRecord P n p = .stop r) :
    iterateFrom P n p.length p = ([], r) := by
  rw [iterateFrom_unfold, h]

theorem iterateFrom_of_filler (h : readRecord P n p = .filler p') :
    iterateFrom P n p.length p = iterateFrom P n p'.length p' := by
  rw [iterateFrom_unfold, h]

theorem iterateFrom_of_record {slot : RecordSlot} (h : readRecord P n p = .record slot p') :
    iterateFrom P n p.length p = (slot :: (iterateFrom P n p'.length p').1, (iterateFrom P n p'.length p').2) := by
  rw [iterateFrom_unfold, h]

end

/-- Filler alone is walked to its end (R272). -/
theorem iterateFrom_filler {P : Params} (hP : P.specialDif = .en13757) (n : Nat) {p : List Byte}
    (h : ∀ b ∈ p, b = 0x2F#8) : iterateFrom P n p.length p = ([], .exhausted) := by
  induction p with
  | nil => rfl
  | cons b p ih =>
    obtain ⟨rfl, hp⟩ := List.forall_mem_cons.1 h
    cases p with
    | nil => rfl
    | cons next p => rw [iterateFrom_of_filler (readRecord_of_fillerDif hP n next p), ih hp]

/-! ### Where the slots of a payload lie (R280, R281) -/

theorem difEntryWellFormed_of_params {P : Params} (hP : ParamsWellFormed P = true) (field : BitVec 4) :
    DifEntryWellFormed (P.difTable field) = true := by
  have hall := List.all_eq_true.1 (Bool.and_eq_true_iff.1 hP).1 field.toNat (List.mem_range.2 field.isLt)
  rwa [BitVec.ofNat_toNat, BitVec.setWidth_eq] at hall

theorem fixed_len_le {e : Config.DifEntry} (he : DifEntryWellFormed e = true) {m : Nat} (hm : e.len = .fixed m) :
    m ≤ 255 := by
  obtain ⟨dkind, len⟩ := e
  obtain rfl : len = .fixed m := hm
  cases dkind <;> simp [DifEntryWellFormed] at he <;> omega

/-- The data length of a record fits DATA_LEN (R52, R285, R290). -/
theorem readLength_lt {P : Params} (hP : ParamsWellFormed P = true) {field : BitVec 4} {tail after : List Byte}
    {len : Nat} {lvar : Bool} (h : readLength (P.difTable field).len tail = some (len, lvar, after)) : len < 256 := by
  rcases readLength_some h with ⟨hfixed, -, -⟩ | ⟨b, -, -, -, rfl⟩
  · exact Nat.lt_succ_of_le (fixed_len_le (difEntryWellFormed_of_params hP field) hfixed)
  · exact b.isLt

section
variable {P : Params} (hP : ParamsWellFormed P = true) {n : Nat} (hn : n ≤ 256)
include hP hn

/-- A record starts at the read index, and its data, after DIF and VIF, ends at the next read index. -/
theorem readRecord_record_span {rest after : List Byte} {slot : RecordSlot} (hrest : rest.length ≤ n)
    (h : readRecord P n rest = .record slot after) :
    slot.recOff.toNat = n - rest.length ∧ slot.recOff.toNat + 2 ≤ slot.dataOff.toNat ∧
      slot.dataOff.toNat + slot.dataLen.toNat = n - after.length := by
  obtain ⟨dif, difes, vif, vifes, tail, len, lvar, data, hsplit, -, -, hlen, hle, htail, rfl, rfl⟩ :=
    readRecord_record h
  have hlt := readLength_lt hP hlen
  have hlength : rest.length = difes.length + vifes.length + tail.length + 2 := by
    rw [hsplit]
    simp only [List.length_cons, List.length_append]
    omega
  simp only [fillSlot, BitVec.toNat_ofNat, List.length_take, List.length_drop]
  omega

theorem iterateFrom_span (fuel : Nat) {rest : List Byte} (hrest : rest.length ≤ n) :
    let slots := (iterateFrom P n fuel rest).1
    (∀ r ∈ slots, n - rest.length ≤ r.recOff.toNat ∧ r.recOff.toNat + 2 ≤ r.dataOff.toNat ∧
      r.dataOff.toNat + r.dataLen.toNat ≤ n) ∧
    slots.Pairwise (fun r r' => r.dataOff.toNat + r.dataLen.toNat ≤ r'.recOff.toNat) := by
  induction fuel generalizing rest with
  | zero => exact ⟨fun r hr => absurd hr List.not_mem_nil, List.Pairwise.nil⟩
  | succ fuel ih =>
    simp only [iterateFrom]
    cases hr : readRecord P n rest with
    | stop e => exact ⟨fun r hr => absurd hr List.not_mem_nil, List.Pairwise.nil⟩
    | filler after =>
      obtain ⟨rfl, -⟩ := readRecord_filler hr
      rw [List.length_cons] at hrest
      obtain ⟨hspan, hpair⟩ := ih (rest := after) (by omega)
      refine ⟨fun r hr => (hspan r hr).imp_left fun h => ?_, hpair⟩
      rw [List.length_cons]
      omega
    | record slot after =>
      have hlen := readRecord_record_length hr
      obtain ⟨hstart, hdata, hend⟩ := readRecord_record_span hP hn hrest hr
      obtain ⟨hspan, hpair⟩ := ih (rest := after) (by omega)
      refine ⟨List.forall_mem_cons.2 ⟨by omega, fun r hr => ?_⟩, List.pairwise_cons.2 ⟨fun r hr => ?_, hpair⟩⟩
      · obtain ⟨hfrom, hspan⟩ := hspan r hr
        exact ⟨by omega, hspan⟩
      · exact hend.trans_le (hspan r hr).1

end

end Sys2Proof.Machine
end

section
/-! The record iterator (43_records.md R270 to R296): ITERATE, the stop reasons, and the walk trip by trip. -/

namespace Sys2Proof.Machine

/-- ITERATE has no cipher stage: SEC_STATUS and MARKER stay as its Prologue clears them (R295, R343). -/
theorem iterateCommand_keeps_cleared (P : Config.Params) (s : State) :
    (iterateCommand P s).status.secStatus = .none ∧ (iterateCommand P s).status.marker = false :=
  prologue_induction (p := fun t => t.status.secStatus = .none ∧ t.status.marker = false) (fun _ _ => ⟨rfl, rfl⟩)
    ⟨rfl, rfl⟩

/-- Settles O26, by the two forms of ITERATE. -/
theorem iterateFillsTheRecordTable : Obligations.IterateFillsTheRecordTable := by
  unfold Obligations.IterateFillsTheRecordTable
  refine ⟨rfl, fun s => ?_⟩
  obtain ⟨hinfo, hiv⟩ := iterateCommand_keeps_info_iv defaultParams s
  obtain ⟨hsec, hmarker⟩ := iterateCommand_keeps_cleared defaultParams s
  refine ⟨iterateCommand defaultParams s, rfl, hsec, hmarker, hinfo, hiv, fun hn => ?tooLong, fun hn => ?fits⟩
  case tooLong =>
    rw [iterateCommand_of_tooLong _ hn]
    exact ⟨⟨rfl, rfl, rfl, rfl⟩, noResults_finish_clearResults (by decide) s _ _, rfl⟩
  case fits =>
    obtain ⟨hfinished, hstop, hlen, hpt, htable⟩ :=
      iterateAndFinish_writePt defaultParams (frameBytes s) (clearResults .records s)
        ((frameBytes_length s).trans_le hn)
    rw [iterateCommand_of_fits _ hn]
    exact ⟨BitVec.eq_of_toNat_eq (hlen.trans (frameBytes_length s)), hpt, htable, hstop, hfinished⟩

/-- Settles O27, by the rows of R294 and what the record stage leaves. -/
theorem stopReasonGivesTheOutcome : Obligations.StopReasonGivesTheOutcome := by
  unfold Obligations.StopReasonGivesTheOutcome
  refine ⟨rfl, rfl, rfl, rfl, rfl, rfl, rfl, rfl, fun s t hn hexec => ?_⟩
  obtain ⟨⟨-, -, houtcome, herrCode⟩, hstop, -, -, htable⟩ :=
    iterateAndFinish_writePt defaultParams (frameBytes s) (clearResults .records s)
      ((frameBytes_length s).trans_le hn)
  obtain rfl : iterateCommand defaultParams s = t := Host.Outcome.next.inj hexec
  rw [iterateCommand_of_fits _ hn, houtcome, herrCode, hstop]
  exact ⟨htable, rfl⟩

/-- Settles O28, by the span of each record in the walk. -/
theorem iteratorStaysInThePayload : Obligations.IteratorStaysInThePayload := by
  unfold Obligations.IteratorStaysInThePayload
  intro P p hP hn
  obtain ⟨hspan, hpair⟩ := iterateFrom_span hP hn p.length (le_refl p.length)
  exact ⟨iterateFrom_length P p.length p.length p, fun r hr => (hspan r hr).2, hpair⟩

/-- Settles O29; where no DIF is special, the three DIFs have the row of field `0xF`, which has no data. -/
theorem iteratorSkipsFillerAndStops : Obligations.IteratorSkipsFillerAndStops := by
  unfold Obligations.IteratorSkipsFillerAndStops
  refine ⟨fun P n b => ⟨rfl, rfl⟩, rfl, rfl, fun P n next rest hP => ?special,
    fun P p hP hp => iterateFrom_filler hP p.length hp,
    fun P n dif vif vifes rest hP htable hdif hvifes hvl => ?uniform⟩
  case special =>
    exact ⟨readRecord_of_fillerDif hP n next rest, readRecord_of_stopDif hP n next rest (.inl rfl),
      readRecord_of_stopDif hP n next rest (.inr rfl)⟩
  case uniform =>
    have hordinary : OrdinaryDif P dif := fun h => absurd (hP.symm.trans h) (by decide)
    have hall : ∀ x ∈ [0x0F#8, 0x1F#8, 0x2F#8], extBit x = false ∧ difDataField x = 0xF#4 := by decide
    obtain ⟨hends, hfield⟩ := hall dif hdif
    have hrow : (P.difTable (difDataField dif)).len = .fixed 0 := by rw [htable, hfield]; rfl
    have hread := readRecord_of_whole (n := n) (difes := []) (data := []) hordinary hends (by decide) hvifes hvl
      (readLength_of_fixed hrow rest)
    exact ⟨_, hread, rfl, rfl, rfl, fillSlot_kind .., rfl⟩

/-- Settles O30: each reason comes from the chain or the data that is broken. -/
theorem brokenRecordsStopTheIterator : Obligations.BrokenRecordsStopTheIterator := by
  unfold Obligations.BrokenRecordsStopTheIterator
  intro P n dif vif difes vifes hdif
  refine ⟨fun hext hall hne hdl => ?difesCut, fun hext hall hdl x rest => ?difesTooLong, fun hdifes hne hdl => ?noVif,
    fun hdifes hdl hext hall hvl => ?vifesCut, fun hdifes hdl hext hall hvl x rest => ?vifesTooLong,
    fun hdifes hdl hvifes hvl =>
      ⟨fun len data hlen hcut => ?dataCut, fun hlen => ⟨?noLengthByte, fun b data hcut => ?lengthByteCut⟩⟩⟩
  case difesCut =>
    exact (readRecord_of_ordinary hdif hne).1 _ (hext ▸ readChain_of_cut hall ((Nat.zero_add _).trans_le hdl))
  case difesTooLong =>
    exact (readRecord_of_ordinary hdif (by simp)).1 _
      (hext ▸ readChain_of_tooLong (chain := []) hall ((Nat.zero_add _).trans hdl) x rest)
  case noVif =>
    have h := readRecord_of_difes (n := n) (rest := []) hdif hdifes hdl (by simpa)
    rw [List.append_nil] at h
    exact h
  case vifesCut =>
    rw [readRecord_of_difes hdif hdifes hdl (by simp)]
    exact readVif_of_vifeError (hext ▸ readChain_of_cut hall ((Nat.zero_add _).trans_le hvl))
  case vifesTooLong =>
    rw [readRecord_of_difes hdif hdifes hdl (by simp)]
    exact readVif_of_vifeError (hext ▸ readChain_of_tooLong (chain := []) hall ((Nat.zero_add _).trans hvl) x rest)
  case dataCut =>
    rw [readRecord_of_header hdif hdifes hdl hvifes hvl]
    exact readData_of_cut (readLength_of_fixed hlen data) hcut
  case noLengthByte =>
    have h := readRecord_of_header (n := n) (rest := []) hdif hdifes hdl hvifes hvl
    rw [List.append_nil] at h
    rw [h]
    exact readData_of_noLengthByte hlen
  case lengthByteCut =>
    rw [readRecord_of_header hdif hdifes hdl hvifes hvl]
    exact readData_of_cut (readLength_of_var hlen b data) hcut

/-- Settles O31, by the trip on a record whose chains and data are whole, and the loop as its one trip. -/
theorem wholeRecordIsReadAsItsSlot : Obligations.WholeRecordIsReadAsItsSlot := by
  unfold Obligations.WholeRecordIsReadAsItsSlot
  refine ⟨fun P n dif vif difes vifes data rest hdif hdifes hdl hvifes hvl =>
      ⟨fun hlen => ?fixed, fun b hlen hb => ?lengthByte⟩,
    fun _ _ => rfl, fun P n p => ⟨fun r => iterateFrom_of_stop, fun p' => iterateFrom_of_filler,
      fun slot p' => iterateFrom_of_record⟩⟩
  case fixed => exact readRecord_of_whole hdif hdifes hdl hvifes hvl (readLength_of_fixed hlen (data ++ rest))
  case lengthByte =>
    exact readRecord_of_whole hdif hdifes hdl hvifes hvl (hb ▸ readLength_of_var hlen b (data ++ rest))

end Sys2Proof.Machine
end

section
/-! The step by the phase of the sequencer (R340, R341): a CMD write in IDLE and in a bus slot, and the completion of a
word by what it decodes to. Then that a command has finished in every form it leaves (R344). -/

namespace Sys2Proof.Machine

/-! ### A CMD write -/

theorem writeWord_cmd (v : Word) (s : State) :
    writeWord 0x008 v s = { unlessBusy setCmdOverrun (issue v) s with resp := ⟨0#32, false⟩ } := rfl

/-- A CMD write at the head of the queue (R34, R340). -/
theorem hostStep_cmd {s : State} {v : Word} {rest : List HostOp} (hq : s.hostQueue = .write .word 0x008#14 v :: rest) :
    hostStep s =
      { unlessBusy setCmdOverrun (issue v) { s with hostQueue := rest } with resp := ⟨0#32, false⟩ } := by
  rw [hostStep, hq]
  exact (hostWrite_word rfl v _).trans (writeWord_cmd v _)

/-! ### Completions -/

theorem step_of_command {s : State} {w : Word} {i : Instr} (hp : s.phase = .busy w 0) (hi : decode w = .ok i) :
    step s = exec i s := by
  rw [step, hp]
  simp only [complete, hi]

theorem step_of_illegal {s : State} {w : Word} {e : DecodeError} (hp : s.phase = .busy w 0)
    (he : decode w = .error e) : step s = .next (illegalCommand s) := by
  rw [step, hp]
  simp only [complete, he]

theorem decode_encode (i : Instr) : decode (encode i) = .ok i :=
  (decode_eq_ok_iff _ i).2 ((eq_encode_iff _ i).1 rfl)

/-! ### Every command finishes -/

theorem exists_exec_eq_next (i : Instr) (s : State) : ∃ t, exec i s = .next t := by
  cases i <;> exact ⟨_, rfl⟩

theorem exists_step_eq_next (s : State) : ∃ t, step s = .next t := by
  match hp : s.phase with
  | .idle => exact ⟨_, step_of_idle hp⟩
  | .busy w (left + 1) => exact ⟨_, step_of_slot hp⟩
  | .busy w 0 =>
    cases hd : decode w with
    | ok i => exact step_of_command hp hd ▸ exists_exec_eq_next i s
    | error e => exact ⟨_, step_of_illegal hp hd⟩

/-- Every form a command leaves was finished (R344). -/
theorem Leaves.finished {s t : State} (h : Leaves s t) : Finished t.status.outcome t.status.errCode t := by
  cases h <;> (subst_vars; exact ⟨rfl, rfl, rfl, rfl⟩)

end Sys2Proof.Machine
end

section
/-! The results of DECODE and ITERATE by what they are computed from. The record stage starts on empty result buffers,
so the bytes it leaves are those of its plaintext alone (`sameRecords_iterateAndFinish`). DECODE is followed through its
stages from two states that agree so far (`DecodesAlike`). Last, DECODE of an encrypted telegram beside DERIVE_IV and
DECRYPT. -/

namespace Sys2Proof.Machine

/-! ### The record stage on empty buffers -/

/-- Every byte that the record stage finds or leaves in a memory: the table, the plaintext, and the old bytes. -/
theorem read_iterateAndFinish_writePt (P : Config.Params) {p : List Byte} (hp : p.length ≤ Config.pPtMax) (s : State)
    (a : Nat) :
    Memory.read (iterateAndFinish P (writePt p s)).mem a =
      if recBase ≤ a ∧ a < recEnd then ((iterate P p).1.flatMap slotBytes)[a - recBase]?
      else if ptBase ≤ a ∧ a < ptBase + Config.pPtMax then p[a - ptBase]?
      else Memory.read s.mem a := by
  rw [iterateAndFinish_eq, ptBytes_writePt p s hp, finish_mem, read_writeRecords _ _ _ (iterate_length_le P hp),
    read_writePt p s hp]

theorem sameRecords_of_noResults {s t : State} (hs : NoResults s) (ht : NoResults t)
    (hr : t.status.recStop = s.status.recStop) (ho : t.status.outcome = s.status.outcome)
    (he : t.status.errCode = s.status.errCode) : SameRecords s t := by
  obtain ⟨hsl, hsc, hsb⟩ := hs
  obtain ⟨htl, htc, htb⟩ := ht
  exact ⟨htl.trans hsl.symm, htc.trans hsc.symm, fun a h1 h2 => (htb a h1 h2).trans (hsb a h1 h2).symm, hr, ho, he⟩

/-- On empty buffers the record stage leaves what the plaintext alone says (R296). -/
theorem sameRecords_iterateAndFinish (P : Config.Params) {p : List Byte} (hp : p.length ≤ Config.pPtMax) {s t : State}
    (hs : NoResults s) (ht : NoResults t) :
    SameRecords (iterateAndFinish P (writePt p s)) (iterateAndFinish P (writePt p t)) := by
  obtain ⟨-, -, hsb⟩ := hs
  obtain ⟨-, -, htb⟩ := ht
  obtain ⟨⟨-, -, hso, hse⟩, hsr, -⟩ := iterateAndFinish_writePt P p s hp
  obtain ⟨⟨-, -, hto, hte⟩, htr, -⟩ := iterateAndFinish_writePt P p t hp
  refine ⟨rfl, ?_, fun a h1 h2 => ?_, htr.trans hsr.symm, hto.trans hso.symm, hte.trans hse.symm⟩
  · rw [iterateAndFinish_eq, iterateAndFinish_eq, ptBytes_writePt p s hp, ptBytes_writePt p t hp]
    rfl
  · rw [read_iterateAndFinish_writePt P hp, read_iterateAndFinish_writePt P hp, htb a h1 h2, hsb a h1 h2]

/-! ### The IV and the key as register words -/

theorem SameIv.symm {s t : State} (h : SameIv s t) : SameIv t s := by
  obtain ⟨h0, h1, h2, h3⟩ := h
  exact ⟨h0.symm, h1.symm, h2.symm, h3.symm⟩

theorem SameIv.trans {s t u : State} (h : SameIv s t) (g : SameIv t u) : SameIv s u := by
  obtain ⟨h0, h1, h2, h3⟩ := h
  obtain ⟨g0, g1, g2, g3⟩ := g
  exact ⟨g0.trans h0, g1.trans h1, g2.trans h2, g3.trans h3⟩

theorem SameIv.ivBlock_eq {s t : State} (h : SameIv s t) : ivBlock t = ivBlock s := by
  obtain ⟨h0, h1, h2, h3⟩ := h
  simp only [ivBlock, h0, h1, h2, h3]

/-- The key bytes are those of one block, so they give the block back. -/
theorem keyBlock_eq_of_keyBytes_eq {s t : State} (h : keyBytes t = keyBytes s) : keyBlock t = keyBlock s :=
  List.singleton_inj.1 (congrArg blocksOf h)

/-! ### The telegram of a state -/

theorem telegramPayload_congr {s t : State} (hF : frameBytes t = frameBytes s) :
    telegramPayload t = telegramPayload s := by rw [telegramPayload, telegramPayload, hF]

theorem telegramIv_congr {s t : State} (hF : frameBytes t = frameBytes s) : telegramIv t = telegramIv s := by
  rw [telegramIv, telegramIv, hF]

theorem exists_isBlock_telegramIv (s : State) : ∃ b, IsBlock (telegramIv s) b := exists_isBlock_deriveIv _ _ _ _

/-- DECODE of an unencrypted telegram iterates its payload (R214, R346). -/
theorem decodeCommand_eq_iterateAndFinish {s : State} (hn : s.frameLen.toNat ≤ Config.pFrameMax)
    (hv : (frameStage (frameBytes s)).1 = .ok) (he : (frameStage (frameBytes s)).2.encrypted = false) :
    decodeCommand defaultParams s = iterateAndFinish defaultParams (writePt (telegramPayload s) (afterFrame s)) :=
  decodeCommand_of_unencrypted _ hn hv he

/-! ### DECODE from two states -/

/-- The results that R348 names are the same. -/
structure SameDecode (s t : State) : Prop where
  info : t.info = s.info
  records : SameRecords s t
  secStatus : t.status.secStatus = s.status.secStatus
  marker : t.status.marker = s.status.marker

/-- Two states in a DECODE before its record stage that agree on what it has found so far. -/
structure DecodesAlike (s t : State) : Prop where
  noResults_left : NoResults s
  noResults_right : NoResults t
  info : t.info = s.info
  secStatus : t.status.secStatus = s.status.secStatus
  marker : t.status.marker = s.status.marker
  recStop : t.status.recStop = s.status.recStop

theorem decodesAlike_clearResults (s t : State) : DecodesAlike (clearResults .frame s) (clearResults .frame t) :=
  ⟨noResults_clearResults (by decide) s, noResults_clearResults (by decide) t, rfl, rfl, rfl, rfl⟩

theorem decodesAlike_afterFrame {s t : State} (hF : frameBytes t = frameBytes s) :
    DecodesAlike (afterFrame s) (afterFrame t) := by
  refine ⟨noResults_afterFrame s, noResults_afterFrame t, ?_, ?_, rfl, rfl⟩
  all_goals
    rw [afterFrame, afterFrame, hF]
    rfl

section
variable {s t : State} (h : DecodesAlike s t)
include h

theorem DecodesAlike.setSecStatus (v : SecStatus) : DecodesAlike (setSecStatus v s) (setSecStatus v t) :=
  ⟨h.noResults_left, h.noResults_right, h.info, rfl, h.marker, h.recStop⟩

theorem DecodesAlike.setMarker (v : Bool) : DecodesAlike (setMarker v s) (setMarker v t) :=
  ⟨h.noResults_left, h.noResults_right, h.info, h.secStatus, rfl, h.recStop⟩

theorem DecodesAlike.writeIv (v w : List Byte) : DecodesAlike (writeIv v s) (writeIv w t) :=
  ⟨h.noResults_left, h.noResults_right, h.info, h.secStatus, h.marker, h.recStop⟩

theorem DecodesAlike.sameDecode_finish (o : OutcomeClass) (e : ErrCode) :
    SameDecode (finish o e s) (finish o e t) :=
  ⟨h.info, sameRecords_of_noResults h.noResults_left h.noResults_right h.recStop rfl rfl, h.secStatus, h.marker⟩

theorem DecodesAlike.sameDecode_iterateAndFinish (P : Config.Params) {p : List Byte}
    (hp : p.length ≤ Config.pPtMax) :
    SameDecode (iterateAndFinish P (writePt p s)) (iterateAndFinish P (writePt p t)) :=
  ⟨h.info, sameRecords_iterateAndFinish P hp h.noResults_left h.noResults_right, h.secStatus, h.marker⟩

end

section
variable {s t : State} (h : EncryptedTelegram s) (hF : frameBytes t = frameBytes s)
include h hF

theorem EncryptedTelegram.congr (hl : t.frameLen = s.frameLen) : EncryptedTelegram t :=
  ⟨hl ▸ h.fits, hF ▸ h.accepted, hF ▸ h.encrypted⟩

/-- DECODE of one payload of whole blocks under one key: both find the marker, or neither (R211, R216). -/
theorem EncryptedTelegram.sameDecode_of_wholeBlocks (ht : EncryptedTelegram t) (hks : s.keyLen = 16#8)
    (hkt : t.keyLen = 16#8) (hkey : keyBlock t = keyBlock s) (hc : (telegramPayload s).length % 16 = 0) :
    SameDecode (decodeCommand defaultParams s) (decodeCommand defaultParams t) := by
  have hpayload := telegramPayload_congr hF
  have hct : (telegramPayload t).length % 16 = 0 := hpayload ▸ hc
  obtain ⟨b, hb⟩ := exists_isBlock_telegramIv s
  have hbt : IsBlock (telegramIv t) b := telegramIv_congr hF ▸ hb
  have hP : stripPad (cbcDecrypt (keyBlock t) b (telegramPayload t)) =
      stripPad (cbcDecrypt (keyBlock s) b (telegramPayload s)) := by rw [hkey, hpayload]
  have hframe := (decodesAlike_afterFrame hF).writeIv (telegramIv s) (telegramIv t)
  cases hm : markerOf (stripPad (cbcDecrypt (keyBlock s) b (telegramPayload s))) with
  | false =>
    rw [h.decodeCommand_of_noMarker hb hks hc hm, ht.decodeCommand_of_noMarker hbt hkt hct (hP ▸ hm)]
    exact ((hframe.setMarker false).setSecStatus .undecryptable).sameDecode_finish _ _
  | true =>
    rw [h.decodeCommand_of_marker hb hks hc rfl hm, ht.decodeCommand_of_marker hbt hkt hct hP hm]
    exact ((hframe.setMarker true).setSecStatus .decrypted).sameDecode_iterateAndFinish _ (h.records_length_le b hc)

/-- DECODE of one encrypted telegram from two states, by the cases of the cipher stage (R216, R348). -/
theorem EncryptedTelegram.sameDecode (hl : t.frameLen = s.frameLen) (hkl : t.keyLen = s.keyLen)
    (hkey : s.keyLen = 16#8 → keyBlock t = keyBlock s) :
    SameDecode (decodeCommand defaultParams s) (decodeCommand defaultParams t) := by
  have ht : EncryptedTelegram t := h.congr hF hl
  have hframe := decodesAlike_afterFrame hF
  by_cases h0 : s.keyLen = 0#8
  · rw [h.decodeCommand_of_noKey h0, ht.decodeCommand_of_noKey (hkl.trans h0)]
    exact (hframe.setSecStatus .encrypted).sameDecode_finish _ _
  by_cases hk : s.keyLen = 16#8
  · by_cases hc : (telegramPayload s).length % 16 = 0
    · exact h.sameDecode_of_wholeBlocks hF ht hk (hkl.trans hk) (hkey hk) hc
    · rw [h.decodeCommand_of_badLength hk hc,
        ht.decodeCommand_of_badLength (hkl.trans hk) (telegramPayload_congr hF ▸ hc)]
      exact ((hframe.writeIv _ _).setSecStatus .undecryptable).sameDecode_finish _ _
  · rw [h.decodeCommand_of_badKey h0 hk, ht.decodeCommand_of_badKey (hkl ▸ h0) (hkl ▸ hk)]
    exact (decodesAlike_clearResults _ _).sameDecode_finish _ _

end

/-- DECODE from two states that hold the same telegram and, where DECODE reads it, the same key (R348). -/
theorem sameDecode_decodeCommand {s t : State} (hl : t.frameLen = s.frameLen) (hF : frameBytes t = frameBytes s)
    (hkl : t.keyLen = s.keyLen) (hkey : s.keyLen = 16#8 → keyBlock t = keyBlock s) :
    SameDecode (decodeCommand defaultParams s) (decodeCommand defaultParams t) := by
  by_cases hn : s.frameLen.toNat ≤ Config.pFrameMax
  · have hnt : t.frameLen.toNat ≤ Config.pFrameMax := hl ▸ hn
    cases hv : (frameStage (frameBytes s)).1 with
    | malformed =>
      have h10 : s.frameLen.toNat < 10 := by rwa [← frameBytes_length, ← frameStage_malformed_iff]
      rw [decodeCommand_of_malformed _ h10, decodeCommand_of_malformed _ (hl ▸ h10)]
      exact (decodesAlike_clearResults s t).sameDecode_finish _ _
    | truncated =>
      rw [decodeCommand_of_truncated _ hn hv, decodeCommand_of_truncated _ hnt (hF ▸ hv)]
      exact (decodesAlike_afterFrame hF).sameDecode_finish _ _
    | ok =>
      cases he : (frameStage (frameBytes s)).2.encrypted with
      | true => exact EncryptedTelegram.sameDecode ⟨hn, hv, he⟩ hF hl hkl hkey
      | false =>
        rw [decodeCommand_eq_iterateAndFinish hn hv he, decodeCommand_eq_iterateAndFinish hnt (hF ▸ hv) (hF ▸ he),
          telegramPayload_congr hF]
        exact (decodesAlike_afterFrame hF).sameDecode_iterateAndFinish _ (telegramPayload_length_le hn)
  · have hn' : Config.pFrameMax < s.frameLen.toNat := Nat.lt_of_not_le hn
    rw [decodeCommand_of_tooLong _ hn', decodeCommand_of_tooLong _ (hl ▸ hn')]
    exact (decodesAlike_clearResults s t).sameDecode_finish _ _

/-! ### DECODE of an encrypted telegram, DERIVE_IV and DECRYPT -/

section
variable {s : State} (h : EncryptedTelegram s) (hk : s.keyLen = 16#8)
include h hk

/-- With a key of the right length DECODE leaves its derived IV, whatever becomes of the payload (R216). -/
theorem EncryptedTelegram.sameIv_decodeCommand (u : State) :
    SameIv (writeIv (telegramIv s) u) (decodeCommand defaultParams s) := by
  obtain ⟨b, hb⟩ := exists_isBlock_telegramIv s
  by_cases hc : (telegramPayload s).length % 16 = 0
  · cases hm : markerOf (stripPad (cbcDecrypt (keyBlock s) b (telegramPayload s))) with
    | false =>
      rw [h.decodeCommand_of_noMarker hb hk hc hm]
      exact ⟨rfl, rfl, rfl, rfl⟩
    | true =>
      rw [h.decodeCommand_of_marker hb hk hc rfl hm]
      obtain ⟨-, -, -, hiv⟩ := iterateAndFinish_writePt_keeps defaultParams
        ((stripPad (cbcDecrypt (keyBlock s) b (telegramPayload s))).drop 2)
        (setSecStatus .decrypted (setMarker true (writeIv (telegramIv s) (afterFrame s))))
      exact hiv
  · rw [h.decodeCommand_of_badLength hk hc]
    exact ⟨rfl, rfl, rfl, rfl⟩

/-- The marker and the plaintext of DECODE, from the decrypted payload (R211, R216). -/
theorem EncryptedTelegram.decodeCommand_plaintext {b : Block} (hb : IsBlock (telegramIv s) b)
    (hc : (telegramPayload s).length % 16 = 0) {p : List Byte}
    (hp : stripPad (cbcDecrypt (keyBlock s) b (telegramPayload s)) = p) :
    (decodeCommand defaultParams s).status.marker = markerOf p ∧
      (markerOf p = true → ptBytes (decodeCommand defaultParams s) = p.drop 2) := by
  cases hm : markerOf p with
  | false =>
    rw [h.decodeCommand_of_noMarker hb hk hc (hp ▸ hm)]
    exact ⟨rfl, nofun⟩
  | true =>
    have hd := h.holdsDecrypted hb hk hc hp hm
    exact ⟨hd.marker, fun _ => hd.pt⟩

end

/-- The marker and the plaintext of DECRYPT (R210). -/
theorem decryptCommand_plaintext {s : State} (hn : s.frameLen.toNat ≤ Config.pFrameMax) (hk : s.keyLen = 16#8)
    (hm : s.frameLen.toNat % 16 = 0) :
    (decryptCommand s).status.marker = markerOf (decryptBytes s (frameBytes s)) ∧
      ptBytes (decryptCommand s) = decryptBytes s (frameBytes s) := by
  have hl : (decryptBytes s (frameBytes s)).length ≤ Config.pPtMax :=
    (decryptBytes_length_le s (by rwa [frameBytes_length])).trans ((frameBytes_length s).trans_le hn)
  rw [decryptCommand_of_ok hn hk hm]
  exact ⟨rfl, ptBytes_of_writePt hl rfl fun _ _ _ => rfl⟩

end Sys2Proof.Machine
end

section
/-! The command lifecycle, NOP, illegal words, and DECODE as its parts (44_control.md). -/

namespace Sys2Proof.Machine

/-- Settles O4: a step answers by its phase, and every form a command leaves was finished. -/
theorem stepsAnswerAndCommandsFinish : Obligations.StepsAnswerAndCommandsFinish := by
  unfold Obligations.StepsAnswerAndCommandsFinish
  refine ⟨exists_step_eq_next, fun i s => ?_⟩
  obtain ⟨t, ht⟩ := exists_exec_eq_next i s
  obtain ⟨hphase, hdone, -, -⟩ := (leaves_exec ht).finished
  exact ⟨t, ht, hdone, hphase⟩

/-- Settles O6, by the phase in which the step finds the CMD write or the word. -/
theorem cmdWriteIssuesTheCommand : Obligations.CmdWriteIssuesTheCommand := by
  unfold Obligations.CmdWriteIssuesTheCommand
  refine ⟨fun s w rest hp hq => ?issued, fun s w i => step_of_command, fun s w e => step_of_illegal,
    fun s w v left rest hp hq => ?dropped⟩
  case issued =>
    have hidle : busy { s with hostQueue := rest } = false := busy_of_idle hp
    rw [step_of_idle hp, hostStep_cmd hq, unlessBusy, hidle]
    rfl
  case dropped =>
    rw [step_of_slot hp, hostStep_cmd (by exact hq), unlessBusy_of_busy (busy_of_busy rfl)]
    rfl

/-- Settles O7: a command's word decodes to the command. -/
theorem stepRunsTheDecodedCommand : Obligations.StepRunsTheDecodedCommand := by
  unfold Obligations.StepRunsTheDecodedCommand
  refine ⟨fun s w i => step_of_command, fun s i => ?_⟩
  obtain ⟨-, hop⟩ := (eq_encode_iff (encode i) i).1 rfl
  rw [State.withFetchWord, tableWord_toNat, step_of_command rfl (decode_encode i), issueFor, hop]

/-- Settles O11: NOP is `finish` alone. -/
theorem nopFinishesOkAndChangesNoResult : Obligations.NopFinishesOkAndChangesNoResult := by
  unfold Obligations.NopFinishesOkAndChangesNoResult
  refine ⟨rfl, fun s left => ⟨_, exec_nop _, ⟨rfl, rfl, rfl, rfl⟩, rfl, rfl, ⟨rfl, rfl, rfl, rfl⟩,
    ⟨rfl, rfl, rfl, rfl, rfl, rfl⟩⟩, _, exec_nop _, by decide⟩

/-- Settles O12: a word above 5 decodes to an error, and an illegal word is `finish` alone. -/
theorem illegalWordChangesOnlyStatus : Obligations.IllegalWordChangesOnlyStatus := by
  unfold Obligations.IllegalWordChangesOnlyStatus
  refine ⟨fun s w hw => ?_, _, step_of_illegal (e := .mbzNonzero) rfl (by decide), by decide⟩
  obtain ⟨-, herror⟩ := decodeIsExactlyTheOpcodeMap
  obtain ⟨e, he⟩ := (herror w).2 hw
  exact ⟨_, step_of_illegal rfl he, ⟨rfl, rfl, rfl, rfl⟩, rfl, rfl, ⟨rfl, rfl, rfl, rfl⟩,
    ⟨rfl, rfl, rfl, rfl, rfl, rfl⟩, sameInputs_finish _ _ _⟩

/-- Settles O42, by the stages of DECODE from two states that hold the same telegram and key. -/
theorem decodeDependsOnlyOnItsInputs : Obligations.DecodeDependsOnlyOnItsInputs := by
  unfold Obligations.DecodeDependsOnlyOnItsInputs
  intro s u t v hl hF hkl hkey ht hv
  cases ht
  cases hv
  have hd := sameDecode_decodeCommand hl hF hkl fun hk => keyBlock_eq_of_keyBytes_eq (hkey hk)
  refine ⟨hd.info, hd.records, hd.secStatus, hd.marker, fun hn hok he hk => ?_⟩
  have hs : EncryptedTelegram s := ⟨hn, hok, he⟩
  have hu := (hs.congr hF hl).sameIv_decodeCommand (hkl.trans hk) s
  rw [telegramIv_congr hF] at hu
  exact (hs.sameIv_decodeCommand hk s).symm.trans hu

/-- Settles O43: both commands iterate the payload on empty result buffers. -/
theorem decodeIsParseFrameThenIterate : Obligations.DecodeIsParseFrameThenIterate := by
  unfold Obligations.DecodeIsParseFrameThenIterate
  intro s u d p i hn hok he hF hd hp hi
  cases hd
  cases hp
  cases hi
  have hlen := telegramPayload_length_le hn
  have hu : u.frameLen.toNat ≤ Config.pFrameMax := by
    rw [← frameBytes_length, hF]
    exact hlen
  obtain ⟨hinfo, -⟩ := iterateAndFinish_writePt_keeps defaultParams (telegramPayload s) (afterFrame s)
  have hrecords := sameRecords_iterateAndFinish defaultParams hlen
    (noResults_clearResults (scope := .records) (by decide) u) (noResults_afterFrame s)
  rw [decodeCommand_eq_iterateAndFinish hn hok he, parseFrame_of_ok hn hok, iterateCommand_of_fits _ hu, hF]
  exact ⟨hinfo, hrecords⟩

/-- Settles O44: DECRYPT runs on DECODE's own ciphertext, key and IV. -/
theorem decodeIsDeriveIvThenDecrypt : Obligations.DecodeIsDeriveIvThenDecrypt := by
  unfold Obligations.DecodeIsDeriveIvThenDecrypt
  intro s u v d e x f hn hok he hk hm ha hacc hfc hd hiv
  cases hd
  cases hiv
  have h : EncryptedTelegram s := ⟨hn, hok, he⟩
  have hderive : deriveIvCommand u = finish .ok .none (writeIv (telegramIv s) u) := by
    rw [deriveIvCommand_eq, hm, ha, hacc, hfc]
    rfl
  rw [hderive]
  refine ⟨h.sameIv_decodeCommand hk u, fun hC hc hkv hkey hsame hx => ?_⟩
  cases hx
  replace hC : frameBytes v = telegramPayload s := hC
  obtain ⟨b, hb⟩ := exists_isBlock_telegramIv s
  have hivb : ivBlock v = b := hsame.ivBlock_eq.trans (ivBlock_writeIv hb u)
  have hP : stripPad (cbcDecrypt (keyBlock s) b (telegramPayload s)) = decryptBytes v (frameBytes v) := by
    rw [decryptBytes, hivb, keyBlock_eq_of_keyBytes_eq hkey, hC]
  have hv : v.frameLen.toNat ≤ Config.pFrameMax := by
    rw [← frameBytes_length, hC]
    exact telegramPayload_length_le hn
  obtain ⟨hmarker, hpt⟩ := h.decodeCommand_plaintext hk hb (hC ▸ hc) hP
  obtain ⟨hmarker', hpt'⟩ := decryptCommand_plaintext hv hkv (by rwa [frameBytes_length] at hc)
  rw [hmarker, hmarker', hpt']
  exact ⟨rfl, hpt⟩

end Sys2Proof.Machine
end

section
/-! How a running command ends: within its bus slots, whatever the host does in them (R341, R378, R430); with no result
after a FATAL outcome (R343, R371); and with DONE, which IRQ follows (R380, R381). -/

namespace Sys2Proof.Machine

/-! ### The phase of a running command -/

/-- A write, SRST apart, leaves a running command BUSY (R420). -/
theorem hostWrite_phase_of_busy {s : State} {w : Word} {left : Nat} (hp : s.phase = .busy w left) (size : AccessSize)
    (off : BitVec 14) (v : Word) :
    (hostWrite size off v s).phase = .idle ∨ (hostWrite size off v s).phase = .busy w left := by
  have hb : busy s = true := busy_of_busy hp
  rcases hostWrite_cases size off v s with hw | ⟨u, hw, hu⟩ <;> rw [hw]
  · exact .inr hp
  · simp only [hb, Bool.true_eq_false, false_and, or_false] at hu
    rcases hu with rfl | rfl | rfl | rfl | rfl
    · exact .inr hp
    · exact .inl rfl
    all_goals exact .inr hp

/-- A host access leaves a running command BUSY, or resets the block (R420, R421). -/
theorem hostStep_phase_of_busy {s : State} {w : Word} {left : Nat} (hp : s.phase = .busy w left) :
    (hostStep s).phase = .idle ∨ (hostStep s).phase = .busy w left := by
  rcases hostStep_cases s with ⟨-, hs⟩ | ⟨size, off, rest, q, -, hs⟩ | ⟨size, off, v, rest, -, hs⟩ | ⟨rest, -, hs⟩ <;>
    rw [hs]
  · exact .inr hp
  · rcases hostRead_cases size off { s with hostQueue := q } with hr | ⟨data, d, -, hr⟩ <;> rw [hr] <;> exact .inr hp
  · exact hostWrite_phase_of_busy (by exact hp) size off v
  · exact .inl rfl

/-- With no bus slot left the next step ends the command or the illegal word. -/
theorem step_finishes {s : State} {w : Word} (hp : s.phase = .busy w 0) :
    ∃ t, step s = .next t ∧ t.phase = .idle := by
  cases hd : decode w with
  | ok i =>
    obtain ⟨t, ht⟩ := exists_exec_eq_next i s
    obtain ⟨hphase, -, -, -⟩ := (leaves_exec ht).finished
    exact ⟨t, (step_of_command hp hd).trans ht, hphase⟩
  | error e => exact ⟨_, step_of_illegal hp hd, rfl⟩

theorem run_succ_of_step {s u : State} (h : step s = .next u) (k : Nat) :
    Sys2Proof.core.run (k + 1) s = Sys2Proof.core.run k u := by
  have hcore : Sys2Proof.core.step s = .next u := h
  simp only [Host.Core.run, hcore]

/-! ### Results after a FATAL outcome -/

/-- The scope of a command's Prologue (R342, R343). -/
def commandScope : Instr → Scope
  | .nop => .none
  | .decode => .frame
  | .parseFrame => .frame
  | .deriveIv => .none
  | .decrypt => .cipher
  | .iterate => .records

/-- What the Prologue of a scope other than NONE leaves of the results (R343). -/
structure ResultsCleared (scope : Scope) (t : State) : Prop where
  scope_ne_none : scope ≠ .none
  noResults : NoResults t
  secStatus : t.status.secStatus = .none
  marker : t.status.marker = false
  recStop : t.status.recStop = .notRun
  info : scope = .frame → t.info = FrameInfo.cleared

theorem resultsCleared_finish {scope : Scope} (h : scope ≠ .none) (o : OutcomeClass) (e : ErrCode) (s : State) :
    ResultsCleared scope (finish o e (clearResults scope s)) := by
  have hnone := noResults_finish_clearResults h s o e
  cases scope with
  | none => exact absurd rfl h
  | frame => exact ⟨h, hnone, rfl, rfl, rfl, fun _ => rfl⟩
  | cipher => exact ⟨h, hnone, rfl, rfl, rfl, nofun⟩
  | records => exact ⟨h, hnone, rfl, rfl, rfl, nofun⟩

/-- A FATAL outcome leaves no result of the scope (R371). -/
def FatalClears (scope : Scope) (t : State) : Prop := t.status.outcome = .fatal → ResultsCleared scope t

theorem fatalClears_finish_clearResults {scope : Scope} (h : scope ≠ .none) (o : OutcomeClass) (e : ErrCode)
    (s : State) : FatalClears scope (finish o e (clearResults scope s)) := fun _ => resultsCleared_finish h o e s

theorem fatalClears_finish_of_ne {o : OutcomeClass} (h : o ≠ .fatal) (scope : Scope) (e : ErrCode) (s : State) :
    FatalClears scope (finish o e s) := fun ho => absurd ho h

/-- No stop reason is FATAL (R294). -/
theorem stopOutcome_ne_fatal (r : RecStop) : (stopOutcome r).1 ≠ .fatal := by cases r <;> decide

theorem fatalClears_iterateAndFinish (scope : Scope) (P : Config.Params) (s : State) :
    FatalClears scope (iterateAndFinish P s) := fatalClears_finish_of_ne (stopOutcome_ne_fatal _) scope _ _

/-- A FATAL cipher stage clears the results once more (R346). -/
theorem fatalClears_afterCipher (P : Config.Params) (r : OutcomeClass × ErrCode × State) :
    FatalClears .frame (afterCipher P r) := by
  obtain ⟨o, e, s⟩ := r
  cases o with
  | ok => exact fatalClears_iterateAndFinish .frame P s
  | degraded => exact fatalClears_finish_of_ne (by decide) .frame e s
  | fatal => exact fatalClears_finish_clearResults (by decide) .fatal e s

theorem fatalClears_decodePayload (P : Config.Params) (s : State) : FatalClears .frame (decodePayload P s) := by
  rw [decodePayload]
  split
  · exact fatalClears_afterCipher P _
  · exact fatalClears_iterateAndFinish .frame P _

theorem fatalClears_parseFrame (s : State) : FatalClears .frame (parseFrame s) := by
  have hclear := fatalClears_finish_clearResults (scope := .frame) (by decide)
  refine prologue_induction (fun o e => hclear o e s) ?_
  rcases frameStage (frameBytes (clearResults .frame s)) with ⟨_ | _ | _, f⟩
  · exact fatalClears_finish_of_ne (by decide) .frame _ _
  · exact hclear _ _ s
  · exact fatalClears_finish_of_ne (by decide) .frame _ _

theorem fatalClears_decodeCommand (P : Config.Params) (s : State) : FatalClears .frame (decodeCommand P s) := by
  have hclear := fatalClears_finish_clearResults (scope := .frame) (by decide)
  refine prologue_induction (fun o e => hclear o e s) ?_
  rcases frameStage (frameBytes (clearResults .frame s)) with ⟨_ | _ | _, f⟩
  · exact fatalClears_decodePayload P _
  · exact hclear _ _ s
  · exact fatalClears_finish_of_ne (by decide) .frame _ _

theorem fatalClears_decryptCommand (s : State) : FatalClears .cipher (decryptCommand s) := by
  have hclear := fatalClears_finish_clearResults (scope := .cipher) (by decide)
  refine prologue_induction (fun o e => hclear o e s) ?_
  split_ifs
  · exact hclear _ _ s
  · exact hclear _ _ s
  · exact fatalClears_finish_of_ne (by decide) .cipher _ _

theorem fatalClears_iterateCommand (P : Config.Params) (s : State) : FatalClears .records (iterateCommand P s) :=
  prologue_induction (fun o e => fatalClears_finish_clearResults (by decide) o e s)
    (fatalClears_iterateAndFinish .records P _)

/-- Every FATAL exit of a command is a `finish` on the results its Prologue cleared. -/
theorem fatalClears_exec {i : Instr} {s t : State} (h : exec i s = .next t) : FatalClears (commandScope i) t := by
  cases i <;> cases h
  case nop => exact fatalClears_finish_of_ne (by decide) .none _ _
  case decode => exact fatalClears_decodeCommand defaultParams s
  case parseFrame => exact fatalClears_parseFrame s
  case deriveIv => exact fatalClears_finish_of_ne (by decide) .none .none _
  case decrypt => exact fatalClears_decryptCommand s
  case iterate => exact fatalClears_iterateCommand defaultParams s

/-! ### IRQ -/

/-- A command that ends sets DONE and keeps IRQ_EN. -/
theorem Leaves.irq_eq {s t : State} (h : Leaves s t) : irq t = s.irqEn := by
  obtain ⟨-, hdone, -, -⟩ := h.finished
  rw [irq, hdone, h.sameInputs.irqEn, Bool.true_and]

theorem hostWrite_ctrl_of_busy {s : State} (hb : busy s = true) {v : Word} (hsrst : v.getLsbD 1 = false) :
    hostWrite .word 0x004#14 v s = { setWrIgnored s with resp := ⟨0#32, false⟩ } := by
  have hctrl : writeEffect 0x004 v s = setWrIgnored s := by
    change writeCtrl v s = _
    rw [writeCtrl_of_not_srst hsrst, unlessBusy_of_busy hb]
  exact (hostWrite_word rfl v s).trans (by rw [writeWord, show (0x004#14).toNat = 0x004 from rfl, hctrl])

end Sys2Proof.Machine
end

section
/-! Completion, errors and the interrupt (60_exceptions.md). -/

namespace Sys2Proof.Machine

/-- Settles O5, by induction on the bus slots left. -/
theorem busyEndsWithinItsLatency : Obligations.BusyEndsWithinItsLatency := by
  unfold Obligations.BusyEndsWithinItsLatency
  intro s w left hp
  induction left generalizing s with
  | zero =>
    obtain ⟨t, ht, hidle⟩ := step_finishes hp
    exact ⟨1, t, le_refl _, run_succ_of_step ht 0, hidle⟩
  | succ left ih =>
    have hrun := run_succ_of_step (step_of_slot hp)
    rcases hostStep_phase_of_busy (s := { s with phase := .busy w left }) rfl with hidle | hbusy
    · exact ⟨1, _, by omega, hrun 0, hidle⟩
    · obtain ⟨k, t, hk, ht, hidle⟩ := ih _ hbusy
      exact ⟨k + 1, t, by omega, (hrun k).trans ht, hidle⟩

/-- Settles O47, by the scope of the command's Prologue. -/
theorem fatalLeavesNoResult : Obligations.FatalLeavesNoResult := by
  unfold Obligations.FatalLeavesNoResult
  intro i s t ht hfatal
  obtain ⟨hscope, hnone, hsec, hmarker, hstop, hinfo⟩ := fatalClears_exec ht hfatal
  refine ⟨?nop, ?deriveIv, hnone, hsec, hmarker, hstop, ?info⟩
  case nop => exact fun hi => hscope (hi ▸ rfl)
  case deriveIv => exact fun hi => hscope (hi ▸ rfl)
  case info => exact fun hi => hinfo (by rcases hi with rfl | rfl <;> rfl)

/-- Settles O59, by DONE and IRQ_EN after each event. -/
theorem irqFollowsDoneAndEnable : Obligations.IrqFollowsDoneAndEnable := by
  unfold Obligations.IrqFollowsDoneAndEnable
  refine ⟨fun s => ?register, fun i s t ht => (leaves_exec ht).irq_eq,
    fun s => (Leaves.kept .fatal .illegalCommand rfl : Leaves s (illegalCommand s)).irq_eq, fun s v => ?status,
    fun s w => rfl, fun s => rfl, fun s v hp hv => ?idle, fun s v hb hv => ?busy⟩
  case register =>
    obtain ⟨-, hdone, -⟩ := statusWord_fields s
    rw [hdone, regWord_ctrl, irq, BitVec.getLsbD_setWidth, BitVec.getLsbD_ofBool]
    simp
  case status =>
    rw [hostWrite_status]
    exact Bool.and_right_comm _ _ _
  case idle =>
    rw [hostWrite_ctrl_of_idle hp hv]
    rfl
  case busy =>
    rw [hostWrite_ctrl_of_busy hb hv]
    rfl

end Sys2Proof.Machine
end

section
/-! Host accesses while BUSY (R420, R421) and the write that resets the block (R411), each as the whole state it leaves. -/

namespace Sys2Proof.Machine

theorem exists_phase_of_busy {s : State} (hb : busy s = true) : ∃ w left, s.phase = .busy w left := by
  rcases idle_or_busy s with hp | hp
  · rw [busy_of_idle hp] at hb
    cases hb
  · exact hp

/-! ### Writes -/

/-- A CTRL write with SRST resets the block in any phase (R411). -/
theorem hostWrite_ctrl_of_srst {v : Word} (hsrst : v.getLsbD 1 = true) (s : State) :
    hostWrite .word 0x004#14 v s = { blockReset s with resp := ⟨0#32, false⟩ } := by
  have hctrl : writeEffect 0x004 v s = blockReset s := if_pos hsrst
  exact (hostWrite_word rfl v s).trans (by rw [writeWord, show (0x004#14).toNat = 0x004 from rfl, hctrl])

/-- The aligned offsets of FRAME_LEN, KEY_LEN, KEY, IV, IVIN and FRAME_BUF are those of the inputs. -/
theorem isInput_regAt {n : Nat} (ha : n % 4 = 0)
    (h : n = 0x010 ∨ n = 0x014 ∨ 0x020 ≤ n ∧ n < 0x050 ∨ 0x100 ≤ n ∧ n < 0x200) : isInput (regAt n) = true := by
  by_cases hn : n < 0x070
  · have hregs : ∀ n < 0x070, n % 4 = 0 → n = 0x010 ∨ n = 0x014 ∨ 0x020 ≤ n ∧ n < 0x050 →
        isInput (regAt n) = true := by decide
    exact hregs n hn ha (by omega)
  · rw [regAt_frameBuf (by omega) (by omega)]
    rfl

theorem hostWrite_input_of_busy {s : State} (hb : busy s = true) {off : BitVec 14} (ha : off.toNat % 4 = 0)
    (hi : isInput (regAt off.toNat) = true) (v : Word) :
    hostWrite .word off v s = { setWrIgnored s with resp := ⟨0#32, false⟩ } := by
  rw [hostWrite_word ha, writeWord, writeEffect_of_input hi, if_pos hb]

theorem hostWrite_cmd_of_busy {s : State} (hb : busy s = true) (v : Word) :
    hostWrite .word 0x008#14 v s = { setCmdOverrun s with resp := ⟨0#32, false⟩ } := by
  refine (hostWrite_word rfl v s).trans ((writeWord_cmd v s).trans ?_)
  rw [unlessBusy_of_busy hb]

/-- With DONE = 0, as it is while BUSY, a STATUS write reaches only the sticky bits. -/
theorem writeStatus_of_not_done {s : State} (hd : s.status.done = false) (v : Word) :
    writeStatus v s = { s with
      status := { s.status with
        cmdOverrun := s.status.cmdOverrun && !v.getLsbD 16
        wrIgnored := s.status.wrIgnored && !v.getLsbD 17
        busErr := s.status.busErr && !v.getLsbD 18 } } := by
  have hdone : (s.status.done && !v.getLsbD 1) = s.status.done := by rw [hd, Bool.false_and]
  rw [writeStatus, hdone]

/-! ### Reads -/

theorem hostRead_word_of_busy {s : State} (hb : busy s = true) {off : BitVec 14} (ha : off.toNat % 4 = 0) :
    hostRead .word off s = { s with
      resp := ⟨(regWord s off.toNat &&& ~~~busyMask (regAt off.toNat)) |||
        (Config.freeWord s.draw &&& busyMask (regAt off.toNat)), false⟩
      draw := s.draw + 1 } := by
  obtain ⟨w, left, hp⟩ := exists_phase_of_busy hb
  rw [hostRead_word ha, readWord_of_busy hp]

/-- ID, CTRL, CMD and the inputs but IV have no free bit (R421). -/
theorem busyMask_regAt_eq_zero {n : Nat}
    (h : n < 0x00C ∨ n = 0x010 ∨ n = 0x014 ∨ 0x020 ≤ n ∧ n < 0x030 ∨ 0x040 ≤ n ∧ n < 0x050 ∨
      0x100 ≤ n ∧ n < 0x200) : busyMask (regAt n) = 0#32 := by
  by_cases hn : n < 0x070
  · have hregs : ∀ n < 0x070, n < 0x00C ∨ n = 0x010 ∨ n = 0x014 ∨ 0x020 ≤ n ∧ n < 0x030 ∨ 0x040 ≤ n ∧ n < 0x050 →
        busyMask (regAt n) = 0#32 := by decide
    exact hregs n hn (by omega)
  · rw [regAt_frameBuf (by omega) (by omega)]
    rfl

/-- The registers whose every bit is free while BUSY (R421). -/
def freeRegs : List Reg :=
  [.iv0, .iv1, .iv2, .iv3, .infoDll0, .infoA, .tplId, .tplHdr, .tplSec, .ptBuf, .recTable]

/-- The result registers: all their fields are free while BUSY, beside reserved bits that five of them have (R421). -/
def resultRegs : List Reg := [.ptLen, .recCount, .infoDll1, .payload, .sec] ++ freeRegs

theorem busyMask_of_mem_freeRegs : ∀ r ∈ freeRegs, busyMask r = 0xFFFFFFFF#32 := by decide

theorem regAt_mem_freeRegs {n : Nat} (ha : n % 4 = 0)
    (h : 0x030 ≤ n ∧ n < 0x040 ∨ 0x200 ≤ n ∧ n < 0x300 ∨ 0x400 ≤ n ∧ n < 0x2400) : regAt n ∈ freeRegs := by
  rcases h with ⟨hlo, hhi⟩ | ⟨hlo, hhi⟩ | ⟨hlo, hhi⟩
  · have hiv : ∀ n < 0x040, 0x030 ≤ n → n % 4 = 0 → regAt n ∈ freeRegs := by decide
    exact hiv n hhi hlo ha
  · rw [regAt_ptBuf hlo hhi]
    decide
  · rw [regAt_recTable hlo hhi]
    decide

theorem append_and_append_eq_zero {j k : Nat} {x m : BitVec j} {y l : BitVec k} (hx : x &&& m = 0#j)
    (hy : y &&& l = 0#k) : (x ++ y) &&& (m ++ l) = 0#(j + k) := by
  rw [BitVec.and_append, hx, hy, BitVec.zero_append_zero]

/-- A field alone in a word leaves the bits above it 0. -/
theorem setWidth_and_append_zero {k : Nat} (j : Nat) (x : BitVec k) (m : BitVec j) :
    x.setWidth (j + k) &&& (m ++ 0#k) = 0#(j + k) := by
  have hx : x.setWidth (j + k) = 0#j ++ x := by
    apply BitVec.eq_of_toNat_eq
    rw [BitVec.toNat_setWidth_of_le (Nat.le_add_left k j), BitVec.toNat_append, BitVec.toNat_zero, Nat.zero_shiftLeft,
      Nat.zero_or]
  rw [hx]
  exact append_and_append_eq_zero BitVec.zero_and BitVec.and_zero

theorem and_top_bits_eq_zero {w : Word} (h : w.extractLsb' 30 2 = 0#2) : w &&& ~~~0x3FFFFFFF#32 = 0#32 := by
  have hw : w.extractLsb' 30 2 ++ w.extractLsb' 0 30 = w :=
    (BitVec.extractLsb'_append_extractLsb'_eq_extractLsb' rfl).trans BitVec.extractLsb'_eq_self
  rw [← hw, h]
  exact append_and_append_eq_zero (m := 3#2) (l := 0#30) BitVec.zero_and BitVec.and_zero

/-- INFO_DLL1, PAYLOAD and SEC are 0 in their reserved bits (R46, R50, R51), which their masks leave out. -/
theorem infoWords_and_not_busyMask (f : FrameInfo) :
    infoDll1Word f &&& ~~~busyMask .infoDll1 = 0#32 ∧ payloadWord f &&& ~~~busyMask .payload = 0#32 ∧
      secWord f &&& ~~~busyMask .sec = 0#32 := by
  obtain ⟨-, -, -, -, -, -, -, -, hreserved⟩ := infoDll1Word_fields f
  refine ⟨and_top_bits_eq_zero hreserved, ?_, ?_⟩
  · exact append_and_append_eq_zero (m := 127#7 ++ 0#9 ++ 127#7) (l := 0#9)
      (append_and_append_eq_zero (append_and_append_eq_zero BitVec.zero_and BitVec.and_zero) BitVec.zero_and)
      BitVec.and_zero
  · exact append_and_append_eq_zero (m := BitVec.allOnes 27) (l := 0#5) BitVec.zero_and BitVec.and_zero

/-- A result register holds nothing but 0 outside its free bits. -/
theorem regWord_and_not_busyMask (s : State) {n : Nat} (h : regAt n ∈ resultRegs) :
    regWord s n &&& ~~~busyMask (regAt n) = 0#32 := by
  obtain ⟨hinfo, hpayload, hsec⟩ := infoWords_and_not_busyMask s.info
  rcases List.mem_append.1 h with hfields | hfree
  · simp only [List.mem_cons, List.not_mem_nil, or_false] at hfields
    rcases hfields with hr | hr | hr | hr | hr <;> rw [regWord, hr]
    · exact setWidth_and_append_zero 23 s.ptLen (BitVec.allOnes 23)
    · exact setWidth_and_append_zero 24 s.recCount (BitVec.allOnes 24)
    · exact hinfo
    · exact hpayload
    · exact hsec
  · rw [busyMask_of_mem_freeRegs _ hfree]
    exact BitVec.and_zero

section
variable {s : State} {off : BitVec 14} (hb : busy s = true) (ha : off.toNat % 4 = 0)
include hb ha

theorem hostRead_data_of_busyMask_zero (hm : busyMask (regAt off.toNat) = 0#32) :
    (hostRead .word off s).resp.data = regWord s off.toNat := by
  rw [hostRead_word_of_busy hb ha, hm, BitVec.and_zero, BitVec.or_zero]
  exact BitVec.and_allOnes

theorem hostRead_data_of_resultReg (hr : regAt off.toNat ∈ resultRegs) :
    (hostRead .word off s).resp.data = Config.freeWord s.draw &&& busyMask (regAt off.toNat) := by
  rw [hostRead_word_of_busy hb ha, regWord_and_not_busyMask s hr, BitVec.zero_or]

end

end Sys2Proof.Machine
end

section
/-! Resets, and the host's accesses while BUSY (70_reset_and_hazards.md). -/

namespace Sys2Proof.Machine

/-- Settles O54, by the register the write meets. -/
theorem writesWhileBusy : Obligations.WritesWhileBusy := by
  unfold Obligations.WritesWhileBusy
  intro s off v hb ha t
  refine ⟨?answer, fun h => ?input, fun h hsrst => ?reset, fun h => ?command, fun h hdone => ?status, fun h => ?ignored⟩
    <;> subst t
  case answer =>
    rw [hostWrite_word ha]
    rfl
  case input =>
    by_cases hctrl : off.toNat = 0x004
    · have hsrst : v.getLsbD 1 = false := by simpa [hctrl] using h
      obtain rfl : off = 0x004#14 := BitVec.eq_of_toNat_eq hctrl
      rw [hostWrite_ctrl_of_busy hb hsrst]
      rfl
    · rw [hostWrite_input_of_busy hb ha (isInput_regAt ha (by omega))]
      rfl
  case reset =>
    obtain rfl : off = 0x004#14 := BitVec.eq_of_toNat_eq h
    rw [hostWrite_ctrl_of_srst hsrst]
  case command =>
    obtain rfl : off = 0x008#14 := BitVec.eq_of_toNat_eq h
    rw [hostWrite_cmd_of_busy hb]
    rfl
  case status =>
    obtain rfl : off = 0x00C#14 := BitVec.eq_of_toNat_eq h
    rw [hostWrite_status, writeStatus_of_not_done hdone]
  case ignored => rw [hostWrite_word ha, writeWord, writeEffect_of_not_takesWrites (takesWrites_eq_false h)]

/-- Settles O55, by the free bits of the register at the offset. -/
theorem readsWhileBusy : Obligations.ReadsWhileBusy := by
  unfold Obligations.ReadsWhileBusy
  intro s off hb ha t free
  have hread : t = _ := hostRead_word_of_busy hb ha
  refine ⟨?frame, ?answer, fun h => ?value, fun h => ?key, fun h => ?status, fun e he h => ?result, fun h => ?free⟩
  case frame => rw [hread]
  case answer => rw [hread]
  case value => exact hostRead_data_of_busyMask_zero hb ha (busyMask_regAt_eq_zero h)
  case key =>
    have hzero : t.resp = ⟨0#32, false⟩ := by
      rw [show t = _ from hostRead_word ha s]
      exact readWord_resp_of_mem_zeroRegs s (regAt_mem_zeroRegs (by omega))
    rw [hzero]
  case status =>
    rw [hread, h]
    rfl
  case result =>
    have hmask : ∀ e ∈ [(0x018, 0x000001FF#32), (0x01C, 0x000000FF#32), (0x050, 0xFFFFFFFF#32),
        (0x054, 0xFFFFFFFF#32), (0x058, 0x3FFFFFFF#32), (0x05C, 0xFFFFFFFF#32), (0x060, 0xFFFFFFFF#32),
        (0x064, 0xFFFFFFFF#32), (0x068, 0x01FF01FF#32), (0x06C, 0x0000001F#32)],
        regAt e.1 ∈ resultRegs ∧ busyMask (regAt e.1) = e.2 := by decide
    obtain ⟨hr, hm⟩ := hmask e he
    rw [← h] at hr hm
    rw [← hm]
    exact hostRead_data_of_resultReg hb ha hr
  case free =>
    have hr := regAt_mem_freeRegs ha h
    have hdata := hostRead_data_of_resultReg hb ha (List.mem_append_right _ hr)
    rw [busyMask_of_mem_freeRegs _ hr] at hdata
    exact hdata.trans BitVec.and_allOnes

/-- Settles O56: a CTRL write with SRST is the hardware reset, which leaves only the host's side and the draws. -/
theorem resetsGiveTheResetState : Obligations.ResetsGiveTheResetState := by
  unfold Obligations.ResetsGiveTheResetState
  refine ⟨fun s => rfl, fun s v hsrst => ?_⟩
  rw [hostWrite_ctrl_of_srst hsrst]
  exact ⟨rfl, rfl⟩

end Sys2Proof.Machine
end
